-- ==== Sys2Proof/Word.lean ====
section
/-! DEFINITION. The word types of the block (00_scope.md R8, R9): bytes of the wire, device addresses, int32 patterns,
durations, and readings of the wall clock. -/

namespace Sys2Proof

/-- A byte on the wire, 0..255 (R8). -/
abbrev Byte := BitVec 8

/-- A device address, 0..127 (R21). -/
abbrev Addr := BitVec 7

/-- An int32, held as its two's-complement pattern (R9); the integer it stands for is `BitVec.toInt`. -/
abbrev I32 := BitVec 32

/-- A duration in seconds (R7, R10), a number one writes down. DESIGN CHOICE (log entry 5): a rational. -/
abbrev Seconds := Rat

/-- A reading of the wall clock: a real number of seconds (R10), named by plain data (log entry 5). -/
inductive Reading where
  /-- A rational reading, as a stub writes it (95_test_vectors.md §3). -/
  | exact (q : Seconds)
  /-- The free reading of a draw: any non-negative real number, `Config.freeClock.reading k`. -/
  | free (k : Nat)
deriving DecidableEq, Repr

/-- The real number a reading stands for, given the free readings. -/
def Reading.valueIn (readings : Nat → NNReal) : Reading → ℝ
  | .exact q => q
  | .free k => readings k

/-- The integer is in the int32 range [−2^31, 2^31−1] (R9). -/
abbrev InInt32 (v : Int) : Prop := -2147483648 ≤ v ∧ v ≤ 2147483647

end Sys2Proof
end

