-- ==== Sys2Proof/Config.lean ====
section
/-! DEFINITION. The parameters of 00_scope.md R7 and the free values: what the document leaves OPEN, and the oracles'
unscripted answers. A free value is an opaque constant, so no proof can depend on what it is. -/

namespace Sys2Proof

/-- The parameters of R7, fixed for the life of a session. `PORT` and `BAUD` are outside the model (R7, R275). -/
structure Config where
  /-- `STEP_SIZE`, device units per probe step (R204). -/
  stepSize : Int
  /-- `POLL_SETTLE`, the sleep of one poll (R204). -/
  pollSettle : Seconds
  /-- `CAL_OFFSET`, the forward offset of the Found action (R207). -/
  calOffset : Int
  /-- `STOP_SETTLE`, the sleep between stop and deenergize (R166). -/
  stopSettle : Seconds
  /-- `CAL_TIME_LIMIT`, the budget of the probing loop (R205). -/
  calTimeLimit : Seconds
  /-- `HOME_INIT`, HomeOffset after construction (R22). -/
  homeInit : I32
  /-- `MAX_SPEED`, an integer 0..2^31−1 (R109). -/
  maxSpeed : BitVec 31
  /-- The first of the two `TRIGGERED_PATTERNS`, its bytes in wire order (R108). -/
  pattern1 : Byte × Byte
  /-- The second of the two `TRIGGERED_PATTERNS` (R108). -/
  pattern2 : Byte × Byte
  /-- `AUTO_RECOVER` (R208). -/
  autoRecover : Bool
  /-- `GO_HOME_MAX_ATTEMPTS`: a positive integer, or `none` for ∞ (R213). -/
  goHomeMaxAttempts : Option Nat
  /-- `READ_TIMEOUT`: seen only as the oracle's liberty to answer short or err (R174, U7). -/
  readTimeout : Seconds
  /-- `WRITE_TIMEOUT`: seen only as the oracle's liberty to answer err (R174, U7). -/
  writeTimeout : Seconds
deriving DecidableEq, Repr

/-- Every parameter is in the legal range of R7's table (the integer ranges not named here are the types' own). -/
def Config.legal (c : Config) : Bool :=
  decide (0 ≤ c.pollSettle) && decide (0 ≤ c.stopSettle) && decide (0 ≤ c.calTimeLimit)
    && decide (c.pattern1 ≠ c.pattern2) && decide (c.goHomeMaxAttempts ≠ some 0)
    && decide (0 < c.readTimeout) && decide (0 < c.writeTimeout)

/-! ### OPEN parameters (R7): free values -/

/-- `ADDRESS`, given per session at construction (R7, R21). Free value, log entry 2. -/
opaque Config.openAddress : Option Addr
/-- `HOME_INIT` (R22, U1). Free value, log entry 2. -/
opaque Config.openHomeInit : I32
/-- `CAL_TIME_LIMIT` (U2). Free value, log entry 2. -/
opaque Config.openCalTimeLimit : Seconds
/-- `MAX_SPEED` (U3). Free value, log entry 2. -/
opaque Config.openMaxSpeed : BitVec 31
/-- The first triggered pattern (U4). Free value, log entry 2. -/
opaque Config.openPattern1 : Byte × Byte
/-- The second triggered pattern (U4). Free value, log entry 2. -/
opaque Config.openPattern2 : Byte × Byte
/-- `GO_HOME_MAX_ATTEMPTS` less one, or `none` for ∞ (U5). Free value, log entry 2. -/
opaque Config.openCapPred : Option Nat
/-- `READ_TIMEOUT` (U7). Free value, log entry 2. -/
opaque Config.openReadTimeout : Seconds
/-- `WRITE_TIMEOUT` (U7). Free value, log entry 2. -/
opaque Config.openWriteTimeout : Seconds

/-- A free duration brought into the range ≥ 0 that R7 gives it; every legal value is still possible. -/
def Config.asDuration (q : Seconds) : Seconds := if 0 ≤ q then q else 0

/-- A free timeout brought into the range > 0 that R7 gives it; every legal value is still possible. -/
def Config.asTimeout (q : Seconds) : Seconds := if 0 < q then q else 1

/-- The second pattern made distinct from the first, as R7 requires; every legal pair is still possible. -/
def Config.otherPattern (p q : Byte × Byte) : Byte × Byte := if q = p then (p.1 ^^^ 1, p.2) else q

/-- The parameters of the session that `State.reset` is right after the construction of: the document's defaults
where R7 gives one, a free value in R7's legal range where R7 says OPEN. -/
def Config.session : Config where
  stepSize := 3
  pollSettle := 3 / 20
  calOffset := 20
  stopSettle := 1
  calTimeLimit := Config.asDuration Config.openCalTimeLimit
  homeInit := Config.openHomeInit
  maxSpeed := Config.openMaxSpeed
  pattern1 := Config.openPattern1
  pattern2 := Config.otherPattern Config.openPattern1 Config.openPattern2
  autoRecover := false
  goHomeMaxAttempts := Config.openCapPred.map (· + 1)
  readTimeout := Config.asTimeout Config.openReadTimeout
  writeTimeout := Config.asTimeout Config.openWriteTimeout

/-! ### The oracles' unscripted answers (R6, R10): free values, one for each draw (log entry 4) -/

/-- Whether the transport accepts the write of this draw (R10). -/
opaque Config.freeTxOk : Nat → Bool
/-- How many bytes of a failed write reached the wire (R55, U12). -/
opaque Config.freeTxReached : Nat → Nat
/-- What a read answers: `none` is err, otherwise the bytes it returned (R10, U9). -/
opaque Config.freeRx : Nat → Option (List Byte)
/-- Whether the transport opens at construction (R270). -/
opaque Config.freeOpen : Nat → Bool

/-- A wall clock whose readings are any non-negative real numbers (R10), with the time test of R205 on them: a comparison
of reals, which a step must be able to take. The test is fixed by the readings (`within_iff`), so that a `FreeClock` is
a sequence of readings and nothing more (`exists_freeClock`). Its fields' defaults only show that there is one. -/
structure FreeClock where
  /-- The reading of each draw. -/
  reading : Nat → NNReal := fun _ => 0
  /-- Whether the first reading is at most the duration later than the second. -/
  within : Reading → Reading → Seconds → Bool := fun t t0 d =>
    match t, t0 with
    | .exact a, .exact b => decide (a - b ≤ d)
    | .exact a, .free _ => decide (a ≤ d)
    | .free _, .exact b => decide (-b ≤ d)
    | .free _, .free _ => decide (0 ≤ d)
  within_iff : ∀ t t0 d, within t t0 d = true ↔ t.valueIn reading - t0.valueIn reading ≤ d := by
    rintro (a | j) (b | k) d <;> simp [Reading.valueIn] <;> norm_cast
deriving Inhabited

/-- The readings of the wall clock (R10, R251, U14). Free value, log entry 5. -/
opaque Config.freeClock : FreeClock

/-- The real number of seconds a reading stands for (R10). -/
def Reading.value (t : Reading) : ℝ := t.valueIn Config.freeClock.reading

/-- The text of the status string returned at a point of the history (R11, U18, D35). Free value, log entry 20. -/
opaque Config.freeStatusText : Nat → String

end Sys2Proof
end

