-- ==== Sys2Proof/Syntax.lean ====
section
/-! DEFINITION. The instructions of the block: the seven wire commands (41_device_commands.md) and the thirteen host
operations (42_session.md, 43_homing.md, 70_reset_and_hazards.md R270), one constructor for each mnemonic of
spec/opcode_table.json. A wire command's two rows, compact and addressed, are the two encodings R70 gives ONE command:
the address is the session's (R73), no operand of the command (R131–R137), so it stands in `encode` and `decode`
(log entry 10). -/

namespace Sys2Proof

/-- One instruction, written as R84 writes it: a mnemonic with its operands. Integer operands are unbounded (R8); the
meaning checks their range where the rule says so. -/
inductive Instr where
  /-- EXIT_SAFE_START, opcode 0x83 (R131). -/
  | cmdExitSafeStart
  /-- ENERGIZE, opcode 0x85 (R132). -/
  | cmdEnergize
  /-- DEENERGIZE, opcode 0x86 (R133). -/
  | cmdDeenergize
  /-- STOP_MOTOR, opcode 0x92 (R134). -/
  | cmdStopMotor
  /-- SET_TARGET_POSITION v, opcode 0xE0 (R135). -/
  | cmdSetTargetPosition (v : Int)
  /-- SET_MAX_SPEED s, opcode 0xE6 (R136). -/
  | cmdSetMaxSpeed (speed : Int)
  /-- GET_VARIABLES off, len, opcode 0xA1 (R137). -/
  | cmdGetVariables (offset length : Byte)
  /-- exit_safe_start() (R164). -/
  | exitSafeStart
  /-- energize() (R165). -/
  | energize
  /-- stop_and_deenergize() (R166). -/
  | stopAndDeenergize
  /-- set_target_position(target) (R167). -/
  | setTargetPosition (target : Int)
  /-- set_max_speed(speed) (R168). -/
  | setMaxSpeed (speed : Int)
  /-- get_current_position() (R169). -/
  | getCurrentPosition
  /-- get_limit_switch_state() (R170). -/
  | getLimitSwitchState
  /-- update_home(newHome) (R171). -/
  | updateHome (newHome : Int)
  /-- displayed_position() (R172). -/
  | displayedPosition
  /-- energize_sequence() (R173). -/
  | energizeSequence
  /-- calibrate() (R200). -/
  | calibrate
  /-- go_home() (R213). -/
  | goHome
  /-- connect(ADDRESS, config), the construction of a session (R270). -/
  | connect (address : Option Int) (config : Config)
deriving DecidableEq, Repr

/-- The seven wire commands, the instructions that have an encoding (R80, R84). -/
def Instr.isWire : Instr → Bool
  | .cmdExitSafeStart | .cmdEnergize | .cmdDeenergize | .cmdStopMotor | .cmdSetTargetPosition _
  | .cmdSetMaxSpeed _ | .cmdGetVariables _ _ => true
  | .exitSafeStart | .energize | .stopAndDeenergize | .setTargetPosition _ | .setMaxSpeed _ | .getCurrentPosition
  | .getLimitSwitchState | .updateHome _ | .displayedPosition | .energizeSequence | .calibrate | .goHome
  | .connect _ _ => false

/-- The session verbs that do input and output and write no register of the session (R33): all of 42_session.md but
`update_home`. -/
def Instr.isIoVerb : Instr → Bool
  | .exitSafeStart | .energize | .stopAndDeenergize | .setTargetPosition _ | .setMaxSpeed _ | .getCurrentPosition
  | .getLimitSwitchState | .displayedPosition | .energizeSequence => true
  | .cmdExitSafeStart | .cmdEnergize | .cmdDeenergize | .cmdStopMotor | .cmdSetTargetPosition _
  | .cmdSetMaxSpeed _ | .cmdGetVariables _ _ | .updateHome _ | .calibrate | .goHome | .connect _ _ => false

/-- The two controller operations, whose errors put the phase back to Idle (R247). -/
def Instr.isController : Instr → Bool
  | .calibrate | .goHome => true
  | .cmdExitSafeStart | .cmdEnergize | .cmdDeenergize | .cmdStopMotor | .cmdSetTargetPosition _
  | .cmdSetMaxSpeed _ | .cmdGetVariables _ _ | .exitSafeStart | .energize | .stopAndDeenergize
  | .setTargetPosition _ | .setMaxSpeed _ | .getCurrentPosition | .getLimitSwitchState | .updateHome _
  | .displayedPosition | .energizeSequence | .connect _ _ => false

end Sys2Proof
end

