-- ==== Sys2Proof/WellFormed.lean ====
section
/-! DEFINITION. When an instruction's operands are ones the spec admits as a valid call or as a frame that parses. -/

namespace Sys2Proof

/-- The operand checks, one per operand: int32 where R84, R167 and R171 type it so; variable offset and length below
0x80 (R82, R110); an address in 0..127 (R21) and parameters in R7's ranges for `connect`. `set_max_speed` takes any
integer (R168). -/
def WellFormed : Instr → Bool
  | .cmdSetTargetPosition v => decide (InInt32 v)
  | .cmdSetMaxSpeed v => decide (InInt32 v)
  | .cmdGetVariables offset length => decide (offset.toNat < 0x80) && decide (length.toNat < 0x80)
  | .setTargetPosition v => decide (InInt32 v)
  | .updateHome v => decide (InInt32 v)
  | .connect address config =>
    (match address with
      | none => true
      | some a => decide (0 ≤ a ∧ a ≤ 127)) && config.legal
  | .cmdExitSafeStart | .cmdEnergize | .cmdDeenergize | .cmdStopMotor | .exitSafeStart | .energize
  | .stopAndDeenergize | .setMaxSpeed _ | .getCurrentPosition | .getLimitSwitchState | .displayedPosition
  | .energizeSequence | .calibrate | .goHome => true

end Sys2Proof
end

