-- ==== Sys2Proof/Decode.lean ====
section
/-! DEFINITION. The protocol codec (30_encoding.md, 40_codec.md): packing and unpacking, framing, response decoding, the
frame decoder, and the words of a wire command with their decoding. Every function is pure and total (R100). -/

namespace Sys2Proof

/-- The causes of an `EncodingError` (R241). -/
inductive EncodingCause where
  /-- An address outside 0..127 (R101, R270). -/
  | badAddress
  /-- An integer outside int32 (R104). -/
  | outOfRange
deriving DecidableEq, Repr

/-- Why `parse_frame` gives no frame (R110). -/
inductive FrameStop where
  /-- The bytes end before the frame does. -/
  | incomplete
  /-- An addressed header's address byte is 0x80 or more. -/
  | badAddress
  /-- An addressed header's opcode byte is 0x80 or more. -/
  | badOpcode
  /-- The first byte has bit 7 clear. -/
  | notFrameStart
  /-- The opcode is none of the table's seven. -/
  | unknownOpcode
  /-- A data byte is 0x80 or more. -/
  | badDataByte
deriving DecidableEq, Repr

/-- A parsed frame: address, full opcode byte, data bytes, and the bytes after it (R110). -/
structure Frame where
  address : Option Addr
  opcode : Byte
  data : List Byte
  rest : List Byte
deriving DecidableEq, Repr

/-- A decoded wire command: the framing it was written in, the command, and the bytes after it. -/
structure Decoded where
  address : Option Addr
  instr : Instr
  rest : List Byte
deriving DecidableEq, Repr

/-! ### 7-bit packing (R76, R77, R103, R105) -/

/-- `to_u32` (R9): the two's-complement pattern of an int32. -/
def toU32 (v : Int) : I32 := BitVec.ofInt 32 v

/-- `to_s32` (R9): the pattern less 2^32 when it is at least 2^31. -/
def toS32 (u : I32) : Int := if 2147483648 ≤ u.toNat then (u.toNat : Int) - 4294967296 else u.toNat

/-- The leading byte `L` (R77). -/
def leadingByte (u : I32) : Byte :=
  (((u >>> 7) &&& 0x01) ||| ((u >>> 14) &&& 0x02) ||| ((u >>> 21) &&& 0x04) ||| ((u >>> 28) &&& 0x08)).setWidth 8

/-- `B_i`, the low seven bits of byte i of the pattern (R76). -/
def lowSeven (u : I32) (i : Nat) : Byte := ((u >>> (8 * i)) &&& 0x7F).setWidth 8

/-- The five bytes of a packed int32, in wire order (R76). -/
def pack7 (u : I32) : List Byte := [leadingByte u, lowSeven u 0, lowSeven u 1, lowSeven u 2, lowSeven u 3]

/-- `encode_int32` (R103), with the range check of R104. -/
def encodeInt32 (v : Int) : Except EncodingCause (List Byte) :=
  if InInt32 v then .ok (pack7 (toU32 v)) else .error .outOfRange

/-- Byte i of the value a packed int32 carries (R105): seven bits of data byte 1+i and bit i of the leading byte. -/
def unpackedByte (p : List Byte) (i : Nat) : Byte :=
  (p.getD (1 + i) 0 &&& 0x7F) ||| (((p.getD 0 0 >>> i) &&& 1) <<< 7)

/-- The 32-bit pattern `unpack7` rebuilds (R105). -/
def unpackWord (p : List Byte) : I32 :=
  unpackedByte p 3 ++ unpackedByte p 2 ++ unpackedByte p 1 ++ unpackedByte p 0

/-- `unpack7` (R105), total on any bytes; the spec applies it to five. -/
def unpack7 (p : List Byte) : Int := toS32 (unpackWord p)

/-! ### Response decoding (R52, R106) -/

/-- Four little-endian bytes as a 32-bit pattern: the first byte received is bits 7..0 (R52). -/
def littleEndian (b : List Byte) : I32 := b.getD 3 0 ++ b.getD 2 0 ++ b.getD 1 0 ++ b.getD 0 0

/-- `decode_int32` (R106); the session applies it to exactly four bytes (R107). -/
def decodeInt32 (b : List Byte) : Int := toS32 (littleEndian b)

/-- `le4`, the device's response form of an int32 (R111). -/
def le4 (v : Int) : List Byte :=
  [(toU32 v).extractLsb' 0 8, (toU32 v).extractLsb' 8 8, (toU32 v).extractLsb' 16 8, (toU32 v).extractLsb' 24 8]

/-! ### Framing (R71, R72, R101, R102) -/

/-- `encode_command` (R101): no check of the data's count or bits (R74, D5, D6). -/
def encodeCommand (opcode : Byte) (data : List Byte) (address : Option Int) : Except EncodingCause (List Byte) :=
  match address with
  | none => .ok (opcode :: data)
  | some a =>
    if 0 ≤ a ∧ a ≤ 127 then .ok (0xAA :: BitVec.ofInt 8 a :: (opcode &&& 0x7F) :: data) else .error .badAddress

/-- `encode_var_read` (R102). -/
def encodeVarRead (offset length : Byte) (address : Option Int) : Except EncodingCause (List Byte) :=
  encodeCommand 0xA1 [offset, length] address

/-- A session's address as the integer argument `encode_command` takes. -/
def addressArg (a : Option Addr) : Option Int := a.map fun x => (x.toNat : Int)

/-! ### The frame decoder (R74, R110) -/

/-- The data-byte count of an opcode of the table; `none` for any other byte (R74, R80). -/
def arity (op : Byte) : Option Nat :=
  if op = 0x83 ∨ op = 0x85 ∨ op = 0x86 ∨ op = 0x92 then some 0
  else if op = 0xE0 ∨ op = 0xE6 then some 5
  else if op = 0xA1 then some 2
  else none

/-- Bit 7 of the byte is set. -/
def highBit (b : Byte) : Bool := decide (0x80 ≤ b.toNat)

/-- `parse_frame` after the header (R110). -/
def parseBody (address : Option Addr) (op : Byte) (bs : List Byte) : Except FrameStop Frame :=
  match arity op with
  | none => .error .unknownOpcode
  | some k =>
    if bs.length < k then .error .incomplete
    else if (bs.take k).any highBit then .error .badDataByte
    else .ok ⟨address, op, bs.take k, bs.drop k⟩

/-- `parse_frame` (R110). -/
def parseFrame : List Byte → Except FrameStop Frame
  | [] => .error .incomplete
  | b0 :: tl =>
    if b0 = 0xAA then
      match tl with
      | b1 :: b2 :: bs =>
        if highBit b1 then .error .badAddress
        else if highBit b2 then .error .badOpcode
        else parseBody (some (b1.setWidth 7)) (b2 ||| 0x80) bs
      | _ => .error .incomplete
    else if highBit b0 then parseBody none b0 tl
    else .error .notFrameStart

/-- The command an opcode and its data bytes stand for (R80, R135–R137). The operand of a 5-byte command is read by
`unpack7`, which ignores bits 7..4 of the leading byte (R105; log entry 18). -/
def commandOf (op : Byte) (data : List Byte) : Option Instr :=
  if op = 0x83 then some .cmdExitSafeStart
  else if op = 0x85 then some .cmdEnergize
  else if op = 0x86 then some .cmdDeenergize
  else if op = 0x92 then some .cmdStopMotor
  else if op = 0xE0 then some (.cmdSetTargetPosition (unpack7 data))
  else if op = 0xE6 then some (.cmdSetMaxSpeed (unpack7 data))
  else if op = 0xA1 then some (.cmdGetVariables (data.getD 0 0) (data.getD 1 0))
  else none

/-- The wire command at the front of a byte sequence, or the reason there is none. -/
def decode (bs : List Byte) : Except FrameStop Decoded :=
  match parseFrame bs with
  | .error e => .error e
  | .ok f =>
    match commandOf f.opcode f.data with
    | some i => .ok ⟨f.address, i, f.rest⟩
    | none => .error .unknownOpcode

/-! ### The words of a wire command (R80, R131–R137) -/

/-- Opcode and data bytes of a wire command; `none` for a host operation, which has no encoding (R84), and for a value
`encode_int32` refuses. -/
def wireForm : Instr → Option (Byte × List Byte)
  | .cmdExitSafeStart => some (0x83, [])
  | .cmdEnergize => some (0x85, [])
  | .cmdDeenergize => some (0x86, [])
  | .cmdStopMotor => some (0x92, [])
  | .cmdSetTargetPosition v => (encodeInt32 v).toOption.map fun p => (0xE0, p)
  | .cmdSetMaxSpeed v => (encodeInt32 v).toOption.map fun p => (0xE6, p)
  | .cmdGetVariables offset length => some (0xA1, [offset, length])
  | .exitSafeStart | .energize | .stopAndDeenergize | .setTargetPosition _ | .setMaxSpeed _ | .getCurrentPosition
  | .getLimitSwitchState | .updateHome _ | .displayedPosition | .energizeSequence | .calibrate | .goHome
  | .connect _ _ => none

/-- The frame of a wire command in the framing of address `a` (R70–R73). -/
def encode (a : Option Addr) (i : Instr) : Option (List Byte) :=
  (wireForm i).bind fun f => (encodeCommand f.1 f.2 (addressArg a)).toOption

/-! ### Words numbered as spec/opcode_table.json numbers them -/

/-- The bytes of a table word, byte 0 the most significant of the `nbits` bits as INDEX.md reads an addressed row
("byte 0 most significant"), then zeros up to the longest frame, eight bytes (R75; log entry 11). -/
def tableBytes (nbits w : Nat) : List Byte :=
  ((List.range ((nbits + 7) / 8)).map fun k => BitVec.ofNat 8 (w >>> (8 * ((nbits + 7) / 8 - 1 - k))))
    ++ List.replicate (8 - (nbits + 7) / 8) 0

/-- What the decoder reads from a table word: the instruction, and the framing it is written in. -/
def decodeTable (nbits w : Nat) : Option Decoded := (decode (tableBytes nbits w)).toOption

/-- The instruction the decoder reads from a table word. -/
def decodeTableWord (nbits w : Nat) : Option Instr := (decodeTable nbits w).map (·.instr)

end Sys2Proof
end

