-- ==== Sys2Proof/Machine/State.lean ====
section
/-! DEFINITION. The block's state as plain data (10_state.md R20–R34), the oracles' scripted answers, the host's pending
requests, the reasons a step can stop, and the state right after reset. -/

namespace Sys2Proof.Machine

/-- The controller phase (R24). -/
inductive Phase where
  | idle
  | probing
  | found
  | timedOut
  /-- The spec's name for "`go_home` in progress". -/
  | homing
deriving DecidableEq, Repr

/-- What a `ProtocolError` records (R243). -/
inductive ProtocolCause where
  /-- Fewer bytes came back than were asked for. -/
  | shortRead
deriving DecidableEq, Repr

/-- The three error kinds (R241–R243). -/
inductive Error where
  | encoding (cause : EncodingCause)
  | transport
  | protocol (cause : ProtocolCause)
deriving DecidableEq, Repr

/-- The outcomes of `go_home` (R213). -/
inductive HomeOutcome where
  | reached
  | homingFailed
deriving DecidableEq, Repr

/-- The values an operation returns (R11, R164–R173, R200, R213, R270). -/
inductive Value where
  /-- `ok(())`. -/
  | unit
  /-- A position, or a difference of positions: an exact integer (R169, R172). -/
  | position (p : Int)
  /-- A limit-switch reading (R170). -/
  | switch (triggered : Bool)
  /-- `calibrate` found the switch (R207). -/
  | found
  /-- `calibrate` timed out, with the outcome of the recovery where one ran (R208). -/
  | timedOut (recovery : Option HomeOutcome)
  /-- The outcome of `go_home` (R213). -/
  | home (outcome : HomeOutcome)
  /-- A constructed session (R270). -/
  | session
deriving DecidableEq, Repr

/-- The result of an operation (R11). -/
inductive Result where
  | ok (v : Value)
  | error (e : Error)
deriving DecidableEq, Repr

/-- How the transport answers a write, as the block sees it (R10). -/
inductive TxAnswer where
  | ok
  | err
deriving DecidableEq, Repr

/-- How the transport answers a read (R10). -/
inductive RxAnswer where
  | ok (bs : List Byte)
  | err
deriving DecidableEq, Repr

/-- The oracle's whole answer to a write: on `err` also how many of its bytes had reached the wire, which the block
cannot see (R55, D40, U12). -/
inductive TxScript where
  | ok
  | err (reached : Nat)
deriving DecidableEq, Repr

/-- An entry of the event history (R27). An operation stands for its name and its arguments. -/
inductive Event where
  | tx (bs : List Byte) (answer : TxAnswer)
  | rx (n : Nat) (answer : RxAnswer)
  | now (t : Reading)
  | sleep (d : Seconds)
  | call (op : Instr)
  | ret (op : Instr) (r : Result)
deriving DecidableEq, Repr

/-- The model's own: the answers the oracles still have in script (a "transport stub" and a clock, R6), each list
oldest first, and how many free answers have been drawn. A primitive takes the head of its list; beyond the script the
answer is the free value of its draw (log entry 4). -/
structure Oracle where
  tx : List TxScript
  rx : List RxAnswer
  clock : List Reading
  opening : List Bool
  drawn : Nat
deriving DecidableEq, Repr

/-- The model's own: what a controller operation in progress does next. `homing` carries `go_home`'s local `prev`
(R214) and whether the body runs inside `calibrate` (R208). Log entry 7. -/
inductive Running where
  | probing
  | homing (prev : Phase) (recovering : Bool)
deriving DecidableEq, Repr

/-- The model's own: what the host asks for next (log entry 8). -/
inductive Request where
  /-- Invoke an operation, or run a wire command. -/
  | call (i : Instr)
  /-- Run the wire commands written as frames in these bytes. -/
  | frames (bs : List Byte)
  /-- Close the session (R273). -/
  | teardown
  /-- `jog(relativeSteps)`, which R4 leaves out and has refused by name. -/
  | jog (relativeSteps : Int)
deriving DecidableEq, Repr

/-- The state: the record `S` of R20, the session's parameters, the outbound stream of R50, and the model's own
fields. -/
structure State where
  /-- `S.address` (R21). -/
  address : Option Addr
  /-- `S.open` (R23). -/
  isOpen : Bool
  /-- `S.busy` (R23). -/
  busy : Bool
  /-- `S.homeOffset` (R22). -/
  homeOffset : I32
  /-- `S.phase` (R24). -/
  phase : Phase
  /-- `S.t0` (R25). -/
  t0 : Reading
  /-- `S.trig` (R25, R28). -/
  trig : Bool
  /-- `S.pos` (R25). -/
  pos : I32
  /-- `S.attempts` (R26). -/
  attempts : Nat
  /-- `S.hist` (R27), oldest event first. -/
  hist : List Event
  /-- The session's parameters (R7), written by construction alone (log entry 1). -/
  cfg : Config
  /-- The outbound byte stream (R50): every byte put on the wire since construction (log entry 13). -/
  wire : List Byte
  /-- The model's own: the controller operation in progress between two steps. -/
  running : Option Running
  /-- The model's own: the oracles. -/
  oracle : Oracle
  /-- The model's own: the result last handed to the host; no rule reads it (log entry 14). -/
  result : Option Result
  /-- The model's own: what the host asks for next, first request first. -/
  requests : List Request
deriving DecidableEq, Repr

/-- Why the machine stops with a fault. -/
inductive Fault where
  /-- Raised by `serve` when the host asks for a wire frame that `parse_frame` rejects (R110). Safe: nothing runs. -/
  | badFrame (why : FrameStop)
deriving DecidableEq, Repr

/-- Why a request is refused: no step is taken and no event is recorded. -/
inductive Refusal where
  /-- Raised by `exec` for an instruction that has no meaning in the model. Safe. -/
  | notModelled (mnemonic : String)
  /-- Raised by every operation but `connect`, and by every wire command, on a closed session (R23, R160, U20). Safe. -/
  | sessionClosed
  /-- Raised by every instruction invoked while an operation is in progress (R23, R160, R281, U20). Safe. -/
  | sessionBusy
  /-- Raised by `update_home` for a value outside int32, a type error at the boundary (R171, U23). Safe. -/
  | notInt32
  /-- Raised by GET_VARIABLES for a pair that is neither (0x22, 4) nor (0x47, 2), whatever the session's state: the block
  sends no other, and what the device would do with one is not in the source (R51, R53, R137; log entry 19). Safe. -/
  | otherVariable
  /-- Raised by `serve` for `jog` (R4, U19). Safe. -/
  | jog
  /-- Raised by `serve` for a frame written in another framing or for another address than the session's, which no
  rule lets the block send (R73, U16; log entry 10). Safe. -/
  | foreignFraming
deriving DecidableEq, Repr

/-- The state a successful construction leaves (R34, R270). The working registers, which R25 and R26 leave unset, are
zero and false: DESIGN CHOICE, log entry 3. -/
def State.constructed (address : Option Addr) (cfg : Config) : State where
  address := address
  isOpen := true
  busy := false
  homeOffset := cfg.homeInit
  phase := .idle
  t0 := .exact 0
  trig := false
  pos := 0
  attempts := 0
  hist := []
  cfg := cfg
  wire := []
  running := none
  oracle := { tx := [], rx := [], clock := [], opening := [], drawn := 0 }
  result := none
  requests := []

/-- The machine right after reset: a session just constructed (R270) with the `ADDRESS` and the parameters of R7, OPEN
ones free, nothing sent, and no request of the host's pending. -/
def State.reset : State := State.constructed Config.openAddress Config.session

end Sys2Proof.Machine
end

