-- ==== Sys2Proof/Machine/Ops.lean ====
section
/-! DEFINITION. The primitives of 00_scope.md R10 (`Tx`, `Rx`, `Now`, `Sleep`, `raise`), the transactions of
42_session.md R161 and R163, the operation frame of R160, and error delivery (60_exceptions.md R240, R247). -/

namespace Sys2Proof.Machine

open Host (Outcome)

/-- How a body ends: with a value, or by `raise E`. The effects already performed stay in the state (R10). -/
inductive Res (α : Type) where
  | ok (v : α) (s : State)
  | raise (e : Error) (s : State)
deriving DecidableEq, Repr

/-- Sequencing: the second part runs only if the first did not raise (R240). -/
def Res.andThen {α β : Type} (r : Res α) (next : α → State → Res β) : Res β :=
  match r with
  | .ok v s => next v s
  | .raise e s => .raise e s

/-- How a turn of an operation's body ends: with the operation's value, or with more turns to take. -/
inductive Progress where
  | done (v : Value)
  | going
deriving DecidableEq, Repr

/-! ### History and oracle draws -/

/-- Append an event to `S.hist` (R27). -/
def State.log (s : State) (e : Event) : State := { s with hist := s.hist ++ [e] }

/-- One more free answer has been drawn. -/
def State.drew (s : State) : State := { s with oracle := { s.oracle with drawn := s.oracle.drawn + 1 } }

/-- The oracle's answer to the next write (R6). -/
def State.txDraw (s : State) : TxScript × State :=
  match s.oracle.tx with
  | a :: rest => (a, { s with oracle := { s.oracle with tx := rest } })
  | [] =>
    (if Config.freeTxOk s.oracle.drawn then .ok else .err (Config.freeTxReached s.oracle.drawn), s.drew)

/-- A read's answer cut to what R10 lets the oracle answer: at most n bytes. -/
def RxAnswer.upTo (n : Nat) : RxAnswer → RxAnswer
  | .ok bs => .ok (bs.take n)
  | .err => .err

/-- The oracle's answer to a read of at most n bytes (R6, R10). -/
def State.rxDraw (n : Nat) (s : State) : RxAnswer × State :=
  match s.oracle.rx with
  | a :: rest => (a.upTo n, { s with oracle := { s.oracle with rx := rest } })
  | [] =>
    ((match Config.freeRx s.oracle.drawn with
      | some bs => RxAnswer.ok bs
      | none => RxAnswer.err).upTo n, s.drew)

/-- A scripted reading brought to what R10 lets the clock answer: a non-negative number. -/
def asReading : Reading → Reading
  | .exact q => .exact (if 0 ≤ q then q else 0)
  | .free k => .free k

/-- `t − t0 ≤ limit` (R205), the comparison of real numbers: by calculation on rational readings, otherwise by the free
clock's own test. -/
def elapsedWithin (t t0 : Reading) (limit : Seconds) : Bool :=
  match t, t0 with
  | .exact a, .exact b => decide (a - b ≤ limit)
  | _, _ => Config.freeClock.within t t0 limit

/-- The clock's next reading (R251). -/
def State.clockDraw (s : State) : Reading × State :=
  match s.oracle.clock with
  | t :: rest => (asReading t, { s with oracle := { s.oracle with clock := rest } })
  | [] => (.free s.oracle.drawn, s.drew)

/-- Whether the transport opens (R270). -/
def State.openDraw (s : State) : Bool × State :=
  match s.oracle.opening with
  | b :: rest => (b, { s with oracle := { s.oracle with opening := rest } })
  | [] => (Config.freeOpen s.oracle.drawn, s.drew)

/-! ### Primitives (R10) -/

/-- `Tx(bs)`: on `ok` all of `bs` is on the wire, on `err` some prefix of it, and `TransportError` is raised (R55,
R161). -/
def tx (bs : List Byte) (s : State) : Res Unit :=
  match s.txDraw with
  | (.ok, s') => .ok () ({ s' with wire := s'.wire ++ bs }.log (.tx bs .ok))
  | (.err n, s') => .raise .transport ({ s' with wire := s'.wire ++ bs.take n }.log (.tx bs .err))

/-- `Rx(n)`: at most n bytes, or `TransportError` (R242). -/
def rx (n : Nat) (s : State) : Res (List Byte) :=
  match s.rxDraw n with
  | (.ok bs, s') => .ok bs (s'.log (.rx n (.ok bs)))
  | (.err, s') => .raise .transport (s'.log (.rx n .err))

/-- `Now()` (R10, R251). -/
def now (s : State) : Reading × State :=
  match s.clockDraw with
  | (t, s') => (t, s'.log (.now t))

/-- `Sleep(d)`: a timed wait, which ends when the duration has passed (R255). -/
def sleep (d : Seconds) (s : State) : State := s.log (.sleep d)

/-! ### Transactions -/

/-- `send(opcode, data)` (R161): the frame in the session's framing (R73), then one `Tx` of it and no `Rx` (R162). -/
def send (opcode : Byte) (data : List Byte) (s : State) : Res Unit :=
  match encodeCommand opcode data (addressArg s.address) with
  | .error c => .raise (.encoding c) s
  | .ok bs => tx bs s

/-- `send(opcode, encode_int32(v))`: an integer outside int32 raises before anything is written (R104, R167). -/
def sendInt32 (opcode : Byte) (v : Int) (s : State) : Res Unit :=
  match encodeInt32 v with
  | .error c => .raise (.encoding c) s
  | .ok p => send opcode p s

/-- `MemRead(offset, n)` (R163): the request frame, then `Rx(n)`; a short answer raises `ProtocolError(ShortRead)` and
is not decoded (R243). -/
def memRead (offset length : Byte) (s : State) : Res (List Byte) :=
  match encodeVarRead offset length (addressArg s.address) with
  | .error c => .raise (.encoding c) s
  | .ok request =>
    (tx request s).andThen fun _ s' =>
      (rx length.toNat s').andThen fun bs s'' =>
        if bs.length < length.toNat then .raise (.protocol .shortRead) s'' else .ok bs s''

/-! ### The operation frame and error delivery -/

/-- The head of the frame (R160): busy, and the call recorded. -/
def enter (op : Instr) (s : State) : State := { s with busy := true }.log (.call op)

/-- The end of the frame (R160): not busy, the result recorded and handed to the host. -/
def leave (op : Instr) (r : Result) (s : State) : State :=
  { s with busy := false, running := none, result := some r }.log (.ret op r)

/-- Error delivery, the block's trap mechanism (R240): the operation ends with `error(E)`; if it was `calibrate` or
`go_home` the phase goes to Idle (R247). Everything else of the state, and every frame already written, stays. -/
def abort (op : Instr) (e : Error) (s : State) : State :=
  leave op (.error e) (if op.isController then { s with phase := .idle } else s)

/-- The human-readable status string that goes to the host with the result of a return just recorded (R11): any text,
and no part of the result (U18, D35; log entry 20). -/
def statusText (s : State) : String := Config.freeStatusText s.hist.length

/-- What a turn of the body of `op` leaves: the operation goes on, returns, or is ended by an error. -/
def settle (op : Instr) (r : Res Progress) : State :=
  match r with
  | .ok .going s => s
  | .ok (.done v) s => leave op (.ok v) s
  | .raise e s => abort op e s

/-- `invoke op(args)` (R160): refused on a closed or busy session, with no event. -/
def invoke (op : Instr) (body : State → Res Progress) (s : State) : Outcome State Fault Refusal :=
  if s.isOpen = false then .refused .sessionClosed
  else if s.busy then .refused .sessionBusy
  else .next (settle op (body (enter op s)))

/-- `return ok(())`. -/
def returnUnit (_ : Unit) (s : State) : Res Progress := .ok (.done .unit) s

/-- What a wire command run by itself hands to the host: R130 changes no field of `S` but the history. -/
def report (r : Res Value) : State :=
  match r with
  | .ok v s => { s with result := some (.ok v) }
  | .raise e s => { s with result := some (.error e) }

/-- A wire command run by itself (R130; log entry 9): the transaction on an open, idle session, with no operation frame
round it. -/
def runCommand (body : State → Res Value) (s : State) : Outcome State Fault Refusal :=
  if s.isOpen = false then .refused .sessionClosed
  else if s.busy then .refused .sessionBusy
  else .next (report (body s))

/-- A write-only command hands back `ok(())`: it has no response (R162). -/
def noResponse (_ : Unit) (s : State) : Res Value := .ok .unit s

end Sys2Proof.Machine
end

