-- ==== Sys2Proof/Machine/Operands.lean ====
section
/-! DEFINITION. Operand forms of the operations: the two device variables (R51), the speed clamp (R109), the switch
patterns (R108), and an address argument (R270). -/

namespace Sys2Proof.Machine

/-- `VAR_POSITION`, offset and length of the current position (R7, R51). -/
def varPosition : Byte × Byte := (0x22, 4)

/-- `VAR_STATUS`, offset and length of the limit-switch-bearing status word (R7, R51). -/
def varStatus : Byte × Byte := (0x47, 2)

/-- `clamp_speed` (R109). -/
def clampSpeed (cfg : Config) (speed : Int) : Int :=
  if speed < 0 then 0 else if (cfg.maxSpeed.toNat : Int) < speed then cfg.maxSpeed.toNat else speed

/-- `decode_limit_switch` (R108): an exact match of both bytes with one of the two patterns. -/
def decodeLimitSwitch (cfg : Config) (b : List Byte) : Bool :=
  decide (b = [cfg.pattern1.1, cfg.pattern1.2]) || decide (b = [cfg.pattern2.1, cfg.pattern2.2])

/-- A construction argument as an address: outside 0..127 it is refused with `EncodingError(BadAddress)` (R21, R270). -/
def checkAddress : Option Int → Except EncodingCause (Option Addr)
  | none => .ok none
  | some a => if 0 ≤ a ∧ a ≤ 127 then .ok (some (BitVec.ofInt 7 a)) else .error .badAddress

end Sys2Proof.Machine
end

