-- ==== Sys2Proof/Machine/Flags.lean ====
section
/-! DEFINITION. The block's one flag, `S.trig` (R28), and the numbers of errors and outcomes (R245). -/

namespace Sys2Proof.Machine

/-- Set `S.trig` from a limit-switch reading; only `calibrate` does (R28). -/
def setTrig (b : Bool) (s : State) : State := { s with trig := b }

/-- The number of an error (R245). -/
def Error.code : Error → Nat
  | .encoding _ => 1
  | .transport => 2
  | .protocol _ => 3

/-- The number of a `go_home` outcome (R245). -/
def HomeOutcome.code : HomeOutcome → Nat
  | .reached => 19
  | .homingFailed => 17

/-- The number of a value: 0 but for the outcomes R245 numbers. A timeout is 16 whatever its recovery's outcome, which
has its own number (log entry 26). -/
def Value.code : Value → Nat
  | .found => 18
  | .timedOut _ => 16
  | .home o => o.code
  | .unit | .position _ | .switch _ | .session => 0

/-- The number of a result (R245). -/
def Result.code : Result → Nat
  | .ok v => v.code
  | .error e => e.code

end Sys2Proof.Machine
end

