-- ==== Sys2Proof/Machine/Session.lean ====
section
/-! DEFINITION. The Device Session verbs (42_session.md), each a body inside the operation frame of R160. -/

namespace Sys2Proof.Machine

open Host (Outcome)

/-! ### Bodies that a controller operation also calls -/

/-- The body of `exit_safe_start` (R164). -/
def exitSafeStartBody (s : State) : Res Unit := send 0x83 [] s

/-- The body of `energize` (R165). -/
def energizeBody (s : State) : Res Unit := send 0x85 [] s

/-- The body of `set_target_position` (R167). -/
def setTargetBody (target : Int) (s : State) : Res Unit := sendInt32 0xE0 target s

/-- The body of `get_current_position` (R169); the position is not stored (R29). -/
def readPosition (s : State) : Res Int :=
  (memRead varPosition.1 varPosition.2 s).andThen fun bs s' => .ok (decodeInt32 bs) s'

/-- The body of `get_limit_switch_state` (R170): a level, not an edge (R212). -/
def readSwitch (s : State) : Res Bool :=
  (memRead varStatus.1 varStatus.2 s).andThen fun bs s' => .ok (decodeLimitSwitch s.cfg bs) s'

/-- The body of `update_home` (R171). -/
def storeHome (newHome : Int) (s : State) : State := { s with homeOffset := toU32 newHome }

/-! ### Host operations -/

/-- exit_safe_start() (R164). -/
def execExitSafeStart (s : State) : Outcome State Fault Refusal :=
  invoke .exitSafeStart (fun s => (exitSafeStartBody s).andThen returnUnit) s

/-- energize() (R165): the order with exit_safe_start is the caller's (R277). -/
def execEnergize (s : State) : Outcome State Fault Refusal :=
  invoke .energize (fun s => (energizeBody s).andThen returnUnit) s

/-- stop_and_deenergize() (R166). -/
def execStopAndDeenergize (s : State) : Outcome State Fault Refusal :=
  invoke .stopAndDeenergize
    (fun s =>
      (send 0x92 [] s).andThen fun _ s => (send 0x86 [] (sleep s.cfg.stopSettle s)).andThen returnUnit) s

/-- set_target_position(target) (R167). -/
def execSetTargetPosition (target : Int) (s : State) : Outcome State Fault Refusal :=
  invoke (.setTargetPosition target) (fun s => (setTargetBody target s).andThen returnUnit) s

/-- set_max_speed(speed) (R168). -/
def execSetMaxSpeed (speed : Int) (s : State) : Outcome State Fault Refusal :=
  invoke (.setMaxSpeed speed) (fun s => (sendInt32 0xE6 (clampSpeed s.cfg speed) s).andThen returnUnit) s

/-- get_current_position() (R169). -/
def execGetCurrentPosition (s : State) : Outcome State Fault Refusal :=
  invoke .getCurrentPosition (fun s => (readPosition s).andThen fun p s => .ok (.done (.position p)) s) s

/-- get_limit_switch_state() (R170). -/
def execGetLimitSwitchState (s : State) : Outcome State Fault Refusal :=
  invoke .getLimitSwitchState (fun s => (readSwitch s).andThen fun b s => .ok (.done (.switch b)) s) s

/-- update_home(newHome) (R171): a value outside int32 is refused at the boundary, before the frame. -/
def execUpdateHome (newHome : Int) (s : State) : Outcome State Fault Refusal :=
  if InInt32 newHome then
    invoke (.updateHome newHome) (fun s => .ok (.done .unit) (storeHome newHome s)) s
  else .refused .notInt32

/-- displayed_position() (R172): the exact difference, with no wrap. -/
def execDisplayedPosition (s : State) : Outcome State Fault Refusal :=
  invoke .displayedPosition
    (fun s => (readPosition s).andThen fun p s => .ok (.done (.position (p - toS32 s.homeOffset))) s) s

/-- energize_sequence() (R173). -/
def execEnergizeSequence (s : State) : Outcome State Fault Refusal :=
  invoke .energizeSequence
    (fun s => (exitSafeStartBody s).andThen fun _ s => (energizeBody s).andThen returnUnit) s

end Sys2Proof.Machine
end

