-- ==== Sys2Proof/Machine/Commands.lean ====
section
/-! DEFINITION. The seven wire commands (41_device_commands.md), each run by itself (log entry 9). -/

namespace Sys2Proof.Machine

open Host (Outcome)

/-- EXIT_SAFE_START (R131). -/
def execCmdExitSafeStart (s : State) : Outcome State Fault Refusal :=
  runCommand (fun s => (send 0x83 [] s).andThen noResponse) s

/-- ENERGIZE (R132). -/
def execCmdEnergize (s : State) : Outcome State Fault Refusal :=
  runCommand (fun s => (send 0x85 [] s).andThen noResponse) s

/-- DEENERGIZE (R133). -/
def execCmdDeenergize (s : State) : Outcome State Fault Refusal :=
  runCommand (fun s => (send 0x86 [] s).andThen noResponse) s

/-- STOP_MOTOR (R134). -/
def execCmdStopMotor (s : State) : Outcome State Fault Refusal :=
  runCommand (fun s => (send 0x92 [] s).andThen noResponse) s

/-- SET_TARGET_POSITION v (R135): a value outside int32 writes nothing. -/
def execCmdSetTargetPosition (v : Int) (s : State) : Outcome State Fault Refusal :=
  runCommand (fun s => (sendInt32 0xE0 v s).andThen noResponse) s

/-- SET_MAX_SPEED s (R136): the value as given, since the session clamps before the command (R168). -/
def execCmdSetMaxSpeed (speed : Int) (s : State) : Outcome State Fault Refusal :=
  runCommand (fun s => (sendInt32 0xE6 speed s).andThen noResponse) s

/-- GET_VARIABLES off, len (R137): the position for (0x22, 4) (R138), the status word for (0x47, 2) (R139). The block
sends no other pair, and what the device would do with one is not in the source (R51, R53, R137): refused by name
(log entry 19). -/
def execCmdGetVariables (offset length : Byte) (s : State) : Outcome State Fault Refusal :=
  if (offset, length) = varPosition then
    runCommand (fun s => (readPosition s).andThen fun p s => .ok (.position p) s) s
  else if (offset, length) = varStatus then
    runCommand (fun s => (readSwitch s).andThen fun b s => .ok (.switch b) s) s
  else .refused .otherVariable

end Sys2Proof.Machine
end

