-- ==== Sys2Proof/Machine/Construction.lean ====
section
/-! DEFINITION. Construction (R270) and teardown (R273) of a session. -/

namespace Sys2Proof.Machine

open Host (Outcome)

/-- The session a successful construction leaves in place of whatever was there: R34's values, with the host's pending
requests and the oracles where they were. -/
def freshSession (address : Option Addr) (config : Config) (s : State) : State :=
  { State.constructed address config with
    oracle := s.oracle, requests := s.requests, result := some (.ok .session) }

/-- connect(ADDRESS, config) (R270): the address is checked before anything is opened, then the transport opens or
not; nothing is sent. Refused while an operation is in progress (R281). Log entry 12. -/
def execConnect (address : Option Int) (config : Config) (s : State) : Outcome State Fault Refusal :=
  if s.busy then .refused .sessionBusy
  else .next
    (match checkAddress address with
      | .error c => { s with result := some (.error (.encoding c)) }
      | .ok a =>
        match s.openDraw with
        | (true, s') => freshSession a config s'
        | (false, s') => { s' with result := some (.error .transport) })

/-- Teardown (R273): the transport is closed and no frame is sent. -/
def teardown (s : State) : State := { s with isOpen := false }

end Sys2Proof.Machine
end

