-- ==== Sys2Proof/Machine/Homing.lean ====
section
/-! DEFINITION. The Calibration Controller (43_homing.md): `calibrate` and `go_home`, each loop taken one turn a step
(log entry 7). -/

namespace Sys2Proof.Machine

open Host (Outcome)

/-! ### go_home (R213–R219) -/

/-- How `go_home`'s outcome is returned: by itself (R213), or as the recovery of a timed-out `calibrate` (R208). -/
def homeValue (recovering : Bool) (o : HomeOutcome) : Value :=
  if recovering then .timedOut (some o) else .home o

/-- The end of the `go_home` body: the phase held before it started comes back (R214, R219). -/
def endHoming (prev : Phase) (recovering : Bool) (o : HomeOutcome) (s : State) : Res Progress :=
  .ok (.done (homeValue recovering o)) { s with phase := prev }

/-- One turn of the loop of R214: the cap test, and if it lets the loop go on one attempt, which commands the stored
home and reads the position back. -/
def homeTurn (prev : Phase) (recovering : Bool) (s : State) : Res Progress :=
  if s.cfg.goHomeMaxAttempts = some s.attempts then endHoming prev recovering .homingFailed s
  else
    (setTargetBody (toS32 s.homeOffset) s).andThen fun _ s =>
      (readPosition s).andThen fun p s =>
        let s := { s with attempts := s.attempts + 1 }
        if p = toS32 s.homeOffset then endHoming prev recovering .reached s else .ok .going s

/-- The entry of the `go_home` body (R214), with the first turn of its loop. -/
def homeStart (recovering : Bool) (s : State) : Res Progress :=
  homeTurn s.phase recovering
    { s with phase := .homing, attempts := 0, running := some (.homing s.phase recovering) }

/-- go_home() (R213). -/
def execGoHome (s : State) : Outcome State Fault Refusal := invoke .goHome (homeStart false) s

/-! ### calibrate (R200–R212) -/

/-- The Found action (R207): a fresh position read, the command away from the switch, and only then the new home. -/
def foundAction (s : State) : Res Progress :=
  (readPosition { s with phase := .found }).andThen fun p s =>
    (setTargetBody (p + s.cfg.calOffset) s).andThen fun _ s =>
      .ok (.done .found) (storeHome (p + s.cfg.calOffset) s)

/-- The TimedOut action (R208): HomeOffset is not written; with `AUTO_RECOVER` the `go_home` body follows. -/
def timedOutAction (s : State) : Res Progress :=
  if s.cfg.autoRecover then homeStart true { s with phase := .timedOut }
  else .ok (.done (.timedOut none)) { s with phase := .timedOut }

/-- One poll (R204): the target is computed from the position just read. -/
def poll (s : State) : Res Progress :=
  (readPosition s).andThen fun p s =>
    (setTargetBody (p - s.cfg.stepSize) { s with pos := toU32 p }).andThen fun _ s =>
      (readSwitch (sleep s.cfg.pollSettle s)).andThen fun b s => .ok .going (setTrig b s)

/-- One turn of the probing loop: the clock is read, the inclusive time test comes before the switch (R205), and when
the loop ends the last reading decides, not the clock (R206). -/
def probeTurn (s : State) : Res Progress :=
  match now s with
  | (t, s) =>
    if elapsedWithin t s.t0 s.cfg.calTimeLimit = true ∧ s.trig = false then poll s
    else if s.trig then foundAction s
    else timedOutAction s

/-- The entry of `calibrate` (R202): the time base first, then exit_safe_start and the first reading; an immediate
trigger goes straight to Found (R203), otherwise the probing loop is next. -/
def calibrateStart (s : State) : Res Progress :=
  match now s with
  | (t, s) =>
    (exitSafeStartBody { s with t0 := t, phase := .probing }).andThen fun _ s =>
      (readSwitch s).andThen fun b s =>
        let s := setTrig b s
        if s.trig then foundAction s else .ok .going { s with running := some .probing }

/-- calibrate() (R200). -/
def execCalibrate (s : State) : Outcome State Fault Refusal := invoke .calibrate calibrateStart s

/-! ### The next turn of an operation in progress -/

/-- One turn of the operation in progress, ending it if the turn returns or raises. -/
def resume (r : Running) (s : State) : State :=
  match r with
  | .probing => settle .calibrate (probeTurn s)
  | .homing prev recovering =>
    settle (if recovering then .calibrate else .goHome) (homeTurn prev recovering s)

end Sys2Proof.Machine
end

