-- ==== Sys2Proof/Machine/Dispatch.lean ====
section
/-! DEFINITION. One arm per instruction: the one place where an instruction gets its meaning. -/

namespace Sys2Proof.Machine

def exec (i : Instr) (s : State) : Host.Outcome State Fault Refusal :=
  match i with
  | .cmdExitSafeStart => Sys2Proof.Machine.execCmdExitSafeStart s
  | .cmdEnergize => Sys2Proof.Machine.execCmdEnergize s
  | .cmdDeenergize => Sys2Proof.Machine.execCmdDeenergize s
  | .cmdStopMotor => Sys2Proof.Machine.execCmdStopMotor s
  | .cmdSetTargetPosition v => Sys2Proof.Machine.execCmdSetTargetPosition v s
  | .cmdSetMaxSpeed speed => Sys2Proof.Machine.execCmdSetMaxSpeed speed s
  | .cmdGetVariables offset length => Sys2Proof.Machine.execCmdGetVariables offset length s
  | .exitSafeStart => Sys2Proof.Machine.execExitSafeStart s
  | .energize => Sys2Proof.Machine.execEnergize s
  | .stopAndDeenergize => Sys2Proof.Machine.execStopAndDeenergize s
  | .setTargetPosition target => Sys2Proof.Machine.execSetTargetPosition target s
  | .setMaxSpeed speed => Sys2Proof.Machine.execSetMaxSpeed speed s
  | .getCurrentPosition => Sys2Proof.Machine.execGetCurrentPosition s
  | .getLimitSwitchState => Sys2Proof.Machine.execGetLimitSwitchState s
  | .updateHome newHome => Sys2Proof.Machine.execUpdateHome newHome s
  | .displayedPosition => Sys2Proof.Machine.execDisplayedPosition s
  | .energizeSequence => Sys2Proof.Machine.execEnergizeSequence s
  | .calibrate => Sys2Proof.Machine.execCalibrate s
  | .goHome => Sys2Proof.Machine.execGoHome s
  | .connect address config => Sys2Proof.Machine.execConnect address config s

end Sys2Proof.Machine
end

