-- ==== Sys2Proof/Machine/Requests.lean ====
section
/-! DEFINITION. The host's pending requests: taking the next one, decoding one written as frames, and serving it
(log entries 8 and 10). -/

namespace Sys2Proof.Machine

open Host (Outcome)

/-- The requests left once a frame has been taken from the front of a byte sequence. -/
def framesLeft (rest : List Byte) (later : List Request) : List Request :=
  if rest = [] then later else .frames rest :: later

/-- Serve a request, the later ones staying pending: an invocation runs the instruction; frames run the first wire
command they hold, which must be in the session's own framing (R73); teardown closes; `jog` is refused (R4). -/
def serve (q : Request) (later : List Request) (s : State) : Outcome State Fault Refusal :=
  match q with
  | .call i => exec i { s with requests := later }
  | .frames bs =>
    match decode bs with
    | .error why => .fault (.badFrame why)
    | .ok d =>
      if d.address = s.address then exec d.instr { s with requests := framesLeft d.rest later }
      else .refused .foreignFraming
  | .teardown => .next (teardown { s with requests := later })
  | .jog _ => .refused .jog

/-- One step: the next turn of the operation in progress; otherwise the host's next request; otherwise the block waits
for one (R270). -/
def stepOnce (s : State) : Outcome State Fault Refusal :=
  match s.running with
  | some r => .next (resume r s)
  | none =>
    match s.requests with
    | [] => .next s
    | q :: later => serve q later s

/-- A state whose very next step fetches the frame of a table word: an open, idle session with the framing the frame is
written in, asked for these bytes first. -/
def placeTableWord (nbits w : Nat) (s : State) : State :=
  { s with
    isOpen := true
    busy := false
    running := none
    address := match decodeTable nbits w with
      | some d => d.address
      | none => s.address
    requests := .frames (tableBytes nbits w) :: s.requests }

end Sys2Proof.Machine
end

