-- ==== Sys2Proof/Machine/Step.lean ====
section
/-! DEFINITION. The step of the machine, and where a table word is placed for it. -/

namespace Sys2Proof.Machine

/-- One step of the block: `stepOnce`. -/
def step (s : State) : Host.Outcome State Fault Refusal := stepOnce s

/-- The state with the instruction of a table word as the host's next request: `placeTableWord`. -/
def State.withFetchWord (s : State) (nbits w : Nat) : State := placeTableWord nbits w s

end Sys2Proof.Machine
end

