-- ==== Sys2Proof/Safety.lean ====
section
/-! DEFINITION. What claims about the block are stated in: frames and the bytes a history may have put on the wire, what
input and output alone may change, the invariants of a run, the clock duty, and the scripts and failures of a homing run. -/

namespace Sys2Proof.Machine

/-! ### Frames and the wire -/

/-- The frame of an opcode and its data in a session's framing (R71–R73). -/
def frameOf (a : Option Addr) (op : Byte) (data : List Byte) : List Byte :=
  match a with
  | none => op :: data
  | some x => 0xAA :: x.setWidth 8 :: (op &&& 0x7F) :: data

/-- The request frame of the position (R138) and of the status word (R139). -/
def positionRequest (a : Option Addr) : List Byte := frameOf a 0xA1 [0x22, 4]
def statusRequest (a : Option Addr) : List Byte := frameOf a 0xA1 [0x47, 2]

/-- The high-bit discipline of R82: a compact frame has bit 7 set in byte 0 and clear in every later byte; an addressed
frame starts with 0xAA and the session's address, and every byte after the marker has bit 7 clear. -/
def Disciplined (a : Option Addr) (bs : List Byte) : Prop :=
  match a with
  | none => ∃ b tl, bs = b :: tl ∧ highBit b = true ∧ ∀ x ∈ tl, highBit x = false
  | some x => ∃ tl, bs = 0xAA :: x.setWidth 8 :: tl ∧ tl ≠ [] ∧ ∀ y ∈ x.setWidth 8 :: tl, highBit y = false

/-- The bytes that a history may have put on the wire (R27): all of a frame whose write was answered ok, and any prefix
of a frame whose write was answered err, in order. -/
def MayBeOnWire : List Event → List Byte → Prop
  | [], w => w = []
  | .tx bs .ok :: es, w => ∃ w', w = bs ++ w' ∧ MayBeOnWire es w'
  | .tx bs .err :: es, w => ∃ n w', w = bs.take n ++ w' ∧ MayBeOnWire es w'
  | .rx _ _ :: es, w => MayBeOnWire es w
  | .now _ :: es, w => MayBeOnWire es w
  | .sleep _ :: es, w => MayBeOnWire es w
  | .call _ :: es, w => MayBeOnWire es w
  | .ret _ _ :: es, w => MayBeOnWire es w

/-- Every frame written in a history satisfies P. -/
def EveryTx (P : List Byte → Prop) (es : List Event) : Prop := ∀ bs ans, Event.tx bs ans ∈ es → P bs

/-- The events of the primitives (R27), with every frame written satisfying P: no call or return of an operation among
them. -/
def IoEvents (P : List Byte → Prop) (es : List Event) : Prop :=
  EveryTx P es ∧ ∀ op r, Event.call op ∉ es ∧ Event.ret op r ∉ es

/-- What input and output alone may change between two states: the history and the wire grow, by events and bytes that
fit each other, with every frame written satisfying P; the oracles move on; nothing else changes. -/
structure IoOnly (P : List Byte → Prop) (s t : State) : Prop where
  rest : t = { s with hist := t.hist, wire := t.wire, oracle := t.oracle }
  grows : ∃ es w, t.hist = s.hist ++ es ∧ t.wire = s.wire ++ w ∧ MayBeOnWire es w ∧ IoEvents P es

/-! ### Invariants of a run -/

/-- The phases between two operations (R24). -/
def Phase.atRest : Phase → Bool
  | .idle | .found | .timedOut => true
  | .probing | .homing => false

/-- The controller's bookkeeping (R23, R24): busy exactly while an operation is in progress; the phase is Probing or
Homing exactly while that loop runs, and a phase at rest otherwise; the phase `go_home` will restore is one at rest,
and is TimedOut when `calibrate` called it (R208); an operation in progress has its session open (R273). -/
def ControlInv (s : State) : Prop :=
  match s.running with
  | none => s.busy = false ∧ s.phase.atRest = true
  | some .probing => s.busy = true ∧ s.phase = .probing ∧ s.isOpen = true
  | some (.homing prev recovering) =>
    s.busy = true ∧ s.phase = .homing ∧ s.isOpen = true ∧ prev.atRest = true
      ∧ (recovering = true → prev = .timedOut)

/-- A pending request that asks for nothing ill-formed. -/
def Request.WellFormed : Request → Prop
  | .call i => Sys2Proof.WellFormed i = true
  | .frames _ | .teardown | .jog _ => True

/-- Every frame of the session's history is in the session's framing and keeps the high-bit discipline (R73, R82), and
nothing ill-formed is pending. -/
def FramingInv (s : State) : Prop :=
  EveryTx (Disciplined s.address) s.hist ∧ ∀ q ∈ s.requests, q.WellFormed

/-- The wire holds what the history may have put there (R27). -/
def WireInv (s : State) : Prop := MayBeOnWire s.hist s.wire

/-- What the block writes and reads (R51, R53, R55, R75), over events of a session at address `a`: every write is of a
whole frame's length; every GET_VARIABLES frame asks for the position whole or for the status word whole; every read is of
that variable's length, and comes right after its request has been written. -/
structure Accesses (a : Option Addr) (es : List Event) : Prop where
  frames : EveryTx (fun bs => bs.length ∈ [1, 3, 5, 6, 8]) es
  requests : ∀ data answer, .tx (frameOf a 0xA1 data) answer ∈ es → data = [0x22, 4] ∨ data = [0x47, 2]
  reads : ∀ before n answer after, es = before ++ .rx n answer :: after →
    ∃ earlier, before = earlier ++ [.tx (positionRequest a) .ok] ∧ n = 4
      ∨ before = earlier ++ [.tx (statusRequest a) .ok] ∧ n = 2

/-- The session's whole history keeps to the accesses of R51, R53 and R55. -/
def AccessInv (s : State) : Prop := Accesses s.address s.hist

/-! ### The clock (R284) -/

/-- The host's first two duties on the clock, over the events of a session or a stretch of them: of two readings the
later one is not the lower, and if a `Sleep(d)` lies between them it is at least d the higher. -/
def ClockDuty (es : List Event) : Prop :=
  ∀ before t between u after, es = before ++ .now t :: between ++ .now u :: after →
    t.value ≤ u.value ∧ ∀ d : Seconds, .sleep d ∈ between → t.value + (d : ℝ) ≤ u.value

/-- A run that goes on without end: each state is the step of the one before it. -/
def EndlessRun (run : Nat → State) : Prop := ∀ n, step (run n) = .next (run (n + 1))

/-- Among the events that the step from s to t records is the clock reading r. -/
def ReadsClock (s t : State) (r : Reading) : Prop := ∃ es, t.hist = s.hist ++ es ∧ .now r ∈ es

/-- The host's third duty on the clock, over an endless run: it exceeds every bound eventually, so if the block never
stops reading it, some reading is above any bound. -/
def ClockExceedsEveryBound (run : Nat → State) : Prop :=
  (∀ n, ∃ m r, n ≤ m ∧ ReadsClock (run m) (run (m + 1)) r) →
    ∀ bound : ℝ, ∃ m r, ReadsClock (run m) (run (m + 1)) r ∧ bound < r.value

/-- The host's whole duty on the clock (R284), over an endless run. -/
structure KeepsClockDuty (run : Nat → State) : Prop where
  duty : ∀ n, ClockDuty (run n).hist
  exceeds : ClockExceedsEveryBound run

/-! ### Next states and homing scripts, written out from the rules -/

/-- The state an operation of the frame of R160 ends in that wrote `bytes` and recorded `evs` between its call and its
return with `r`, the oracles being left at `o`: everything else is as before. -/
def returned (op : Instr) (evs : List Event) (bytes : List Byte) (r : Result) (o : Oracle) (s : State) : State :=
  { s with
    busy := false, running := none, result := some r, oracle := o, wire := s.wire ++ bytes,
    hist := s.hist ++ (.call op :: evs) ++ [.ret op r] }

/-- The state a controller operation ends in, in the given phase, having recorded `evs` and written `bytes` in the step
that ends it: everything else is as before. -/
def ended (op : Instr) (phase : Phase) (evs : List Event) (bytes : List Byte) (r : Result) (o : Oracle) (s : State) :
    State :=
  { s with
    busy := false, running := none, phase := phase, result := some r, oracle := o, wire := s.wire ++ bytes,
    hist := s.hist ++ evs ++ [.ret op r] }

/-- The state a wire command run by itself ends in (R130). -/
def commandDone (evs : List Event) (bytes : List Byte) (r : Result) (o : Oracle) (s : State) : State :=
  { s with result := some r, oracle := o, wire := s.wire ++ bytes, hist := s.hist ++ evs }

/-- The frame of SET_TARGET_POSITION v (R135). -/
def targetFrame (a : Option Addr) (v : Int) : List Byte := frameOf a 0xE0 (pack7 (toU32 v))

/-- The events of a position read answered with `p`, and of a switch read answered with the word `w`, no write failing. -/
def positionEvents (a : Option Addr) (p : Int) : List Event :=
  [.tx (positionRequest a) .ok, .rx 4 (.ok (le4 p))]
def switchEvents (a : Option Addr) (w : Byte × Byte) : List Event :=
  [.tx (statusRequest a) .ok, .rx 2 (.ok [w.1, w.2])]

/-- The ways a variable read fails (R163): the request is not accepted, some bytes of it reaching the wire; the read
is not answered; the answer is too short. -/
inductive ReadFailure where
  | request (reached : Nat)
  | noAnswer
  | short (bs : List Byte)
deriving DecidableEq, Repr

/-- A short answer is shorter than the length asked for. -/
def ReadFailure.Fits (len : Nat) : ReadFailure → Prop
  | .request _ | .noAnswer => True
  | .short bs => bs.length < len

/-- What the transport answers to the request's write, and to the read where one follows. -/
def ReadFailure.tx : ReadFailure → List TxScript
  | .request n => [.err n]
  | .noAnswer | .short _ => [.ok]
def ReadFailure.rx : ReadFailure → List RxAnswer
  | .request _ => []
  | .noAnswer => [.err]
  | .short bs => [.ok bs]

/-- The events of a read of `len` bytes that fails, and the bytes its request puts on the wire. -/
def ReadFailure.events (request : List Byte) (len : Nat) : ReadFailure → List Event
  | .request _ => [.tx request .err]
  | .noAnswer => [.tx request .ok, .rx len .err]
  | .short bs => [.tx request .ok, .rx len (.ok bs)]
def ReadFailure.bytes (request : List Byte) : ReadFailure → List Byte
  | .request n => request.take n
  | .noAnswer | .short _ => request

/-- The error it raises (R242, R243). -/
def ReadFailure.error : ReadFailure → Error
  | .request _ | .noAnswer => .transport
  | .short _ => .protocol .shortRead

/-- The events of one attempt of `go_home` that reads `p` back (R214). -/
def attemptEvents (a : Option Addr) (home p : Int) : List Event :=
  .tx (targetFrame a home) .ok :: positionEvents a p

/-- The ways an attempt of `go_home` fails (R216): the command is not accepted, some bytes of it reaching the wire; or
the read-back fails. -/
inductive AttemptFailure where
  | command (reached : Nat)
  | readBack (f : ReadFailure)
deriving DecidableEq, Repr

/-- A short read-back is shorter than four bytes. -/
def AttemptFailure.Fits : AttemptFailure → Prop
  | .command _ => True
  | .readBack f => f.Fits 4

/-- What the transport answers to the attempt. -/
def AttemptFailure.tx : AttemptFailure → List TxScript
  | .command n => [.err n]
  | .readBack f => .ok :: f.tx
def AttemptFailure.rx : AttemptFailure → List RxAnswer
  | .command _ => []
  | .readBack f => f.rx

/-- The events of the attempt, the bytes it puts on the wire, and the error it raises. -/
def AttemptFailure.events (a : Option Addr) (home : Int) : AttemptFailure → List Event
  | .command _ => [.tx (targetFrame a home) .err]
  | .readBack f => .tx (targetFrame a home) .ok :: f.events (positionRequest a) 4
def AttemptFailure.bytes (a : Option Addr) (home : Int) : AttemptFailure → List Byte
  | .command n => (targetFrame a home).take n
  | .readBack f => targetFrame a home ++ f.bytes (positionRequest a)
def AttemptFailure.error : AttemptFailure → Error
  | .command _ => .transport
  | .readBack f => f.error

/-- What the oracles answer to one poll: the clock at its loop test, the position read, the status word read. -/
structure PollAnswers where
  time : Reading
  position : Int
  word : Byte × Byte
deriving DecidableEq, Repr

/-- The events of one turn of the probing loop that polls (R204, R205). -/
def pollEvents (a : Option Addr) (cfg : Config) (q : PollAnswers) : List Event :=
  .now q.time :: positionEvents a q.position
    ++ [.tx (targetFrame a (q.position - cfg.stepSize)) .ok, .sleep cfg.pollSettle] ++ switchEvents a q.word

/-- The events of `calibrate`'s entry (R202). -/
def entryEvents (a : Option Addr) (t0 : Reading) (w : Byte × Byte) : List Event :=
  [.now t0, .tx (frameOf a 0x83 []) .ok] ++ switchEvents a w

/-- The events of the Found action (R207). -/
def foundEvents (a : Option Addr) (cfg : Config) (p : Int) : List Event :=
  positionEvents a p ++ [.tx (targetFrame a (p + cfg.calOffset)) .ok]

/-- The status word is one of the two triggered patterns (R108). -/
def Triggered (cfg : Config) (w : Byte × Byte) : Prop := w = cfg.pattern1 ∨ w = cfg.pattern2

/-- A poll that the loop takes and that its rules let run: within the budget (R205), its position an int32 the device
can answer, its target encodable (R104), its reading not triggered. -/
structure QuietPoll (cfg : Config) (t0 : Reading) (q : PollAnswers) : Prop where
  reading : 0 ≤ q.time.value
  inBudget : q.time.value - t0.value ≤ cfg.calTimeLimit
  position : InInt32 q.position
  target : InInt32 (q.position - cfg.stepSize)
  word : ¬ Triggered cfg q.word

/-- The bytes a history with no failed write put on the wire: its frames, in order (R27). -/
def sentBytes : List Event → List Byte
  | [] => []
  | .tx bs _ :: es => bs ++ sentBytes es
  | .rx _ _ :: es => sentBytes es
  | .now _ :: es => sentBytes es
  | .sleep _ :: es => sentBytes es
  | .call _ :: es => sentBytes es
  | .ret _ _ :: es => sentBytes es

/-- `n` steps of the machine, ending at the first fault or refusal. -/
def runSteps : Nat → State → Host.Outcome State Fault Refusal
  | 0, s => .next s
  | n + 1, s =>
    match step s with
    | .next t => runSteps n t
    | .fault f => .fault f
    | .refused r => .refused r

/-- A session ready for an operation (R160, R201, R219). -/
def Ready (s : State) : Prop := s.isOpen = true ∧ s.busy = false

end Sys2Proof.Machine
end

