-- ==== Sys2Proof/Certificates/Slice0/Obligations.lean ====
section
/-! DEFINITION. The statements for the provers, each formalising the rules of spec/ its docstring names. -/

open Sys2Proof Sys2Proof.Machine

/-! ### The codec -/

/-- R70–R74, R83, R110: every well-formed wire command has a frame in every framing, and that frame, whatever follows it,
decodes to the command, its framing, and what follows. -/
def Obligations.EncodedCommandDecodesBack : Prop :=
  ∀ (a : Option Addr) (i : Instr) (rest : List Byte), i.isWire = true → Sys2Proof.WellFormed i = true →
    ∃ bs, encode a i = some bs ∧ decode (bs ++ rest) = .ok ⟨a, i, rest⟩

/-- R111: its four laws, and that the round trip of the document's §8 fails for every value with one of bits 7, 15, 23,
31 set. -/
def Obligations.RoundTripLaws : Prop :=
  (∀ v, InInt32 v → ∃ p, encodeInt32 v = .ok p ∧ unpack7 p = v
      ∧ ∀ i < 4, (le4 v).getD i 0 = (p.getD (1 + i) 0 ||| (((p.getD 0 0 >>> i) &&& 1) <<< 7)))
  ∧ (∀ v, InInt32 v → decodeInt32 (le4 v) = v)
  ∧ (∀ op k data a, arity op = some k → data.length = k → (∀ b ∈ data, highBit b = false) →
      ∃ bs, encodeCommand op data (addressArg a) = .ok bs ∧ parseFrame bs = .ok ⟨a, op, data, []⟩)
  ∧ (∀ v p, InInt32 v → encodeInt32 v = .ok p →
      ((toU32 v).getLsbD 7 || (toU32 v).getLsbD 15 || (toU32 v).getLsbD 23 || (toU32 v).getLsbD 31) = true →
      decodeInt32 ((p.drop 1).take 4) ≠ v)
  ∧ (∀ p, encodeInt32 (-1) = .ok p → decodeInt32 ((p.drop 1).take 4) = 2139062143)

/-- R101, R110: a byte sequence that parses is the encoding of its frame followed by the rest, with the table's data
count and every data byte below 0x80. -/
def Obligations.ParsedFrameIsAnEncodedCommand : Prop :=
  ∀ (bs : List Byte) (f : Frame), parseFrame bs = .ok f →
    ∃ front, encodeCommand f.opcode f.data (addressArg f.address) = .ok front ∧ bs = front ++ f.rest
      ∧ arity f.opcode = some f.data.length ∧ ∀ b ∈ f.data, highBit b = false

/-- R101: both framings of `encode_command`, for data of any length, and its one error. -/
def Obligations.EncodeCommandFramings : Prop :=
  (∀ op data, encodeCommand op data none = .ok (op :: data))
  ∧ (∀ op data (a : Int), 0 ≤ a → a ≤ 127 →
      encodeCommand op data (some a) = .ok (0xAA :: BitVec.ofInt 8 a :: (op &&& 0x7F) :: data))
  ∧ (∀ op data (a : Int), a < 0 ∨ 127 < a → encodeCommand op data (some a) = .error .badAddress)
  ∧ encodeCommand 0x83 [] (some 5) = encodeCommand 0x03 [] (some 5)

/-- R76, R77: the layout of a packed int32, bit by bit, and the ranges of its bytes. -/
def Obligations.PackedInt32Layout : Prop :=
  ∀ v, InInt32 v → ∃ l b0 b1 b2 b3 : Byte, encodeInt32 v = .ok [l, b0, b1, b2, b3]
    ∧ (∀ j < 4, l.getLsbD j = (toU32 v).getLsbD (8 * j + 7)) ∧ l.toNat ≤ 0x0F
    ∧ (∀ j < 7, b0.getLsbD j = (toU32 v).getLsbD j ∧ b1.getLsbD j = (toU32 v).getLsbD (8 + j)
        ∧ b2.getLsbD j = (toU32 v).getLsbD (16 + j) ∧ b3.getLsbD j = (toU32 v).getLsbD (24 + j))
    ∧ b0.toNat ≤ 0x7F ∧ b1.toNat ≤ 0x7F ∧ b2.toNat ≤ 0x7F ∧ b3.toNat ≤ 0x7F

/-- R106: `decode_int32` in integers, the first byte received the least significant. -/
def Obligations.DecodeInt32IsLittleEndianTwosComplement : Prop :=
  ∀ b0 b1 b2 b3 : Byte,
    (b0.toNat + 256 * b1.toNat + 65536 * b2.toNat + 16777216 * b3.toNat < 2147483648 →
      decodeInt32 [b0, b1, b2, b3]
        = (b0.toNat + 256 * b1.toNat + 65536 * b2.toNat + 16777216 * b3.toNat : Int))
    ∧ (2147483648 ≤ b0.toNat + 256 * b1.toNat + 65536 * b2.toNat + 16777216 * b3.toNat →
      decodeInt32 [b0, b1, b2, b3]
        = (b0.toNat + 256 * b1.toNat + 65536 * b2.toNat + 16777216 * b3.toNat : Int) - 4294967296)

/-- R108: a status word is triggered exactly when it is one of the two patterns, byte for byte in wire order. -/
def Obligations.LimitSwitchMatchesPatterns : Prop :=
  ∀ (cfg : Config) (w : Byte × Byte), decodeLimitSwitch cfg [w.1, w.2] = true ↔ Triggered cfg w

/-- R109: the clamp, and that what it gives can always be packed. -/
def Obligations.ClampSpeedRange : Prop :=
  ∀ (cfg : Config) (v : Int),
    (v < 0 → clampSpeed cfg v = 0) ∧ ((cfg.maxSpeed.toNat : Int) < v → clampSpeed cfg v = cfg.maxSpeed.toNat)
    ∧ (0 ≤ v → v ≤ cfg.maxSpeed.toNat → clampSpeed cfg v = v)
    ∧ ∃ p, encodeInt32 (clampSpeed cfg v) = .ok p

/-- R80, R71, R72: words written out from the opcode map and the frame formats decode to the commands they stand for. -/
def Obligations.SpecWordsDecode : Prop :=
  decodeTableWord 8 0x83 = some .cmdExitSafeStart ∧ decodeTableWord 24 0xAA0512 = some .cmdStopMotor
  ∧ decodeTableWord 24 0xA12204 = some (.cmdGetVariables 0x22 4)
  ∧ decodeTableWord 48 0xE00F7D7F7F7F = some (.cmdSetTargetPosition (-3))
  ∧ decodeTableWord 64 0xAA0D660300041E00 = some (.cmdSetMaxSpeed 2000000)
  ∧ decodeTableWord 24 0xAA0583 = none

/-! ### The step and the host's requests -/

/-- The model's step (log entries 8 and 10): with no operation in progress and frames asked for whose first one decodes
to an instruction in the session's framing, the step is that instruction's meaning, the frame being taken from the front
of the request; and a table word placed for the fetch is run so. -/
def Obligations.StepRunsTheDecodedInstruction : Prop :=
  (∀ (s : State) (bs : List Byte) (later : List Request) (d : Decoded), s.running = none →
    s.requests = .frames bs :: later → decode bs = .ok d → d.address = s.address →
    step s = exec d.instr { s with requests := if d.rest = [] then later else .frames d.rest :: later })
  ∧ (∀ (s : State) (nbits w : Nat) (d : Decoded), decodeTable nbits w = some d →
    step (s.withFetchWord nbits w)
      = exec d.instr
          { s with
            isOpen := true, busy := false, running := none, address := d.address,
            requests := if d.rest = [] then s.requests else .frames d.rest :: s.requests })

/-- The model's step (log entries 7, 8, 10, 15, 22; R4, R110, R273): it serves an invocation by the instruction's meaning, closes
the session at teardown and sends nothing, refuses `jog`, stops at bytes that are no frame with R110's reason (that it
stops is the model's choice: log entry 22), refuses a frame in another framing than the session's, waits when nothing is
asked, and takes the next turn of an operation in progress. -/
def Obligations.StepServesTheHost : Prop :=
  ∀ (s : State) (later : List Request),
    (s.running = none → s.requests = [] → step s = .next s)
    ∧ (∀ i, s.running = none → s.requests = .call i :: later → step s = exec i { s with requests := later })
    ∧ (s.running = none → s.requests = .teardown :: later →
        step s = .next { s with requests := later, isOpen := false })
    ∧ (∀ n, s.running = none → s.requests = .jog n :: later → step s = .refused .jog)
    ∧ (∀ bs why, s.running = none → s.requests = .frames bs :: later → decode bs = .error why →
        step s = .fault (.badFrame why))
    ∧ (∀ bs d, s.running = none → s.requests = .frames bs :: later → decode bs = .ok d → d.address ≠ s.address →
        step s = .refused .foreignFraming)
    ∧ (∀ r, s.running = some r → step s = .next (resume r s))

/-- R160, R23: a host operation on a closed session, and any operation on a busy one, is refused: no step is taken.
(`connect` needs no open session, R270. Wire commands are refused in the same way: log entry 9.) -/
def Obligations.ClosedOrBusySessionRefuses : Prop :=
  (∀ (i : Instr) (s : State), s.isOpen = false → (∀ a c, i ≠ .connect a c) → ∃ r, exec i s = .refused r)
  ∧ (∀ (i : Instr) (s : State), s.busy = true → ∃ r, exec i s = .refused r)

/-! ### Wire commands -/

/-- R131–R134 (run by itself: log entry 9): each writes its opcode's frame in the session's framing, and nothing else;
a write that is answered err leaves a prefix of the frame on the wire and reports `TransportError`. -/
def Obligations.WriteOnlyCommandsSendTheirFrame : Prop :=
  ∀ (s : State) (o : Oracle) (n : Nat), Ready s →
    ∀ p ∈ [(Instr.cmdExitSafeStart, (0x83 : Byte)), (.cmdEnergize, 0x85), (.cmdDeenergize, 0x86), (.cmdStopMotor, 0x92)],
      (s.oracle = { o with tx := .ok :: o.tx } →
        exec p.1 s
          = .next (commandDone [.tx (frameOf s.address p.2 []) .ok] (frameOf s.address p.2 []) (.ok .unit) o s))
      ∧ (s.oracle = { o with tx := .err n :: o.tx } →
        exec p.1 s
          = .next (commandDone [.tx (frameOf s.address p.2 []) .err] ((frameOf s.address p.2 []).take n)
              (.error .transport) o s))

/-- R135, R136, R104 (run by itself: log entry 9): the value is packed and sent; outside int32 nothing is written and
`EncodingError(OutOfRange)` is reported. -/
def Obligations.ValueCommandsPackAndSend : Prop :=
  ∀ (s : State) (o : Oracle) (v : Int) (n : Nat), Ready s →
    ∀ p ∈ [(Instr.cmdSetTargetPosition v, (0xE0 : Byte)), (.cmdSetMaxSpeed v, 0xE6)],
      (InInt32 v → s.oracle = { o with tx := .ok :: o.tx } →
        exec p.1 s
          = .next (commandDone [.tx (frameOf s.address p.2 (pack7 (toU32 v))) .ok]
              (frameOf s.address p.2 (pack7 (toU32 v))) (.ok .unit) o s))
      ∧ (InInt32 v → s.oracle = { o with tx := .err n :: o.tx } →
        exec p.1 s
          = .next (commandDone [.tx (frameOf s.address p.2 (pack7 (toU32 v))) .err]
              ((frameOf s.address p.2 (pack7 (toU32 v))).take n) (.error .transport) o s))
      ∧ (¬ InInt32 v → exec p.1 s = .next (commandDone [] [] (.error (.encoding .outOfRange)) s.oracle s))

/-- R137–R139 (run by itself: log entry 9): for each of the two pairs the block sends, the request frame is written, at
most `len` bytes are read, a full answer is decoded (the position, the switch), a short one is
`ProtocolError(ShortRead)`, a failed read or request `TransportError`. Any other pair, which the block never sends (R51,
R53), is refused in every state: that is the model's choice (log entry 19). -/
def Obligations.GetVariablesReadsAndDecodes : Prop :=
  (∀ (s : State) (o : Oracle) (bs : List Byte) (n : Nat), Ready s →
    ∀ p ∈ [((0x22 : Byte), (4 : Byte), Value.position (decodeInt32 bs)), (0x47, 2, .switch (decodeLimitSwitch s.cfg bs))],
      (s.oracle = { o with tx := .ok :: o.tx, rx := .ok bs :: o.rx } → bs.length = p.2.1.toNat →
        exec (.cmdGetVariables p.1 p.2.1) s
          = .next (commandDone [.tx (frameOf s.address 0xA1 [p.1, p.2.1]) .ok, .rx p.2.1.toNat (.ok bs)]
              (frameOf s.address 0xA1 [p.1, p.2.1]) (.ok p.2.2) o s))
      ∧ (s.oracle = { o with tx := .ok :: o.tx, rx := .ok bs :: o.rx } → bs.length < p.2.1.toNat →
        exec (.cmdGetVariables p.1 p.2.1) s
          = .next (commandDone [.tx (frameOf s.address 0xA1 [p.1, p.2.1]) .ok, .rx p.2.1.toNat (.ok bs)]
              (frameOf s.address 0xA1 [p.1, p.2.1]) (.error (.protocol .shortRead)) o s))
      ∧ (s.oracle = { o with tx := .ok :: o.tx, rx := .err :: o.rx } →
        exec (.cmdGetVariables p.1 p.2.1) s
          = .next (commandDone [.tx (frameOf s.address 0xA1 [p.1, p.2.1]) .ok, .rx p.2.1.toNat .err]
              (frameOf s.address 0xA1 [p.1, p.2.1]) (.error .transport) o s))
      ∧ (s.oracle = { o with tx := .err n :: o.tx } →
        exec (.cmdGetVariables p.1 p.2.1) s
          = .next (commandDone [.tx (frameOf s.address 0xA1 [p.1, p.2.1]) .err]
              ((frameOf s.address 0xA1 [p.1, p.2.1]).take n) (.error .transport) o s)))
  ∧ (∀ (s : State) (off len : Byte), ¬ (off = 0x22 ∧ len = 4) → ¬ (off = 0x47 ∧ len = 2) →
      exec (.cmdGetVariables off len) s = .refused .otherVariable)

/-- R130, R33: whatever the oracles answer, a wire command changes no field of `S` but the history, to which it adds events
of the primitives alone; the frames it writes are in the session's framing; the wire grows by what they may have put on
it; the oracles move on; the model's result field is the only other thing written. -/
def Obligations.WireCommandFrame : Prop :=
  ∀ (i : Instr) (s t : State), i.isWire = true → exec i s = .next t →
    ∃ evs bytes r o, t = commandDone evs bytes r o s ∧ MayBeOnWire evs bytes
      ∧ IoEvents (fun bs => ∃ op data, bs = frameOf s.address op data) evs

/-! ### Session verbs -/

/-- R164, R165: the verb writes its one-opcode frame inside the operation frame and returns `ok(())`; a failed write ends
it with `TransportError`. -/
def Obligations.SendVerbsComplete : Prop :=
  ∀ (s : State) (o : Oracle) (n : Nat), Ready s →
    ∀ p ∈ [(Instr.exitSafeStart, (0x83 : Byte)), (.energize, 0x85)],
      (s.oracle = { o with tx := .ok :: o.tx } →
        exec p.1 s
          = .next (returned p.1 [.tx (frameOf s.address p.2 []) .ok] (frameOf s.address p.2 []) (.ok .unit) o s))
      ∧ (s.oracle = { o with tx := .err n :: o.tx } →
        exec p.1 s
          = .next (returned p.1 [.tx (frameOf s.address p.2 []) .err] ((frameOf s.address p.2 []).take n)
              (.error .transport) o s))

/-- R166: stop, settle, deenergize; a failed stop write ends the verb with no sleep and no deenergize, a failed
deenergize write ends it after the sleep. -/
def Obligations.StopAndDeenergizeSequence : Prop :=
  ∀ (s : State) (o : Oracle) (n : Nat), Ready s →
    (s.oracle = { o with tx := .ok :: .ok :: o.tx } →
      exec .stopAndDeenergize s
        = .next (returned .stopAndDeenergize
            [.tx (frameOf s.address 0x92 []) .ok, .sleep s.cfg.stopSettle, .tx (frameOf s.address 0x86 []) .ok]
            (frameOf s.address 0x92 [] ++ frameOf s.address 0x86 []) (.ok .unit) o s))
    ∧ (s.oracle = { o with tx := .err n :: o.tx } →
      exec .stopAndDeenergize s
        = .next (returned .stopAndDeenergize [.tx (frameOf s.address 0x92 []) .err]
            ((frameOf s.address 0x92 []).take n) (.error .transport) o s))
    ∧ (s.oracle = { o with tx := .ok :: .err n :: o.tx } →
      exec .stopAndDeenergize s
        = .next (returned .stopAndDeenergize
            [.tx (frameOf s.address 0x92 []) .ok, .sleep s.cfg.stopSettle, .tx (frameOf s.address 0x86 []) .err]
            (frameOf s.address 0x92 [] ++ (frameOf s.address 0x86 []).take n) (.error .transport) o s))

/-- R167: the target is packed and sent; outside int32 nothing is written and the verb ends with
`EncodingError(OutOfRange)`. -/
def Obligations.SetTargetPositionSends : Prop :=
  ∀ (s : State) (o : Oracle) (v : Int) (n : Nat), Ready s →
    (InInt32 v → s.oracle = { o with tx := .ok :: o.tx } →
      exec (.setTargetPosition v) s
        = .next (returned (.setTargetPosition v) [.tx (targetFrame s.address v) .ok] (targetFrame s.address v)
            (.ok .unit) o s))
    ∧ (InInt32 v → s.oracle = { o with tx := .err n :: o.tx } →
      exec (.setTargetPosition v) s
        = .next (returned (.setTargetPosition v) [.tx (targetFrame s.address v) .err]
            ((targetFrame s.address v).take n) (.error .transport) o s))
    ∧ (¬ InInt32 v →
      exec (.setTargetPosition v) s
        = .next (returned (.setTargetPosition v) [] [] (.error (.encoding .outOfRange)) s.oracle s))

/-- R168: any integer is clamped to [0, MAX_SPEED] and sent. -/
def Obligations.SetMaxSpeedClampsAndSends : Prop :=
  ∀ (s : State) (o : Oracle) (v c : Int) (n : Nat), Ready s →
    (v < 0 ∧ c = 0 ∨ (s.cfg.maxSpeed.toNat : Int) < v ∧ c = s.cfg.maxSpeed.toNat
      ∨ 0 ≤ v ∧ v ≤ s.cfg.maxSpeed.toNat ∧ c = v) →
    (s.oracle = { o with tx := .ok :: o.tx } →
      exec (.setMaxSpeed v) s
        = .next (returned (.setMaxSpeed v) [.tx (frameOf s.address 0xE6 (pack7 (toU32 c))) .ok]
            (frameOf s.address 0xE6 (pack7 (toU32 c))) (.ok .unit) o s))
    ∧ (s.oracle = { o with tx := .err n :: o.tx } →
      exec (.setMaxSpeed v) s
        = .next (returned (.setMaxSpeed v) [.tx (frameOf s.address 0xE6 (pack7 (toU32 c))) .err]
            ((frameOf s.address 0xE6 (pack7 (toU32 c))).take n) (.error .transport) o s))

/-- R169, R172, R163: both position verbs request variable 0x22, 4; a full answer gives the decoded position, or its exact
difference from home; a short one, a failed read and a failed request end the verb with the error of R163. -/
def Obligations.PositionVerbsRead : Prop :=
  ∀ (s : State) (o : Oracle) (bs : List Byte) (n : Nat), Ready s →
    ∀ p ∈ [(Instr.getCurrentPosition, decodeInt32 bs), (.displayedPosition, decodeInt32 bs - toS32 s.homeOffset)],
      (s.oracle = { o with tx := .ok :: o.tx, rx := .ok bs :: o.rx } → bs.length = 4 →
        exec p.1 s
          = .next (returned p.1 [.tx (positionRequest s.address) .ok, .rx 4 (.ok bs)] (positionRequest s.address)
              (.ok (.position p.2)) o s))
      ∧ (s.oracle = { o with tx := .ok :: o.tx, rx := .ok bs :: o.rx } → bs.length < 4 →
        exec p.1 s
          = .next (returned p.1 [.tx (positionRequest s.address) .ok, .rx 4 (.ok bs)] (positionRequest s.address)
              (.error (.protocol .shortRead)) o s))
      ∧ (s.oracle = { o with tx := .ok :: o.tx, rx := .err :: o.rx } →
        exec p.1 s
          = .next (returned p.1 [.tx (positionRequest s.address) .ok, .rx 4 .err] (positionRequest s.address)
              (.error .transport) o s))
      ∧ (s.oracle = { o with tx := .err n :: o.tx } →
        exec p.1 s
          = .next (returned p.1 [.tx (positionRequest s.address) .err] ((positionRequest s.address).take n)
              (.error .transport) o s))

/-- R170, R163: the status word is requested and decoded; the errors are those of R163. -/
def Obligations.LimitSwitchVerbReads : Prop :=
  ∀ (s : State) (o : Oracle) (bs : List Byte) (n : Nat), Ready s →
    (s.oracle = { o with tx := .ok :: o.tx, rx := .ok bs :: o.rx } → bs.length = 2 →
      exec .getLimitSwitchState s
        = .next (returned .getLimitSwitchState [.tx (statusRequest s.address) .ok, .rx 2 (.ok bs)]
            (statusRequest s.address) (.ok (.switch (decodeLimitSwitch s.cfg bs))) o s))
    ∧ (s.oracle = { o with tx := .ok :: o.tx, rx := .ok bs :: o.rx } → bs.length < 2 →
      exec .getLimitSwitchState s
        = .next (returned .getLimitSwitchState [.tx (statusRequest s.address) .ok, .rx 2 (.ok bs)]
            (statusRequest s.address) (.error (.protocol .shortRead)) o s))
    ∧ (s.oracle = { o with tx := .ok :: o.tx, rx := .err :: o.rx } →
      exec .getLimitSwitchState s
        = .next (returned .getLimitSwitchState [.tx (statusRequest s.address) .ok, .rx 2 .err]
            (statusRequest s.address) (.error .transport) o s))
    ∧ (s.oracle = { o with tx := .err n :: o.tx } →
      exec .getLimitSwitchState s
        = .next (returned .getLimitSwitchState [.tx (statusRequest s.address) .err]
            ((statusRequest s.address).take n) (.error .transport) o s))

/-- R171: an int32 is stored with no I/O, everything else but the call and return events being as before. Another integer is
refused at the boundary: that it is refused in every state, before R160's tests and with no event, is the model's choice
(log entry 16). -/
def Obligations.UpdateHomeStores : Prop :=
  ∀ (s : State) (h : Int),
    (Ready s → InInt32 h →
      ∃ t, exec (.updateHome h) s = .next t ∧ toS32 t.homeOffset = h
        ∧ t = { returned (.updateHome h) [] [] (.ok .unit) s.oracle s with homeOffset := t.homeOffset })
    ∧ (¬ InInt32 h → exec (.updateHome h) s = .refused .notInt32)

/-- R173: exit_safe_start, then energize; if the first write fails the second is not sent. -/
def Obligations.EnergizeSequenceSends : Prop :=
  ∀ (s : State) (o : Oracle) (n : Nat), Ready s →
    (s.oracle = { o with tx := .ok :: .ok :: o.tx } →
      exec .energizeSequence s
        = .next (returned .energizeSequence
            [.tx (frameOf s.address 0x83 []) .ok, .tx (frameOf s.address 0x85 []) .ok]
            (frameOf s.address 0x83 [] ++ frameOf s.address 0x85 []) (.ok .unit) o s))
    ∧ (s.oracle = { o with tx := .err n :: o.tx } →
      exec .energizeSequence s
        = .next (returned .energizeSequence [.tx (frameOf s.address 0x83 []) .err]
            ((frameOf s.address 0x83 []).take n) (.error .transport) o s))
    ∧ (s.oracle = { o with tx := .ok :: .err n :: o.tx } →
      exec .energizeSequence s
        = .next (returned .energizeSequence
            [.tx (frameOf s.address 0x83 []) .ok, .tx (frameOf s.address 0x85 []) .err]
            (frameOf s.address 0x83 [] ++ (frameOf s.address 0x85 []).take n) (.error .transport) o s))

/-- R29, R33, R160: whatever the oracles answer, a session verb with I/O (all of 42_session.md but `update_home`) changes
only the history, the wire, the oracles and the result it hands back: every register of the session and of the
controller, the flag, the parameters and the pending requests are as before. Its call is the first event it appends and
its return the last, with events of the primitives alone between them, and the session is not busy after it. -/
def Obligations.SessionVerbFrame : Prop :=
  ∀ (i : Instr) (s t : State), i.isIoVerb = true → exec i s = .next t →
    ∃ evs bytes r o, t = returned i evs bytes r o s ∧ MayBeOnWire evs bytes ∧ IoEvents (Disciplined s.address) evs

/-! ### Homing -/

/-- R202, R203, R207: with the switch triggered at entry, `calibrate` runs no loop and no time test, commands the offset
from a fresh position read, stores it as home and returns Found. -/
def Obligations.CalibrateImmediateTrigger : Prop :=
  ∀ (s : State) (o : Oracle) (t0 : Reading) (w : Byte × Byte) (p : Int), Ready s → 0 ≤ t0.value → Triggered s.cfg w →
    InInt32 p → InInt32 (p + s.cfg.calOffset) →
    s.oracle
      = { o with
          clock := t0 :: o.clock, tx := .ok :: .ok :: .ok :: .ok :: o.tx,
          rx := .ok [w.1, w.2] :: .ok (le4 p) :: o.rx } →
    exec .calibrate s
      = .next
          { returned .calibrate (entryEvents s.address t0 w ++ foundEvents s.address s.cfg p)
              (sentBytes (entryEvents s.address t0 w ++ foundEvents s.address s.cfg p)) (.ok .found) o s with
            phase := .found, t0 := t0, trig := true, homeOffset := toU32 (p + s.cfg.calOffset) }

/-- R202, R205: with the switch not triggered at entry, `calibrate` is in its probing loop: busy, in phase Probing, the
time base and the reading stored. -/
def Obligations.CalibrateEntersProbing : Prop :=
  ∀ (s : State) (o : Oracle) (t0 : Reading) (w : Byte × Byte), Ready s → 0 ≤ t0.value → ¬ Triggered s.cfg w →
    s.oracle
      = { o with clock := t0 :: o.clock, tx := .ok :: .ok :: o.tx, rx := .ok [w.1, w.2] :: o.rx } →
    exec .calibrate s
      = .next
          { s with
            busy := true, running := some .probing, phase := .probing, t0 := t0, trig := false, oracle := o,
            hist := s.hist ++ .call .calibrate :: entryEvents s.address t0 w,
            wire := s.wire ++ sentBytes (entryEvents s.address t0 w) }

/-- R204, R205: one turn of the loop within the budget (the test is inclusive): the position just read less STEP_SIZE is
commanded, the settle is slept, the switch is read again. Where that target is outside int32, the position is stored and
`calibrate` ends with `EncodingError(OutOfRange)`: no target frame, no sleep, HomeOffset as before, phase Idle (R209). A turn
is a step: log entry 7. -/
def Obligations.ProbePollTurn : Prop :=
  ∀ (s : State) (o : Oracle) (q : PollAnswers) (b : Bool), s.running = some .probing → s.trig = false →
    0 ≤ q.time.value → q.time.value - s.t0.value ≤ s.cfg.calTimeLimit → InInt32 q.position →
    (InInt32 (q.position - s.cfg.stepSize) → (b = true ↔ Triggered s.cfg q.word) →
      s.oracle
        = { o with
            clock := q.time :: o.clock, tx := .ok :: .ok :: .ok :: o.tx,
            rx := .ok (le4 q.position) :: .ok [q.word.1, q.word.2] :: o.rx } →
      step s
        = .next
            { s with
              pos := toU32 q.position, trig := b, oracle := o,
              hist := s.hist ++ pollEvents s.address s.cfg q,
              wire := s.wire ++ sentBytes (pollEvents s.address s.cfg q) })
    ∧ (¬ InInt32 (q.position - s.cfg.stepSize) →
      s.oracle
        = { o with clock := q.time :: o.clock, tx := .ok :: o.tx, rx := .ok (le4 q.position) :: o.rx } →
      step s
        = .next
            { ended .calibrate .idle (.now q.time :: positionEvents s.address q.position)
                (positionRequest s.address) (.error (.encoding .outOfRange)) o s with
              pos := toU32 q.position })

/-- R206, R205: when the loop ends, the last reading decides and not the clock: triggered goes to Found even past the
budget; not triggered past the budget goes to TimedOut, with HomeOffset as it was (R208, AUTO_RECOVER = false). Where the
position read plus CAL_OFFSET is outside int32, `calibrate` ends with `EncodingError(OutOfRange)`: no target frame,
HomeOffset as before, phase Idle (R207, R209). A turn is a step: log entry 7. -/
def Obligations.ProbeExitDecision : Prop :=
  ∀ (s : State) (o : Oracle) (t : Reading), s.running = some .probing → 0 ≤ t.value →
    (∀ p, s.trig = true → InInt32 p → InInt32 (p + s.cfg.calOffset) →
      s.oracle = { o with clock := t :: o.clock, tx := .ok :: .ok :: o.tx, rx := .ok (le4 p) :: o.rx } →
      step s
        = .next
            { ended .calibrate .found (.now t :: foundEvents s.address s.cfg p)
                (sentBytes (foundEvents s.address s.cfg p)) (.ok .found) o s with
              homeOffset := toU32 (p + s.cfg.calOffset) })
    ∧ (∀ p, s.trig = true → InInt32 p → ¬ InInt32 (p + s.cfg.calOffset) →
      s.oracle = { o with clock := t :: o.clock, tx := .ok :: o.tx, rx := .ok (le4 p) :: o.rx } →
      step s
        = .next
            (ended .calibrate .idle (.now t :: positionEvents s.address p) (positionRequest s.address)
              (.error (.encoding .outOfRange)) o s))
    ∧ (s.trig = false → s.cfg.calTimeLimit < t.value - s.t0.value → s.cfg.autoRecover = false →
      s.oracle = { o with clock := t :: o.clock } →
      step s = .next (ended .calibrate .timedOut [.now t] [] (.ok (.timedOut none)) o s))

/-- R208 with AUTO_RECOVER = true: past the budget and not triggered, `calibrate` goes to TimedOut and runs the `go_home`
body inside the same operation, HomeOffset as it was. The turn that starts it: a first read-back equal to home ends it with
TimedOut(Reached), another one leaves it in the home-return loop, to come back to TimedOut. A further turn of that loop:
at the cap TimedOut(HomingFailed), with no frame; below it one more attempt, and its read-back decides in the same way.
That the timed-out turn and the first attempt are one step, and each further attempt one, is the model's (log entry 7). -/
def Obligations.TimeoutRecovers : Prop :=
  ∀ (s : State) (o : Oracle),
    (∀ (t : Reading) (p : Int), s.running = some .probing → s.trig = false → 0 ≤ t.value →
      s.cfg.calTimeLimit < t.value - s.t0.value → s.cfg.autoRecover = true → s.cfg.goHomeMaxAttempts ≠ some 0 →
      InInt32 p →
      s.oracle
        = { o with clock := t :: o.clock, tx := .ok :: .ok :: o.tx, rx := .ok (le4 p) :: o.rx } →
      step s
        = .next
            (if p = toS32 s.homeOffset then
              { ended .calibrate .timedOut (.now t :: attemptEvents s.address (toS32 s.homeOffset) p)
                  (sentBytes (attemptEvents s.address (toS32 s.homeOffset) p))
                  (.ok (.timedOut (some .reached))) o s with attempts := 1 }
            else
              { s with
                running := some (.homing .timedOut true), phase := .homing, attempts := 1, oracle := o,
                hist := s.hist ++ .now t :: attemptEvents s.address (toS32 s.homeOffset) p,
                wire := s.wire ++ sentBytes (attemptEvents s.address (toS32 s.homeOffset) p) }))
    ∧ (s.running = some (.homing .timedOut true) → s.cfg.goHomeMaxAttempts = some s.attempts →
      step s = .next (ended .calibrate .timedOut [] [] (.ok (.timedOut (some .homingFailed))) s.oracle s))
    ∧ (∀ p : Int, s.running = some (.homing .timedOut true) → s.cfg.goHomeMaxAttempts ≠ some s.attempts → InInt32 p →
      s.oracle = { o with tx := .ok :: .ok :: o.tx, rx := .ok (le4 p) :: o.rx } →
      step s
        = .next
            (if p = toS32 s.homeOffset then
              { ended .calibrate .timedOut (attemptEvents s.address (toS32 s.homeOffset) p)
                  (sentBytes (attemptEvents s.address (toS32 s.homeOffset) p))
                  (.ok (.timedOut (some .reached))) o s with attempts := s.attempts + 1 }
            else
              { s with
                attempts := s.attempts + 1, oracle := o,
                hist := s.hist ++ attemptEvents s.address (toS32 s.homeOffset) p,
                wire := s.wire ++ sentBytes (attemptEvents s.address (toS32 s.homeOffset) p) }))

/-- R211: with the switch first triggered on reading N = quiet polls + 2, inside the budget, `calibrate` performs N − 1
polls and ends Found, home being the position then read plus CAL_OFFSET. Stated over the run of the machine from the
host's invocation; the oracles' answers are the premise, and that the run is N + 1 steps is the model's (log entry 7). -/
def Obligations.CalibrateFindsTheSwitch : Prop :=
  ∀ (s : State) (o : Oracle) (later : List Request) (t0 tEnd : Reading) (w0 : Byte × Byte)
    (quiet : List PollAnswers) (last : PollAnswers) (p : Int),
    Ready s → s.running = none → s.requests = .call .calibrate :: later → 0 ≤ t0.value → 0 ≤ tEnd.value →
    ¬ Triggered s.cfg w0 → (∀ q ∈ quiet, QuietPoll s.cfg t0 q) →
    0 ≤ last.time.value → last.time.value - t0.value ≤ s.cfg.calTimeLimit → InInt32 last.position →
    InInt32 (last.position - s.cfg.stepSize) → Triggered s.cfg last.word →
    InInt32 p → InInt32 (p + s.cfg.calOffset) →
    s.oracle
      = { o with
          clock := t0 :: (quiet ++ [last]).map (·.time) ++ tEnd :: o.clock
          tx := List.replicate (3 * quiet.length + 7) .ok ++ o.tx
          rx := .ok [w0.1, w0.2]
            :: (quiet ++ [last]).flatMap (fun q => [.ok (le4 q.position), .ok [q.word.1, q.word.2]])
            ++ .ok (le4 p) :: o.rx } →
    ∃ evs, evs = entryEvents s.address t0 w0 ++ (quiet ++ [last]).flatMap (pollEvents s.address s.cfg)
        ++ .now tEnd :: foundEvents s.address s.cfg p
      ∧ runSteps (quiet.length + 3) s
        = .next
            { returned .calibrate evs (sentBytes evs) (.ok .found) o { s with requests := later } with
              phase := .found, t0 := t0, trig := true, pos := toU32 last.position,
              homeOffset := toU32 (p + s.cfg.calOffset) }

/-- R208, R206 (AUTO_RECOVER = false, C7): with every reading not triggered and the budget run out, `calibrate` returns
TimedOut and leaves HomeOffset as it was. Stated over the run of the machine from the host's invocation; that the run is
the polls and 2 steps more is the model's (log entry 7). -/
def Obligations.CalibrateTimesOut : Prop :=
  ∀ (s : State) (o : Oracle) (later : List Request) (t0 tEnd : Reading) (w0 : Byte × Byte) (polls : List PollAnswers),
    Ready s → s.running = none → s.requests = .call .calibrate :: later → 0 ≤ t0.value → 0 ≤ tEnd.value →
    ¬ Triggered s.cfg w0 → (∀ q ∈ polls, QuietPoll s.cfg t0 q) → s.cfg.calTimeLimit < tEnd.value - t0.value →
    s.cfg.autoRecover = false →
    s.oracle
      = { o with
          clock := t0 :: polls.map (·.time) ++ tEnd :: o.clock
          tx := List.replicate (3 * polls.length + 2) .ok ++ o.tx
          rx := .ok [w0.1, w0.2]
            :: polls.flatMap (fun q => [.ok (le4 q.position), .ok [q.word.1, q.word.2]]) ++ o.rx } →
    ∃ evs, evs = entryEvents s.address t0 w0 ++ polls.flatMap (pollEvents s.address s.cfg) ++ [.now tEnd]
      ∧ runSteps (polls.length + 2) s
        = .next
            { returned .calibrate evs (sentBytes evs) (.ok (.timedOut none)) o { s with requests := later } with
              phase := .timedOut, t0 := t0, trig := false, homeOffset := s.homeOffset,
              pos := (polls.getLast?.map fun q => toU32 q.position).getD s.pos }

/-- R210: whatever the oracles answer, as long as the clock keeps its first two duties of R284 over what the operation
records (the host's duty as a premise: log entry 6), a `calibrate` that is still probing after its entry and n polls has n
at most ⌊CAL_TIME_LIMIT / POLL_SETTLE⌋ + 1. That a poll is a step is the model's (log entry 7). -/
def Obligations.ProbingIsBounded : Prop :=
  ∀ (s t : State) (n : Nat) (evs : List Event), Ready s → s.running = none →
    s.requests = [.call .calibrate] → 0 < s.cfg.pollSettle → 0 ≤ s.cfg.calTimeLimit →
    runSteps (n + 1) s = .next t →
    t.running = some .probing → t.hist = s.hist ++ evs → ClockDuty evs →
    (n : Int) ≤ ⌊s.cfg.calTimeLimit / s.cfg.pollSettle⌋ + 1

/-- R210, R284: along an endless run whose clock keeps the whole duty of R284, its third part too (the host's duty as a
premise: log entry 6), the probing loop comes to an end, whatever the oracles answer and even with POLL_SETTLE = 0. -/
def Obligations.ProbingEndsIfTheClockGoesOn : Prop :=
  ∀ run : Nat → State, EndlessRun run → (run 0).running = some .probing → KeepsClockDuty run →
    ∃ n, (run n).running ≠ some .probing

/-- R214, R218 for k = 1: a first read-back equal to home completes `go_home`. -/
def Obligations.GoHomeReachesAtOnce : Prop :=
  ∀ (s : State) (o : Oracle), Ready s → s.cfg.goHomeMaxAttempts ≠ some 0 →
    s.oracle
      = { o with tx := .ok :: .ok :: o.tx, rx := .ok (le4 (toS32 s.homeOffset)) :: o.rx } →
    exec .goHome s
      = .next
          { returned .goHome (attemptEvents s.address (toS32 s.homeOffset) (toS32 s.homeOffset))
              (targetFrame s.address (toS32 s.homeOffset) ++ positionRequest s.address)
              (.ok (.home .reached)) o s with attempts := 1 }

/-- R218: if the k-th position read is the first to give HomeOffset, and k is within the cap, `go_home` returns Reached
after exactly k attempts, each writing the same target frame; the phase is the one it started from. That k attempts are k
steps, and that with no cap there is no limit on k (R217), is the model's (log entries 7 and 27). -/
def Obligations.GoHomeConverges : Prop :=
  ∀ (s : State) (o : Oracle) (later : List Request) (wrong : List Int), Ready s → s.running = none →
    s.requests = .call .goHome :: later → (∀ p ∈ wrong, InInt32 p ∧ p ≠ toS32 s.homeOffset) →
    (∀ n, s.cfg.goHomeMaxAttempts = some n → wrong.length + 1 ≤ n) →
    s.oracle
      = { o with
          tx := List.replicate (2 * (wrong.length + 1)) .ok ++ o.tx
          rx := (wrong ++ [toS32 s.homeOffset]).map (fun p => .ok (le4 p)) ++ o.rx } →
    ∃ evs, evs = (wrong ++ [toS32 s.homeOffset]).flatMap (attemptEvents s.address (toS32 s.homeOffset))
      ∧ runSteps (wrong.length + 1) s
        = .next
            { returned .goHome evs (sentBytes evs) (.ok (.home .reached)) o { s with requests := later } with
              attempts := wrong.length + 1 }

/-- R215 for a finite cap: n attempts whose reads all differ from HomeOffset end in HomingFailed, with no further
frame. That this takes n + 1 steps is the model's (log entry 7). -/
def Obligations.GoHomeStopsAtTheCap : Prop :=
  ∀ (s : State) (o : Oracle) (later : List Request) (wrong : List Int), Ready s → s.running = none →
    s.requests = .call .goHome :: later → wrong ≠ [] → (∀ p ∈ wrong, InInt32 p ∧ p ≠ toS32 s.homeOffset) →
    s.cfg.goHomeMaxAttempts = some wrong.length →
    s.oracle
      = { o with
          tx := List.replicate (2 * wrong.length) .ok ++ o.tx
          rx := wrong.map (fun p => .ok (le4 p)) ++ o.rx } →
    ∃ evs, evs = wrong.flatMap (attemptEvents s.address (toS32 s.homeOffset))
      ∧ runSteps (wrong.length + 1) s
        = .next
            { returned .goHome evs (sentBytes evs) (.ok (.home .homingFailed)) o { s with requests := later } with
              attempts := wrong.length }

/-- R215, R282 for the cap ∞: against a device that never reports the home position, `go_home` is still trying after any
number of attempts, with one target frame and one read for each. This is the loop of R214, in which attempts are steps
(log entry 7) and have no limit (log entry 27): R217 says that of a run of more than about 1000 attempts it may not hold of
the source, whose recursion has one. -/
def Obligations.UncappedGoHomeKeepsTrying : Prop :=
  ∀ (s : State) (o : Oracle) (later : List Request) (wrong : List Int), Ready s → s.running = none →
    s.requests = .call .goHome :: later → wrong ≠ [] → (∀ p ∈ wrong, InInt32 p ∧ p ≠ toS32 s.homeOffset) →
    s.cfg.goHomeMaxAttempts = none →
    s.oracle
      = { o with
          tx := List.replicate (2 * wrong.length) .ok ++ o.tx
          rx := wrong.map (fun p => .ok (le4 p)) ++ o.rx } →
    ∃ evs, evs = wrong.flatMap (attemptEvents s.address (toS32 s.homeOffset))
      ∧ runSteps wrong.length s
        = .next
            { s with
              requests := later, busy := true, running := some (.homing s.phase false), phase := .homing,
              attempts := wrong.length, oracle := o, hist := s.hist ++ .call .goHome :: evs,
              wire := s.wire ++ sentBytes evs }

/-- R215 for the cap ∞: a step of the home-return loop either takes another attempt or ends by Reached or an error; it
never ends by HomingFailed. This is the loop of R214: log entries 7 and 27 (R217). -/
def Obligations.UncappedGoHomeEndsOnlyByReachedOrError : Prop :=
  ∀ (s t : State) (prev : Phase) (recovering : Bool), s.running = some (.homing prev recovering) →
    s.cfg.goHomeMaxAttempts = none → step s = .next t →
    (t.running = s.running ∧ t.attempts = s.attempts + 1)
    ∨ t.result = some (.ok (homeValue recovering .reached))
    ∨ ∃ e, t.result = some (.error e)

/-- R208, R214, R215 with AUTO_RECOVER = true: the recovery as a run, from the timed-out turn of the probing loop. If the
first read-back equal to home is the k-th, within the cap, `calibrate` returns TimedOut(Reached) after k attempts; if n
reads at a cap of n all differ from it, TimedOut(HomingFailed); in phase TimedOut, HomeOffset as it was. That attempts are
steps, and that with no cap there is no limit on k (R217), is the model's (log entries 7 and 27). -/
def Obligations.RecoveryRunsGoHome : Prop :=
  ∀ (s : State) (o : Oracle) (t : Reading) (wrong : List Int), s.running = some .probing → s.trig = false →
    0 ≤ t.value → s.cfg.calTimeLimit < t.value - s.t0.value → s.cfg.autoRecover = true →
    (∀ p ∈ wrong, InInt32 p ∧ p ≠ toS32 s.homeOffset) →
    ((∀ n, s.cfg.goHomeMaxAttempts = some n → wrong.length + 1 ≤ n) →
      s.oracle
        = { o with
            clock := t :: o.clock
            tx := List.replicate (2 * (wrong.length + 1)) .ok ++ o.tx
            rx := (wrong ++ [toS32 s.homeOffset]).map (fun p => .ok (le4 p)) ++ o.rx } →
      ∃ evs, evs = (wrong ++ [toS32 s.homeOffset]).flatMap (attemptEvents s.address (toS32 s.homeOffset))
        ∧ runSteps (wrong.length + 1) s
          = .next
              { ended .calibrate .timedOut (.now t :: evs) (sentBytes evs) (.ok (.timedOut (some .reached))) o s with
                attempts := wrong.length + 1 })
    ∧ (wrong ≠ [] → s.cfg.goHomeMaxAttempts = some wrong.length →
      s.oracle
        = { o with
            clock := t :: o.clock
            tx := List.replicate (2 * wrong.length) .ok ++ o.tx
            rx := wrong.map (fun p => .ok (le4 p)) ++ o.rx } →
      ∃ evs, evs = wrong.flatMap (attemptEvents s.address (toS32 s.homeOffset))
        ∧ runSteps (wrong.length + 1) s
          = .next
              { ended .calibrate .timedOut (.now t :: evs) (sentBytes evs) (.ok (.timedOut (some .homingFailed))) o s
                with attempts := wrong.length })

/-- R33 for the controller operations: an invocation of `calibrate` or `go_home`, and any further turn, leave the address,
the open flag, the parameters and the pending requests alone; `go_home` by itself also leaves the home, the time base, the
flag and the probed position. -/
def Obligations.ControllerFrame : Prop :=
  ∀ s t : State,
    ((exec .calibrate s = .next t ∨ exec .goHome s = .next t ∨ (s.running ≠ none ∧ step s = .next t)) →
      t.address = s.address ∧ t.isOpen = s.isOpen ∧ t.cfg = s.cfg ∧ t.requests = s.requests
        ∧ s.hist <+: t.hist ∧ s.wire <+: t.wire)
    ∧ ((exec .goHome s = .next t ∨ (∃ prev, s.running = some (.homing prev false) ∧ step s = .next t)) →
      t.homeOffset = s.homeOffset ∧ t.t0 = s.t0 ∧ t.trig = s.trig ∧ t.pos = s.pos)

/-! ### Errors -/

/-- R209, R202: when the entry of `calibrate` ends in an error: exit_safe_start not written, or the first switch read
failing in any way of R163. It ends at once, with nothing more written, HomeOffset as before, phase Idle (R247). -/
def Obligations.CalibrateEntryErrors : Prop :=
  ∀ (s : State) (o : Oracle) (t0 : Reading), Ready s → 0 ≤ t0.value →
    (∀ n, s.oracle = { o with clock := t0 :: o.clock, tx := .err n :: o.tx } →
      exec .calibrate s
        = .next
            { ended .calibrate .idle [.call .calibrate, .now t0, .tx (frameOf s.address 0x83 []) .err]
                ((frameOf s.address 0x83 []).take n) (.error .transport) o s with t0 := t0 })
    ∧ (∀ f : ReadFailure, f.Fits 2 →
      s.oracle = { o with clock := t0 :: o.clock, tx := .ok :: (f.tx ++ o.tx), rx := f.rx ++ o.rx } →
      exec .calibrate s
        = .next
            { ended .calibrate .idle
                ([.call .calibrate, .now t0, .tx (frameOf s.address 0x83 []) .ok] ++ f.events (statusRequest s.address) 2)
                (frameOf s.address 0x83 [] ++ f.bytes (statusRequest s.address)) (.error f.error) o s with t0 := t0 })

/-- R209, R204: when a poll within the budget ends in an error of the transport: the position read, the target's write, or
the switch read after the settle failing. `calibrate` ends at once: no retry and no further frame, HomeOffset as before,
phase Idle (R247). (A target outside int32: ProbePollTurn. A turn is a step: log entry 7.) -/
def Obligations.ProbePollErrors : Prop :=
  ∀ (s : State) (o : Oracle) (t : Reading) (p : Int), s.running = some .probing → s.trig = false → 0 ≤ t.value →
    t.value - s.t0.value ≤ s.cfg.calTimeLimit → InInt32 p → InInt32 (p - s.cfg.stepSize) →
    (∀ f : ReadFailure, f.Fits 4 →
      s.oracle = { o with clock := t :: o.clock, tx := f.tx ++ o.tx, rx := f.rx ++ o.rx } →
      step s
        = .next
            (ended .calibrate .idle (.now t :: f.events (positionRequest s.address) 4)
              (f.bytes (positionRequest s.address)) (.error f.error) o s))
    ∧ (∀ n,
      s.oracle = { o with clock := t :: o.clock, tx := .ok :: .err n :: o.tx, rx := .ok (le4 p) :: o.rx } →
      step s
        = .next
            { ended .calibrate .idle
                (.now t :: positionEvents s.address p ++ [.tx (targetFrame s.address (p - s.cfg.stepSize)) .err])
                (positionRequest s.address ++ (targetFrame s.address (p - s.cfg.stepSize)).take n)
                (.error .transport) o s with pos := toU32 p })
    ∧ (∀ f : ReadFailure, f.Fits 2 →
      s.oracle
        = { o with clock := t :: o.clock, tx := .ok :: .ok :: (f.tx ++ o.tx), rx := .ok (le4 p) :: (f.rx ++ o.rx) } →
      step s
        = .next
            { ended .calibrate .idle
                (.now t :: positionEvents s.address p
                  ++ [.tx (targetFrame s.address (p - s.cfg.stepSize)) .ok, .sleep s.cfg.pollSettle]
                  ++ f.events (statusRequest s.address) 2)
                (positionRequest s.address ++ targetFrame s.address (p - s.cfg.stepSize)
                  ++ f.bytes (statusRequest s.address))
                (.error f.error) o s with pos := toU32 p })

/-- R209, R207: when the Found action ends in an error: its position read failing, its target outside int32, or its target's
write failing. `calibrate` ends at once, with nothing more written, HomeOffset as before and phase Idle (R247). First at a
turn of the probing loop whose last reading was triggered, then at an entry whose first reading is triggered (R203). (A
target outside int32 at a turn of the loop: ProbeExitDecision. A turn is a step: log entry 7.) -/
def Obligations.FoundActionErrors : Prop :=
  ∀ (s : State) (o : Oracle) (t : Reading) (p : Int), 0 ≤ t.value → InInt32 p →
    (s.running = some .probing → s.trig = true →
      (∀ f : ReadFailure, f.Fits 4 →
        s.oracle = { o with clock := t :: o.clock, tx := f.tx ++ o.tx, rx := f.rx ++ o.rx } →
        step s
          = .next
              (ended .calibrate .idle (.now t :: f.events (positionRequest s.address) 4)
                (f.bytes (positionRequest s.address)) (.error f.error) o s))
      ∧ (∀ n, InInt32 (p + s.cfg.calOffset) →
        s.oracle = { o with clock := t :: o.clock, tx := .ok :: .err n :: o.tx, rx := .ok (le4 p) :: o.rx } →
        step s
          = .next
              (ended .calibrate .idle
                (.now t :: positionEvents s.address p ++ [.tx (targetFrame s.address (p + s.cfg.calOffset)) .err])
                (positionRequest s.address ++ (targetFrame s.address (p + s.cfg.calOffset)).take n)
                (.error .transport) o s)))
    ∧ (∀ w : Byte × Byte, Ready s → Triggered s.cfg w →
      (∀ f : ReadFailure, f.Fits 4 →
        s.oracle
          = { o with
              clock := t :: o.clock, tx := .ok :: .ok :: (f.tx ++ o.tx), rx := .ok [w.1, w.2] :: (f.rx ++ o.rx) } →
        exec .calibrate s
          = .next
              { ended .calibrate .idle
                  (.call .calibrate :: entryEvents s.address t w ++ f.events (positionRequest s.address) 4)
                  (sentBytes (entryEvents s.address t w) ++ f.bytes (positionRequest s.address))
                  (.error f.error) o s with t0 := t, trig := true })
      ∧ (¬ InInt32 (p + s.cfg.calOffset) →
        s.oracle
          = { o with
              clock := t :: o.clock, tx := .ok :: .ok :: .ok :: o.tx,
              rx := .ok [w.1, w.2] :: .ok (le4 p) :: o.rx } →
        exec .calibrate s
          = .next
              { ended .calibrate .idle
                  (.call .calibrate :: entryEvents s.address t w ++ positionEvents s.address p)
                  (sentBytes (entryEvents s.address t w) ++ positionRequest s.address)
                  (.error (.encoding .outOfRange)) o s with t0 := t, trig := true })
      ∧ (∀ n, InInt32 (p + s.cfg.calOffset) →
        s.oracle
          = { o with
              clock := t :: o.clock, tx := .ok :: .ok :: .ok :: .err n :: o.tx,
              rx := .ok [w.1, w.2] :: .ok (le4 p) :: o.rx } →
        exec .calibrate s
          = .next
              { ended .calibrate .idle
                  (.call .calibrate :: entryEvents s.address t w ++ positionEvents s.address p
                    ++ [.tx (targetFrame s.address (p + s.cfg.calOffset)) .err])
                  (sentBytes (entryEvents s.address t w) ++ positionRequest s.address
                    ++ (targetFrame s.address (p + s.cfg.calOffset)).take n)
                  (.error .transport) o s with t0 := t, trig := true }))

/-- R216, R208: when an attempt of `go_home` ends in an error: its command not written, or its read-back failing, a short
one too. It ends at once: no retry and no further frame, HomeOffset as before, phase Idle (R247), the attempt not counted
(R214). At the first attempt, at a later one (in a recovery the operation is `calibrate`), and at the first of a recovery. An attempt
is a step: log entry 7. -/
def Obligations.GoHomeAttemptErrors : Prop :=
  ∀ (s : State) (o : Oracle) (f : AttemptFailure), f.Fits →
    (Ready s → s.cfg.goHomeMaxAttempts ≠ some 0 →
      s.oracle = { o with tx := f.tx ++ o.tx, rx := f.rx ++ o.rx } →
      exec .goHome s
        = .next
            { ended .goHome .idle (.call .goHome :: f.events s.address (toS32 s.homeOffset))
                (f.bytes s.address (toS32 s.homeOffset)) (.error f.error) o s with attempts := 0 })
    ∧ (∀ prev recovering, s.running = some (.homing prev recovering) → s.cfg.goHomeMaxAttempts ≠ some s.attempts →
      s.oracle = { o with tx := f.tx ++ o.tx, rx := f.rx ++ o.rx } →
      step s
        = .next
            (ended (if recovering then .calibrate else .goHome) .idle (f.events s.address (toS32 s.homeOffset))
              (f.bytes s.address (toS32 s.homeOffset)) (.error f.error) o s))
    ∧ (∀ t : Reading, s.running = some .probing → s.trig = false → 0 ≤ t.value →
      s.cfg.calTimeLimit < t.value - s.t0.value → s.cfg.autoRecover = true → s.cfg.goHomeMaxAttempts ≠ some 0 →
      s.oracle = { o with clock := t :: o.clock, tx := f.tx ++ o.tx, rx := f.rx ++ o.rx } →
      step s
        = .next
            { ended .calibrate .idle (.now t :: f.events s.address (toS32 s.homeOffset))
                (f.bytes s.address (toS32 s.homeOffset)) (.error f.error) o s with attempts := 0 })

/-- R247: an operation that an error ends keeps the address, the open session, HomeOffset and every event of the history;
it is not busy any more; if it was `calibrate` or `go_home` the phase is Idle, otherwise the phase is kept. First for an
invocation that ends at once, then for a further turn of an operation in progress. -/
def Obligations.ErrorKeepsTheSession : Prop :=
  (∀ (i : Instr) (s t : State) (e : Error), exec i s = .next t → t.busy = false → t.result = some (.error e) →
    t.address = s.address ∧ t.isOpen = s.isOpen ∧ t.homeOffset = s.homeOffset ∧ s.hist <+: t.hist
      ∧ t.phase = if i.isController then .idle else s.phase)
  ∧ (∀ (s t : State) (e : Error), s.running ≠ none → step s = .next t → t.running = none →
    t.result = some (.error e) →
    t.address = s.address ∧ t.isOpen = s.isOpen ∧ t.homeOffset = s.homeOffset ∧ s.hist <+: t.hist
      ∧ t.phase = .idle ∧ t.busy = false)

/-- R245: the numbers of errors and outcomes; 0 for every other completed operation: one with no result of its own, a
position or a difference, a switch reading, a construction. -/
def Obligations.ResultCodes : Prop :=
  (∀ c, (Result.error (.encoding c)).code = 1) ∧ (Result.error .transport).code = 2
  ∧ (∀ c, (Result.error (.protocol c)).code = 3) ∧ (∀ r, (Result.ok (.timedOut r)).code = 16)
  ∧ (Result.ok (.home .homingFailed)).code = 17 ∧ (Result.ok .found).code = 18
  ∧ (Result.ok (.home .reached)).code = 19
  ∧ (Result.ok .unit).code = 0 ∧ (∀ p, (Result.ok (.position p)).code = 0) ∧ (∀ b, (Result.ok (.switch b)).code = 0)
  ∧ (Result.ok .session).code = 0

/-! ### Construction -/

/-- R270, R34, R271: a construction whose address is legal and whose transport opens leaves exactly R34's values, whatever
was there before, and sends nothing; a bad address opens nothing; a transport that does not open gives
`TransportError`, and then nothing else changes. (What the model does around it: log entries 3, 12, 14.) -/
def Obligations.ConnectConstructs : Prop :=
  ∀ (s : State) (c : Config) (o : Oracle), s.busy = false →
    (∀ (arg : Option Int) (a : Option Addr), addressArg a = arg → s.oracle = { o with opening := true :: o.opening } →
      ∃ t, exec (.connect arg c) s = .next t ∧ t.address = a ∧ t.isOpen = true ∧ t.busy = false
        ∧ t.homeOffset = c.homeInit ∧ t.phase = .idle ∧ t.hist = [] ∧ t.cfg = c ∧ t.wire = [] ∧ t.running = none
        ∧ t.result = some (.ok .session) ∧ t.oracle = o ∧ t.requests = s.requests)
    ∧ (∀ arg : Int, arg < 0 ∨ 127 < arg →
      exec (.connect (some arg) c) s = .next { s with result := some (.error (.encoding .badAddress)) })
    ∧ (∀ a : Option Addr, s.oracle = { o with opening := false :: o.opening } →
      exec (.connect (addressArg a) c) s = .next { s with oracle := o, result := some (.error .transport) })

/-- R34: the state right after reset: a session open and idle, at phase Idle, with an empty history, HomeOffset at
`HOME_INIT`, legal parameters (R7) with the document's defaults, and nothing sent. -/
def Obligations.ResetState : Prop :=
  State.reset.isOpen = true ∧ State.reset.busy = false ∧ State.reset.phase = .idle ∧ State.reset.hist = []
  ∧ State.reset.homeOffset = State.reset.cfg.homeInit ∧ State.reset.cfg.legal = true
  ∧ State.reset.cfg.stepSize = 3 ∧ State.reset.cfg.pollSettle = 3 / 20 ∧ State.reset.cfg.calOffset = 20
  ∧ State.reset.cfg.stopSettle = 1 ∧ State.reset.cfg.autoRecover = false ∧ State.reset.wire = []

/-! ### Invariants and whole-machine rules -/

/-- R23, R24: the controller's bookkeeping is kept by every step. -/
def Obligations.StepKeepsControlInv : Prop :=
  ∀ s t : State, ControlInv s → step s = .next t → ControlInv t

/-- R73, R82: every frame in the history stays in the session's framing and keeps the high-bit discipline. -/
def Obligations.StepKeepsFramingInv : Prop :=
  ∀ s t : State, FramingInv s → step s = .next t → FramingInv t

/-- R27, R55, R60: the wire stays what the history may have put on it, in order. -/
def Obligations.StepKeepsWireInv : Prop :=
  ∀ s t : State, WireInv s → step s = .next t → WireInv t

/-- R51, R53, R55: the block writes whole frames, asks for no variable but the position and the status word, each whole,
and reads only right after such a request, of its length; every step keeps it so. -/
def Obligations.StepKeepsAccessInv : Prop :=
  ∀ s t : State, AccessInv s → step s = .next t → AccessInv t

/-- The four invariants hold right after reset. -/
def Obligations.ResetMeetsTheInvariants : Prop :=
  ControlInv State.reset ∧ FramingInv State.reset ∧ WireInv State.reset ∧ AccessInv State.reset

/-- R22, R207, R208, R247: a step that changes HomeOffset is a return of `update_home` with the value given, a return of
`calibrate` with Found, or a construction. -/
def Obligations.OnlyUpdateHomeAndFoundWriteHome : Prop :=
  ∀ s t : State, step s = .next t → t.homeOffset ≠ s.homeOffset →
    (∃ h, t.hist.getLast? = some (.ret (.updateHome h) (.ok .unit)) ∧ toS32 t.homeOffset = h)
    ∨ t.hist.getLast? = some (.ret .calibrate (.ok .found))
    ∨ (t.hist = [] ∧ t.result = some (.ok .session) ∧ t.homeOffset = t.cfg.homeInit)

/-- R20, R21, R30: the address and the parameters of a session never change, and it stays open, but for a construction of
another session and for teardown (R273); the history and the wire only grow (R27), a construction apart. -/
def Obligations.SessionIsImmutable : Prop :=
  ∀ s t : State, step s = .next t → ¬ (t.hist = [] ∧ t.result = some (.ok .session)) →
    t.address = s.address ∧ t.cfg = s.cfg ∧ s.hist <+: t.hist ∧ s.wire <+: t.wire
      ∧ (t.isOpen = s.isOpen ∨ (s.requests.head? = some .teardown ∧ t.isOpen = false))
end

