-- ==== Sys2Proof/Laws/Clock.lean ====
section
/-! SUPPORT. Clock readings as real numbers (R10): what a reading is worth, that the time test of R205 is the comparison
of those numbers, and the pairs of readings that the duty of R284 speaks of. -/

namespace Sys2Proof

@[simp] theorem Reading.value_exact (q : Seconds) : (Reading.exact q).value = q := rfl

@[simp] theorem Reading.value_free (k : Nat) : (Reading.free k).value = Config.freeClock.reading k := rfl

/-- A free clock is any sequence of non-negative readings: its time test leaves nothing out. -/
theorem exists_freeClock (readings : Nat → NNReal) : ∃ c : FreeClock, c.reading = readings := by
  classical
  exact ⟨{ reading := readings
           within := fun t t0 d => decide (t.valueIn readings - t0.valueIn readings ≤ d)
           within_iff := fun _ _ _ => decide_eq_true_iff }, rfl⟩

end Sys2Proof

namespace Sys2Proof.Machine

/-- The time test of R205 compares the real numbers. -/
theorem elapsedWithin_iff (t t0 : Reading) (limit : Seconds) :
    elapsedWithin t t0 limit = true ↔ t.value - t0.value ≤ limit := by
  unfold elapsedWithin
  split
  · simp only [decide_eq_true_eq, Reading.value_exact]; norm_cast
  · exact Config.freeClock.within_iff t t0 limit

theorem elapsedWithin_eq_false_iff (t t0 : Reading) (limit : Seconds) :
    elapsedWithin t t0 limit = false ↔ (limit : ℝ) < t.value - t0.value := by
  rw [← Bool.not_eq_true, elapsedWithin_iff, not_le]

theorem asReading_of_nonneg {t : Reading} (h : 0 ≤ t.value) : asReading t = t := by
  cases t with
  | exact q => simp only [Reading.value_exact, Rat.cast_nonneg] at h; simp [asReading, h]
  | free k => rfl

/-- Whatever is scripted or drawn, the clock answers a non-negative number (R10). -/
theorem clockDraw_nonneg (s : State) : 0 ≤ s.clockDraw.1.value := by
  unfold State.clockDraw
  split
  · rename_i t rest h
    cases t with
    | exact q =>
      simp only [asReading, Reading.value_exact, Rat.cast_nonneg]
      split <;> simp_all
    | free k => exact NNReal.coe_nonneg _
  · exact NNReal.coe_nonneg _

/-- The readings of a stretch that follows a reading of `base`: each is at least `low`, and at least `base + d` once a
`Sleep(d)` has come. -/
def ReadingsFrom (base low : ℝ) : List Event → Prop
  | [] => True
  | .now u :: es => low ≤ u.value ∧ ReadingsFrom base low es
  | .sleep d :: es => ReadingsFrom base (max low (base + d)) es
  | .tx _ _ :: es | .rx _ _ :: es | .call _ :: es | .ret _ _ :: es => ReadingsFrom base low es

theorem readingsFrom_iff (base : ℝ) (es : List Event) : ∀ low : ℝ, ReadingsFrom base low es ↔
    ∀ between u after, es = between ++ .now u :: after →
      low ≤ u.value ∧ ∀ d : Seconds, .sleep d ∈ between → base + (d : ℝ) ≤ u.value := by
  induction es with
  | nil => simp [ReadingsFrom]
  | cons e es ih =>
    intro low
    constructor
    · intro h between u after he
      rcases List.cons_eq_append_iff.1 he with ⟨rfl, h1⟩ | ⟨b, rfl, h1⟩
      · obtain ⟨rfl, rfl⟩ := List.cons.inj h1
        exact ⟨h.1, by simp⟩
      · cases e with
        | sleep d =>
          have k := (ih _).1 h b u after h1
          refine ⟨(le_max_left _ _).trans k.1, fun d' hd => ?_⟩
          rcases List.mem_cons.1 hd with hd | hd
          · cases hd; exact (le_max_right _ _).trans k.1
          · exact k.2 d' hd
        | now v => simpa using (ih low).1 h.2 b u after h1
        | _ => simpa using (ih low).1 h b u after h1
    · intro h
      have k : ∀ between u after, es = between ++ .now u :: after →
          low ≤ u.value ∧ ∀ d : Seconds, .sleep d ∈ e :: between → base + (d : ℝ) ≤ u.value :=
        fun b u c hb => h (e :: b) u c (by simp [hb])
      cases e with
      | sleep d =>
        exact (ih _).2 fun b u c hb =>
          ⟨max_le (k b u c hb).1 ((k b u c hb).2 d (by simp)), fun d' hd => (k b u c hb).2 d' (by simp [hd])⟩
      | now v => exact ⟨(h [] v es rfl).1, (ih low).2 fun b u c hb => by simpa using k b u c hb⟩
      | _ => exact (ih low).2 fun b u c hb => by simpa using k b u c hb

@[simp] theorem clockDuty_nil : ClockDuty [] := by
  intro before t between u after h; simp at h

/-- The duty, one reading at a time. -/
@[simp] theorem clockDuty_now_cons (t : Reading) (es : List Event) :
    ClockDuty (.now t :: es) ↔ ReadingsFrom t.value t.value es ∧ ClockDuty es := by
  rw [readingsFrom_iff]
  constructor
  · exact fun h => ⟨fun b u c hb => h [] t b u c (by simp [hb]), fun a v b u c he => h (.now t :: a) v b u c (by simp [he])⟩
  · rintro ⟨h, k⟩ before v between u after he
    rcases List.cons_eq_append_iff.1 (he.trans (List.append_assoc _ _ _)) with ⟨rfl, h1⟩ | ⟨b, rfl, h1⟩
    · obtain ⟨rfl, rfl⟩ := by simpa using h1
      exact h between u after rfl
    · exact k b v between u after (h1.trans (List.append_assoc _ _ _).symm)

/-- An event that is no reading asks nothing by itself. -/
theorem clockDuty_cons {e : Event} (he : ∀ t, e ≠ .now t) (es : List Event) : ClockDuty (e :: es) ↔ ClockDuty es := by
  constructor
  · exact fun h a v b u c k => h (e :: a) v b u c (by simp [k])
  · intro h before v between u after k
    rcases List.cons_eq_append_iff.1 (k.trans (List.append_assoc _ _ _)) with ⟨rfl, h1⟩ | ⟨b, rfl, h1⟩
    · exact absurd (List.cons.inj h1).1.symm (he v)
    · exact h b v between u after (h1.trans (List.append_assoc _ _ _).symm)

/-- The duty holds of any stretch of a history it holds of. -/
theorem ClockDuty.infix {es fs : List Event} (h : ClockDuty fs) (k : es <:+: fs) : ClockDuty es := by
  obtain ⟨a, b, rfl⟩ := k
  intro before t between u after he
  exact h (a ++ before) t between u (after ++ b) (by simp [he])

end Sys2Proof.Machine
end

