-- ==== Sys2Proof/Laws/Codec.lean ====
section
/-! SUPPORT. The laws of packing, framing and decoding that the other proofs rest on. -/

namespace Sys2Proof

theorem toS32_eq_toInt (u : I32) : toS32 u = u.toInt := by
  simp only [toS32, BitVec.toInt]; split <;> split <;> omega

theorem inInt32_toS32 (u : I32) : InInt32 (toS32 u) := by
  have := u.isLt; unfold toS32; constructor <;> split <;> omega

theorem toS32_toU32 {v : Int} (h : InInt32 v) : toS32 (toU32 v) = v := by
  obtain ⟨h1, h2⟩ := h
  rw [toS32_eq_toInt, toU32, BitVec.toInt_ofInt]
  simp only [Int.bmod]; split <;> omega

theorem toU32_toS32 (u : I32) : toU32 (toS32 u) = u := by
  rw [toS32_eq_toInt, toU32, BitVec.ofInt_toInt]

/-- Bit j of the leading byte is bit 7 of byte j of the value (R76). -/
theorem getLsbD_leadingByte (u : I32) (j : Nat) :
    (leadingByte u).getLsbD j = (decide (j < 4) && u.getLsbD (8 * j + 7)) := by
  simp only [leadingByte, BitVec.getLsbD_setWidth, BitVec.getLsbD_or, BitVec.getLsbD_and, BitVec.getLsbD_ushiftRight]
  by_cases h : j < 8
  · interval_cases j <;> simp
  · have : ¬ j < 4 := by omega
    simp [h, this]

/-- Byte i of a packed value holds the low seven bits of byte i of the value (R76). -/
theorem getLsbD_lowSeven (u : I32) (i j : Nat) :
    (lowSeven u i).getLsbD j = (decide (j < 7) && u.getLsbD (8 * i + j)) := by
  simp only [lowSeven, BitVec.getLsbD_setWidth, BitVec.getLsbD_and, BitVec.getLsbD_ushiftRight]
  by_cases h : j < 8
  · interval_cases j <;> simp
  · have : ¬ j < 7 := by omega
    simp [h, this]

theorem byte_eq {a b : Byte} (h : ∀ j < 8, a.getLsbD j = b.getLsbD j) : a = b :=
  BitVec.eq_of_getLsbD_eq fun j hj => h j hj

theorem unpackedByte_pack7 (u : I32) {i : Nat} (hi : i < 4) :
    unpackedByte (pack7 u) i = u.extractLsb' (8 * i) 8 := by
  apply byte_eq
  intro j hj
  have h0 : (pack7 u).getD 0 0 = leadingByte u := rfl
  have h1 : (pack7 u).getD (1 + i) 0 = lowSeven u i := by interval_cases i <;> rfl
  simp only [unpackedByte, h0, h1, BitVec.getLsbD_or, BitVec.getLsbD_and, BitVec.getLsbD_shiftLeft,
    BitVec.getLsbD_ushiftRight, getLsbD_leadingByte, getLsbD_lowSeven, BitVec.getLsbD_extractLsb']
  interval_cases j <;> simp [hi]

/-- A word is its four bytes put together again. -/
theorem append_bytes (u : I32) :
    u.extractLsb' 24 8 ++ u.extractLsb' 16 8 ++ u.extractLsb' 8 8 ++ u.extractLsb' 0 8 = u := by
  apply BitVec.eq_of_getLsbD_eq
  intro j hj
  simp only [BitVec.getLsbD_append, BitVec.getLsbD_extractLsb']
  by_cases h1 : j < 8
  · simp [h1]
  by_cases h2 : j < 16
  · have : j - 8 < 8 := by omega
    have e : 8 + (j - 8) = j := by omega
    simp [h1, this, e]
  by_cases h3 : j < 24
  · have a : ¬ j - 8 < 8 := by omega
    have b : j - 8 - 8 < 8 := by omega
    have e : 16 + (j - 8 - 8) = j := by omega
    simp [h1, a, b, e]
  · have a : ¬ j - 8 < 8 := by omega
    have b : ¬ j - 8 - 8 < 8 := by omega
    have c : j - 8 - 8 - 8 < 8 := by omega
    have e : 24 + (j - 8 - 8 - 8) = j := by omega
    simp [h1, a, b, c, e]

/-- Packing loses no bit of the pattern. -/
theorem unpackWord_pack7 (u : I32) : unpackWord (pack7 u) = u := by
  rw [unpackWord, unpackedByte_pack7 u (by decide), unpackedByte_pack7 u (by decide),
    unpackedByte_pack7 u (by decide), unpackedByte_pack7 u (by decide)]
  exact append_bytes u

theorem unpack7_pack7 {v : Int} (h : InInt32 v) : unpack7 (pack7 (toU32 v)) = v := by
  rw [unpack7, unpackWord_pack7, toS32_toU32 h]

theorem littleEndian_le4 (v : Int) : littleEndian (le4 v) = toU32 v := append_bytes (toU32 v)

theorem decodeInt32_le4 {v : Int} (h : InInt32 v) : decodeInt32 (le4 v) = v := by
  rw [decodeInt32, littleEndian_le4, toS32_toU32 h]

theorem highBit_eq (b : Byte) : highBit b = b.getLsbD 7 := by
  revert b; decide

/-- Every byte of a packed int32 has bit 7 clear. -/
theorem highBit_pack7 (u : I32) : ∀ b ∈ pack7 u, highBit b = false := by
  intro b hb
  simp only [pack7, List.mem_cons, List.not_mem_nil, or_false] at hb
  rcases hb with rfl | rfl | rfl | rfl | rfl <;> rw [highBit_eq] <;>
    first
      | rw [getLsbD_leadingByte]; rfl
      | rw [getLsbD_lowSeven]; rfl

/-- A session's address is always encodable: `encode_command` gives the frame of the session's framing. -/
theorem encodeCommand_session (op : Byte) (data : List Byte) (a : Option Addr) :
    encodeCommand op data (addressArg a) = .ok (Machine.frameOf a op data) := by
  cases a with
  | none => rfl
  | some x =>
    have h : (x.toNat : Int) ≤ 127 := by have := x.isLt; omega
    have e : BitVec.ofInt 8 (x.toNat : Int) = x.setWidth 8 := by
      apply BitVec.eq_of_toNat_eq; simp
    simp [addressArg, encodeCommand, Machine.frameOf, h, e]

/-- A frame of a table opcode with seven-bit data keeps the high-bit discipline (R82). -/
theorem disciplined_frameOf (a : Option Addr) (op : Byte) (data : List Byte) (hop : highBit op = true)
    (hd : ∀ b ∈ data, highBit b = false) : Machine.Disciplined a (Machine.frameOf a op data) := by
  cases a with
  | none => exact ⟨op, data, rfl, hop, hd⟩
  | some x =>
    refine ⟨(op &&& 0x7F) :: data, rfl, by simp, ?_⟩
    intro y hy
    rcases List.mem_cons.1 hy with rfl | hy
    · exact (by decide : ∀ x : Addr, highBit (x.setWidth 8) = false) x
    · rcases List.mem_cons.1 hy with rfl | hy
      · exact (by decide : ∀ op : Byte, highBit (op &&& 0x7F) = false) op
      · exact hd y hy

end Sys2Proof
end

