-- ==== Sys2Proof/Laws/State.lean ====
section
/-! SUPPORT. One lemma per field of State per named update, each true by rfl, so that no proof unfolds a record update. -/

namespace Sys2Proof.Machine

@[simp] theorem log_address (e : Event) (s : State) : (s.log e).address = s.address := rfl
@[simp] theorem log_isOpen (e : Event) (s : State) : (s.log e).isOpen = s.isOpen := rfl
@[simp] theorem log_busy (e : Event) (s : State) : (s.log e).busy = s.busy := rfl
@[simp] theorem log_homeOffset (e : Event) (s : State) : (s.log e).homeOffset = s.homeOffset := rfl
@[simp] theorem log_phase (e : Event) (s : State) : (s.log e).phase = s.phase := rfl
@[simp] theorem log_t0 (e : Event) (s : State) : (s.log e).t0 = s.t0 := rfl
@[simp] theorem log_trig (e : Event) (s : State) : (s.log e).trig = s.trig := rfl
@[simp] theorem log_pos (e : Event) (s : State) : (s.log e).pos = s.pos := rfl
@[simp] theorem log_attempts (e : Event) (s : State) : (s.log e).attempts = s.attempts := rfl
@[simp] theorem log_hist (e : Event) (s : State) : (s.log e).hist = s.hist ++ [e] := rfl
@[simp] theorem log_cfg (e : Event) (s : State) : (s.log e).cfg = s.cfg := rfl
@[simp] theorem log_wire (e : Event) (s : State) : (s.log e).wire = s.wire := rfl
@[simp] theorem log_running (e : Event) (s : State) : (s.log e).running = s.running := rfl
@[simp] theorem log_oracle (e : Event) (s : State) : (s.log e).oracle = s.oracle := rfl
@[simp] theorem log_result (e : Event) (s : State) : (s.log e).result = s.result := rfl
@[simp] theorem log_requests (e : Event) (s : State) : (s.log e).requests = s.requests := rfl

@[simp] theorem drew_address (s : State) : s.drew.address = s.address := rfl
@[simp] theorem drew_isOpen (s : State) : s.drew.isOpen = s.isOpen := rfl
@[simp] theorem drew_busy (s : State) : s.drew.busy = s.busy := rfl
@[simp] theorem drew_homeOffset (s : State) : s.drew.homeOffset = s.homeOffset := rfl
@[simp] theorem drew_phase (s : State) : s.drew.phase = s.phase := rfl
@[simp] theorem drew_t0 (s : State) : s.drew.t0 = s.t0 := rfl
@[simp] theorem drew_trig (s : State) : s.drew.trig = s.trig := rfl
@[simp] theorem drew_pos (s : State) : s.drew.pos = s.pos := rfl
@[simp] theorem drew_attempts (s : State) : s.drew.attempts = s.attempts := rfl
@[simp] theorem drew_hist (s : State) : s.drew.hist = s.hist := rfl
@[simp] theorem drew_cfg (s : State) : s.drew.cfg = s.cfg := rfl
@[simp] theorem drew_wire (s : State) : s.drew.wire = s.wire := rfl
@[simp] theorem drew_running (s : State) : s.drew.running = s.running := rfl
@[simp] theorem drew_oracle (s : State) : s.drew.oracle = { s.oracle with drawn := s.oracle.drawn + 1 } := rfl
@[simp] theorem drew_result (s : State) : s.drew.result = s.result := rfl
@[simp] theorem drew_requests (s : State) : s.drew.requests = s.requests := rfl

@[simp] theorem setTrig_address (b : Bool) (s : State) : (setTrig b s).address = s.address := rfl
@[simp] theorem setTrig_isOpen (b : Bool) (s : State) : (setTrig b s).isOpen = s.isOpen := rfl
@[simp] theorem setTrig_busy (b : Bool) (s : State) : (setTrig b s).busy = s.busy := rfl
@[simp] theorem setTrig_homeOffset (b : Bool) (s : State) : (setTrig b s).homeOffset = s.homeOffset := rfl
@[simp] theorem setTrig_phase (b : Bool) (s : State) : (setTrig b s).phase = s.phase := rfl
@[simp] theorem setTrig_t0 (b : Bool) (s : State) : (setTrig b s).t0 = s.t0 := rfl
@[simp] theorem setTrig_trig (b : Bool) (s : State) : (setTrig b s).trig = b := rfl
@[simp] theorem setTrig_pos (b : Bool) (s : State) : (setTrig b s).pos = s.pos := rfl
@[simp] theorem setTrig_attempts (b : Bool) (s : State) : (setTrig b s).attempts = s.attempts := rfl
@[simp] theorem setTrig_hist (b : Bool) (s : State) : (setTrig b s).hist = s.hist := rfl
@[simp] theorem setTrig_cfg (b : Bool) (s : State) : (setTrig b s).cfg = s.cfg := rfl
@[simp] theorem setTrig_wire (b : Bool) (s : State) : (setTrig b s).wire = s.wire := rfl
@[simp] theorem setTrig_running (b : Bool) (s : State) : (setTrig b s).running = s.running := rfl
@[simp] theorem setTrig_oracle (b : Bool) (s : State) : (setTrig b s).oracle = s.oracle := rfl
@[simp] theorem setTrig_result (b : Bool) (s : State) : (setTrig b s).result = s.result := rfl
@[simp] theorem setTrig_requests (b : Bool) (s : State) : (setTrig b s).requests = s.requests := rfl

@[simp] theorem storeHome_address (h : Int) (s : State) : (storeHome h s).address = s.address := rfl
@[simp] theorem storeHome_isOpen (h : Int) (s : State) : (storeHome h s).isOpen = s.isOpen := rfl
@[simp] theorem storeHome_busy (h : Int) (s : State) : (storeHome h s).busy = s.busy := rfl
@[simp] theorem storeHome_homeOffset (h : Int) (s : State) : (storeHome h s).homeOffset = toU32 h := rfl
@[simp] theorem storeHome_phase (h : Int) (s : State) : (storeHome h s).phase = s.phase := rfl
@[simp] theorem storeHome_t0 (h : Int) (s : State) : (storeHome h s).t0 = s.t0 := rfl
@[simp] theorem storeHome_trig (h : Int) (s : State) : (storeHome h s).trig = s.trig := rfl
@[simp] theorem storeHome_pos (h : Int) (s : State) : (storeHome h s).pos = s.pos := rfl
@[simp] theorem storeHome_attempts (h : Int) (s : State) : (storeHome h s).attempts = s.attempts := rfl
@[simp] theorem storeHome_hist (h : Int) (s : State) : (storeHome h s).hist = s.hist := rfl
@[simp] theorem storeHome_cfg (h : Int) (s : State) : (storeHome h s).cfg = s.cfg := rfl
@[simp] theorem storeHome_wire (h : Int) (s : State) : (storeHome h s).wire = s.wire := rfl
@[simp] theorem storeHome_running (h : Int) (s : State) : (storeHome h s).running = s.running := rfl
@[simp] theorem storeHome_oracle (h : Int) (s : State) : (storeHome h s).oracle = s.oracle := rfl
@[simp] theorem storeHome_result (h : Int) (s : State) : (storeHome h s).result = s.result := rfl
@[simp] theorem storeHome_requests (h : Int) (s : State) : (storeHome h s).requests = s.requests := rfl

@[simp] theorem sleep_address (d : Seconds) (s : State) : (sleep d s).address = s.address := rfl
@[simp] theorem sleep_isOpen (d : Seconds) (s : State) : (sleep d s).isOpen = s.isOpen := rfl
@[simp] theorem sleep_busy (d : Seconds) (s : State) : (sleep d s).busy = s.busy := rfl
@[simp] theorem sleep_homeOffset (d : Seconds) (s : State) : (sleep d s).homeOffset = s.homeOffset := rfl
@[simp] theorem sleep_phase (d : Seconds) (s : State) : (sleep d s).phase = s.phase := rfl
@[simp] theorem sleep_t0 (d : Seconds) (s : State) : (sleep d s).t0 = s.t0 := rfl
@[simp] theorem sleep_trig (d : Seconds) (s : State) : (sleep d s).trig = s.trig := rfl
@[simp] theorem sleep_pos (d : Seconds) (s : State) : (sleep d s).pos = s.pos := rfl
@[simp] theorem sleep_attempts (d : Seconds) (s : State) : (sleep d s).attempts = s.attempts := rfl
@[simp] theorem sleep_hist (d : Seconds) (s : State) : (sleep d s).hist = s.hist ++ [.sleep d] := rfl
@[simp] theorem sleep_cfg (d : Seconds) (s : State) : (sleep d s).cfg = s.cfg := rfl
@[simp] theorem sleep_wire (d : Seconds) (s : State) : (sleep d s).wire = s.wire := rfl
@[simp] theorem sleep_running (d : Seconds) (s : State) : (sleep d s).running = s.running := rfl
@[simp] theorem sleep_oracle (d : Seconds) (s : State) : (sleep d s).oracle = s.oracle := rfl
@[simp] theorem sleep_result (d : Seconds) (s : State) : (sleep d s).result = s.result := rfl
@[simp] theorem sleep_requests (d : Seconds) (s : State) : (sleep d s).requests = s.requests := rfl

@[simp] theorem enter_address (op : Instr) (s : State) : (enter op s).address = s.address := rfl
@[simp] theorem enter_isOpen (op : Instr) (s : State) : (enter op s).isOpen = s.isOpen := rfl
@[simp] theorem enter_busy (op : Instr) (s : State) : (enter op s).busy = true := rfl
@[simp] theorem enter_homeOffset (op : Instr) (s : State) : (enter op s).homeOffset = s.homeOffset := rfl
@[simp] theorem enter_phase (op : Instr) (s : State) : (enter op s).phase = s.phase := rfl
@[simp] theorem enter_t0 (op : Instr) (s : State) : (enter op s).t0 = s.t0 := rfl
@[simp] theorem enter_trig (op : Instr) (s : State) : (enter op s).trig = s.trig := rfl
@[simp] theorem enter_pos (op : Instr) (s : State) : (enter op s).pos = s.pos := rfl
@[simp] theorem enter_attempts (op : Instr) (s : State) : (enter op s).attempts = s.attempts := rfl
@[simp] theorem enter_hist (op : Instr) (s : State) : (enter op s).hist = s.hist ++ [.call op] := rfl
@[simp] theorem enter_cfg (op : Instr) (s : State) : (enter op s).cfg = s.cfg := rfl
@[simp] theorem enter_wire (op : Instr) (s : State) : (enter op s).wire = s.wire := rfl
@[simp] theorem enter_running (op : Instr) (s : State) : (enter op s).running = s.running := rfl
@[simp] theorem enter_oracle (op : Instr) (s : State) : (enter op s).oracle = s.oracle := rfl
@[simp] theorem enter_result (op : Instr) (s : State) : (enter op s).result = s.result := rfl
@[simp] theorem enter_requests (op : Instr) (s : State) : (enter op s).requests = s.requests := rfl

@[simp] theorem leave_address (op : Instr) (r : Result) (s : State) : (leave op r s).address = s.address := rfl
@[simp] theorem leave_isOpen (op : Instr) (r : Result) (s : State) : (leave op r s).isOpen = s.isOpen := rfl
@[simp] theorem leave_busy (op : Instr) (r : Result) (s : State) : (leave op r s).busy = false := rfl
@[simp] theorem leave_homeOffset (op : Instr) (r : Result) (s : State) : (leave op r s).homeOffset = s.homeOffset := rfl
@[simp] theorem leave_phase (op : Instr) (r : Result) (s : State) : (leave op r s).phase = s.phase := rfl
@[simp] theorem leave_t0 (op : Instr) (r : Result) (s : State) : (leave op r s).t0 = s.t0 := rfl
@[simp] theorem leave_trig (op : Instr) (r : Result) (s : State) : (leave op r s).trig = s.trig := rfl
@[simp] theorem leave_pos (op : Instr) (r : Result) (s : State) : (leave op r s).pos = s.pos := rfl
@[simp] theorem leave_attempts (op : Instr) (r : Result) (s : State) : (leave op r s).attempts = s.attempts := rfl
@[simp] theorem leave_hist (op : Instr) (r : Result) (s : State) : (leave op r s).hist = s.hist ++ [.ret op r] := rfl
@[simp] theorem leave_cfg (op : Instr) (r : Result) (s : State) : (leave op r s).cfg = s.cfg := rfl
@[simp] theorem leave_wire (op : Instr) (r : Result) (s : State) : (leave op r s).wire = s.wire := rfl
@[simp] theorem leave_running (op : Instr) (r : Result) (s : State) : (leave op r s).running = none := rfl
@[simp] theorem leave_oracle (op : Instr) (r : Result) (s : State) : (leave op r s).oracle = s.oracle := rfl
@[simp] theorem leave_result (op : Instr) (r : Result) (s : State) : (leave op r s).result = some r := rfl
@[simp] theorem leave_requests (op : Instr) (r : Result) (s : State) : (leave op r s).requests = s.requests := rfl

@[simp] theorem teardown_address (s : State) : (teardown s).address = s.address := rfl
@[simp] theorem teardown_isOpen (s : State) : (teardown s).isOpen = false := rfl
@[simp] theorem teardown_busy (s : State) : (teardown s).busy = s.busy := rfl
@[simp] theorem teardown_homeOffset (s : State) : (teardown s).homeOffset = s.homeOffset := rfl
@[simp] theorem teardown_phase (s : State) : (teardown s).phase = s.phase := rfl
@[simp] theorem teardown_t0 (s : State) : (teardown s).t0 = s.t0 := rfl
@[simp] theorem teardown_trig (s : State) : (teardown s).trig = s.trig := rfl
@[simp] theorem teardown_pos (s : State) : (teardown s).pos = s.pos := rfl
@[simp] theorem teardown_attempts (s : State) : (teardown s).attempts = s.attempts := rfl
@[simp] theorem teardown_hist (s : State) : (teardown s).hist = s.hist := rfl
@[simp] theorem teardown_cfg (s : State) : (teardown s).cfg = s.cfg := rfl
@[simp] theorem teardown_wire (s : State) : (teardown s).wire = s.wire := rfl
@[simp] theorem teardown_running (s : State) : (teardown s).running = s.running := rfl
@[simp] theorem teardown_oracle (s : State) : (teardown s).oracle = s.oracle := rfl
@[simp] theorem teardown_result (s : State) : (teardown s).result = s.result := rfl
@[simp] theorem teardown_requests (s : State) : (teardown s).requests = s.requests := rfl

/-- Error delivery changes the phase of the two controller operations alone. -/
@[simp] theorem abort_phase (op : Instr) (e : Error) (s : State) :
    (abort op e s).phase = if op.isController then .idle else s.phase := by
  unfold abort; split <;> rfl

@[simp] theorem abort_address (op : Instr) (e : Error) (s : State) :
    (abort op e s).address = s.address := by unfold abort; split <;> rfl
@[simp] theorem abort_isOpen (op : Instr) (e : Error) (s : State) :
    (abort op e s).isOpen = s.isOpen := by unfold abort; split <;> rfl
@[simp] theorem abort_busy (op : Instr) (e : Error) (s : State) :
    (abort op e s).busy = false := by unfold abort; split <;> rfl
@[simp] theorem abort_homeOffset (op : Instr) (e : Error) (s : State) :
    (abort op e s).homeOffset = s.homeOffset := by unfold abort; split <;> rfl
@[simp] theorem abort_t0 (op : Instr) (e : Error) (s : State) :
    (abort op e s).t0 = s.t0 := by unfold abort; split <;> rfl
@[simp] theorem abort_trig (op : Instr) (e : Error) (s : State) :
    (abort op e s).trig = s.trig := by unfold abort; split <;> rfl
@[simp] theorem abort_pos (op : Instr) (e : Error) (s : State) :
    (abort op e s).pos = s.pos := by unfold abort; split <;> rfl
@[simp] theorem abort_attempts (op : Instr) (e : Error) (s : State) :
    (abort op e s).attempts = s.attempts := by unfold abort; split <;> rfl
@[simp] theorem abort_hist (op : Instr) (e : Error) (s : State) :
    (abort op e s).hist = s.hist ++ [.ret op (.error e)] := by unfold abort; split <;> rfl
@[simp] theorem abort_cfg (op : Instr) (e : Error) (s : State) :
    (abort op e s).cfg = s.cfg := by unfold abort; split <;> rfl
@[simp] theorem abort_wire (op : Instr) (e : Error) (s : State) :
    (abort op e s).wire = s.wire := by unfold abort; split <;> rfl
@[simp] theorem abort_running (op : Instr) (e : Error) (s : State) :
    (abort op e s).running = none := by unfold abort; split <;> rfl
@[simp] theorem abort_oracle (op : Instr) (e : Error) (s : State) :
    (abort op e s).oracle = s.oracle := by unfold abort; split <;> rfl
@[simp] theorem abort_result (op : Instr) (e : Error) (s : State) :
    (abort op e s).result = some (.error e) := by unfold abort; split <;> rfl
@[simp] theorem abort_requests (op : Instr) (e : Error) (s : State) :
    (abort op e s).requests = s.requests := by unfold abort; split <;> rfl

@[simp] theorem settle_going (op : Instr) (s : State) : settle op (.ok .going s) = s := rfl
@[simp] theorem settle_done (op : Instr) (v : Value) (s : State) :
    settle op (.ok (.done v) s) = leave op (.ok v) s := rfl
@[simp] theorem settle_raise (op : Instr) (e : Error) (s : State) : settle op (.raise e s) = abort op e s := rfl

@[simp] theorem andThen_ok {α β : Type} (v : α) (s : State) (k : α → State → Res β) :
    (Res.ok v s).andThen k = k v s := rfl
@[simp] theorem andThen_raise {α β : Type} (e : Error) (s : State) (k : α → State → Res β) :
    (Res.raise e s).andThen k = .raise e s := rfl

end Sys2Proof.Machine
end

