-- ==== Sys2Proof/Laws/Ops.lean ====
section
/-! SUPPORT. What each primitive and each transaction can do, said once: what it answers on a scripted oracle, and that
it changes nothing but the history, the wire and the oracles. -/

namespace Sys2Proof.Machine

/-- The state an ended body leaves. -/
def Res.state {α : Type} : Res α → State
  | .ok _ s => s
  | .raise _ s => s

@[simp] theorem Res.state_ok {α : Type} (v : α) (s : State) : (Res.ok v s).state = s := rfl
@[simp] theorem Res.state_raise {α : Type} (e : Error) (s : State) : (Res.raise e s : Res α).state = s := rfl

/-! ### The wire and the history -/

theorem mayBeOnWire_append {es fs : List Event} {w v : List Byte} (h : MayBeOnWire es w) (k : MayBeOnWire fs v) :
    MayBeOnWire (es ++ fs) (w ++ v) := by
  induction es generalizing w with
  | nil => simp only [MayBeOnWire] at h; subst h; exact k
  | cons e es ih =>
    cases e with
    | tx bs ans =>
      cases ans with
      | ok =>
        obtain ⟨w', rfl, h⟩ := h
        exact ⟨w' ++ v, by simp, ih h⟩
      | err =>
        obtain ⟨n, w', rfl, h⟩ := h
        exact ⟨n, w' ++ v, by simp, ih h⟩
    | rx _ _ => exact ih h
    | now _ => exact ih h
    | sleep _ => exact ih h
    | call _ => exact ih h
    | ret _ _ => exact ih h

theorem everyTx_append {P : List Byte → Prop} {es fs : List Event} (h : EveryTx P es) (k : EveryTx P fs) :
    EveryTx P (es ++ fs) := by
  intro bs ans hm
  rcases List.mem_append.1 hm with hm | hm
  · exact h bs ans hm
  · exact k bs ans hm

theorem everyTx_nil {P : List Byte → Prop} : EveryTx P [] := fun _ _ h => absurd h (by simp)

/-- Events other than writes satisfy every claim about writes. -/
theorem everyTx_single {P : List Byte → Prop} {e : Event} (h : ∀ bs ans, e ≠ .tx bs ans) : EveryTx P [e] := by
  intro bs ans hm
  exact absurd (List.mem_singleton.1 hm).symm (h bs ans)

theorem ioEvents_append {P : List Byte → Prop} {es fs : List Event} (h : IoEvents P es) (k : IoEvents P fs) :
    IoEvents P (es ++ fs) :=
  ⟨everyTx_append h.1 k.1, fun op r => by simp [h.2 op r, k.2 op r]⟩

theorem ioEvents_nil {P : List Byte → Prop} : IoEvents P [] := ⟨everyTx_nil, by simp⟩

theorem IoOnly.refl {P : List Byte → Prop} (s : State) : IoOnly P s s :=
  ⟨rfl, [], [], by simp, by simp, rfl, ioEvents_nil⟩

theorem IoOnly.trans {P : List Byte → Prop} {s t u : State} (h : IoOnly P s t) (k : IoOnly P t u) : IoOnly P s u := by
  obtain ⟨hr, es, w, he, hw, hm, ht⟩ := h
  obtain ⟨kr, fs, v, ke, kw, km, kt⟩ := k
  refine ⟨?_, es ++ fs, w ++ v, ?_, ?_, mayBeOnWire_append hm km, ioEvents_append ht kt⟩
  · rw [kr, hr]
  · rw [ke, he, List.append_assoc]
  · rw [kw, hw, List.append_assoc]

section Fields
variable {P : List Byte → Prop} {s t : State} (h : IoOnly P s t)
include h

theorem IoOnly.address : t.address = s.address := by rw [h.rest]
theorem IoOnly.isOpen : t.isOpen = s.isOpen := by rw [h.rest]
theorem IoOnly.busy : t.busy = s.busy := by rw [h.rest]
theorem IoOnly.homeOffset : t.homeOffset = s.homeOffset := by rw [h.rest]
theorem IoOnly.phase : t.phase = s.phase := by rw [h.rest]
theorem IoOnly.t0 : t.t0 = s.t0 := by rw [h.rest]
theorem IoOnly.trig : t.trig = s.trig := by rw [h.rest]
theorem IoOnly.pos : t.pos = s.pos := by rw [h.rest]
theorem IoOnly.attempts : t.attempts = s.attempts := by rw [h.rest]
theorem IoOnly.cfg : t.cfg = s.cfg := by rw [h.rest]
theorem IoOnly.running : t.running = s.running := by rw [h.rest]
theorem IoOnly.result : t.result = s.result := by rw [h.rest]
theorem IoOnly.requests : t.requests = s.requests := by rw [h.rest]

end Fields

/-! ### Draws -/

theorem txDraw_rest {s s' : State} {a : TxScript} (h : s.txDraw = (a, s')) : ∃ o, s' = { s with oracle := o } := by
  unfold State.txDraw at h; split at h <;> exact ⟨_, (congrArg Prod.snd h).symm⟩

theorem rxDraw_rest {n : Nat} {s s' : State} {a : RxAnswer} (h : s.rxDraw n = (a, s')) :
    ∃ o, s' = { s with oracle := o } := by
  unfold State.rxDraw at h; split at h <;> exact ⟨_, (congrArg Prod.snd h).symm⟩

theorem clockDraw_rest {s s' : State} {t : Reading} (h : s.clockDraw = (t, s')) :
    ∃ o, s' = { s with oracle := o } := by
  unfold State.clockDraw at h; split at h <;> exact ⟨_, (congrArg Prod.snd h).symm⟩

theorem openDraw_rest {s s' : State} {b : Bool} (h : s.openDraw = (b, s')) : ∃ o, s' = { s with oracle := o } := by
  unfold State.openDraw at h; split at h <;> exact ⟨_, (congrArg Prod.snd h).symm⟩

/-- A read is never answered with more bytes than were asked for (R10). -/
theorem rxDraw_length {n : Nat} {s : State} {bs : List Byte} (h : (s.rxDraw n).1 = .ok bs) : bs.length ≤ n := by
  have key : ∀ a : RxAnswer, a.upTo n = .ok bs → bs.length ≤ n := by
    intro a ha
    cases a with
    | ok cs =>
      simp only [RxAnswer.upTo, RxAnswer.ok.injEq] at ha
      rw [← ha]; simp
    | err => simp [RxAnswer.upTo] at ha
  unfold State.rxDraw at h
  split at h
  · exact key _ h
  · exact key _ h

/-! ### Primitives on a scripted oracle -/

theorem tx_scripted_ok {s : State} {o : Oracle} (bs : List Byte) (h : s.oracle = { o with tx := .ok :: o.tx }) :
    tx bs s = .ok () { s with oracle := o, wire := s.wire ++ bs, hist := s.hist ++ [.tx bs .ok] } := by
  simp [tx, State.txDraw, h, State.log]

theorem tx_scripted_err {s : State} {o : Oracle} {n : Nat} (bs : List Byte)
    (h : s.oracle = { o with tx := .err n :: o.tx }) :
    tx bs s
      = .raise .transport
          { s with oracle := o, wire := s.wire ++ bs.take n, hist := s.hist ++ [.tx bs .err] } := by
  simp [tx, State.txDraw, h, State.log]

theorem rx_scripted_ok {s : State} {o : Oracle} {bs : List Byte} {n : Nat}
    (h : s.oracle = { o with rx := .ok bs :: o.rx }) (hn : bs.length ≤ n) :
    rx n s = .ok bs { s with oracle := o, hist := s.hist ++ [.rx n (.ok bs)] } := by
  simp [rx, State.rxDraw, h, State.log, RxAnswer.upTo, List.take_of_length_le hn]

theorem rx_scripted_err {s : State} {o : Oracle} {n : Nat} (h : s.oracle = { o with rx := .err :: o.rx }) :
    rx n s = .raise .transport { s with oracle := o, hist := s.hist ++ [.rx n .err] } := by
  simp [rx, State.rxDraw, h, State.log, RxAnswer.upTo]

theorem now_scripted {s : State} {o : Oracle} {t : Reading} (h : s.oracle = { o with clock := t :: o.clock })
    (ht : 0 ≤ t.value) : now s = (t, { s with oracle := o, hist := s.hist ++ [.now t] }) := by
  simp [now, State.clockDraw, h, State.log, asReading_of_nonneg ht]

/-! ### What each can do -/

theorem tx_io {P : List Byte → Prop} {bs : List Byte} (hP : P bs) (s : State) : IoOnly P s (tx bs s).state := by
  have one : ∀ ans, IoEvents P [.tx bs ans] := by
    refine fun ans => ⟨fun b a hm => ?_, by simp⟩
    simp only [List.mem_singleton, Event.tx.injEq] at hm
    exact hm.1 ▸ hP
  unfold tx
  split <;> rename_i h <;> obtain ⟨o, rfl⟩ := txDraw_rest h
  · exact ⟨rfl, [.tx bs .ok], bs, rfl, rfl, ⟨[], by simp, rfl⟩, one _⟩
  · exact ⟨rfl, [.tx bs .err], _, rfl, rfl, ⟨_, [], (List.append_nil _).symm, rfl⟩, one _⟩

/-- Appending an event of a primitive that is no write is input and output alone. -/
theorem log_io {P : List Byte → Prop} (s : State) {e : Event} (he : ∀ bs ans, e ≠ .tx bs ans)
    (hf : ∀ op r, e ≠ .call op ∧ e ≠ .ret op r) : IoOnly P s (s.log e) := by
  refine ⟨rfl, [e], [], rfl, by simp, ?_, ⟨everyTx_single he, fun op r => ?_⟩⟩
  swap
  · simp [(hf op r).1.symm, (hf op r).2.symm]
  cases e with
  | tx bs ans => exact absurd rfl (he bs ans)
  | _ => rfl

theorem oracle_io {P : List Byte → Prop} (s : State) (o : Oracle) : IoOnly P s { s with oracle := o } :=
  ⟨rfl, [], [], by simp, by simp, rfl, ioEvents_nil⟩

theorem rx_io {P : List Byte → Prop} (n : Nat) (s : State) : IoOnly P s (rx n s).state := by
  unfold rx
  split <;> rename_i h <;> obtain ⟨o, rfl⟩ := rxDraw_rest h
  · exact (oracle_io s o).trans (log_io _ (by simp) (by simp))
  · exact (oracle_io s o).trans (log_io _ (by simp) (by simp))

theorem now_io {P : List Byte → Prop} (s : State) : IoOnly P s (now s).2 := by
  unfold now
  split; rename_i h; obtain ⟨o, rfl⟩ := clockDraw_rest h
  exact (oracle_io s o).trans (log_io _ (by simp) (by simp))

theorem sleep_io {P : List Byte → Prop} (d : Seconds) (s : State) : IoOnly P s (sleep d s) := log_io s (by simp) (by simp)

theorem andThen_io {P : List Byte → Prop} {α β : Type} {s : State} {r : Res α} {k : α → State → Res β}
    (h : IoOnly P s r.state) (hk : ∀ v t, r = .ok v t → IoOnly P t (k v t).state) :
    IoOnly P s (r.andThen k).state := by
  cases r with
  | ok v t => exact h.trans (hk v t rfl)
  | raise e t => exact h

/-! ### Transactions -/

theorem send_eq (op : Byte) (data : List Byte) (s : State) : send op data s = tx (frameOf s.address op data) s := by
  unfold send; rw [encodeCommand_session]

theorem sendInt32_eq (op : Byte) (v : Int) (s : State) :
    sendInt32 op v s
      = if InInt32 v then tx (frameOf s.address op (pack7 (toU32 v))) s
        else .raise (.encoding .outOfRange) s := by
  unfold sendInt32 encodeInt32
  by_cases h : InInt32 v
  · simp only [if_pos h, send_eq]
  · simp only [if_neg h]

theorem memRead_eq (offset length : Byte) (s : State) :
    memRead offset length s
      = (tx (frameOf s.address 0xA1 [offset, length]) s).andThen fun _ s' =>
          (rx length.toNat s').andThen fun bs s'' =>
            if bs.length < length.toNat then .raise (.protocol .shortRead) s'' else .ok bs s'' := by
  unfold memRead encodeVarRead; rw [encodeCommand_session]

theorem send_io {P : List Byte → Prop} {op : Byte} {data : List Byte} {s : State}
    (hP : P (frameOf s.address op data)) : IoOnly P s (send op data s).state := by
  rw [send_eq]; exact tx_io hP s

theorem sendInt32_io {P : List Byte → Prop} {op : Byte} {v : Int} {s : State}
    (hP : P (frameOf s.address op (pack7 (toU32 v)))) : IoOnly P s (sendInt32 op v s).state := by
  rw [sendInt32_eq]; split
  · exact tx_io hP s
  · exact IoOnly.refl s

theorem memRead_io {P : List Byte → Prop} {offset length : Byte} {s : State}
    (hP : P (frameOf s.address 0xA1 [offset, length])) : IoOnly P s (memRead offset length s).state := by
  rw [memRead_eq]
  refine andThen_io (tx_io hP s) fun _ t _ => andThen_io (rx_io _ t) fun bs u _ => ?_
  split <;> exact IoOnly.refl u

/-- A variable read that answers, answers exactly the bytes asked for (R163). -/
theorem memRead_length {offset length : Byte} {s t : State} {bs : List Byte}
    (h : memRead offset length s = .ok bs t) : bs.length = length.toNat := by
  rw [memRead_eq] at h
  cases h1 : tx (frameOf s.address 0xA1 [offset, length]) s with
  | raise e u => rw [h1] at h; simp at h
  | ok v u =>
    rw [h1] at h
    simp only [andThen_ok] at h
    have hle : ∀ cs w, rx length.toNat u = .ok cs w → cs.length ≤ length.toNat := by
      intro cs w hr
      unfold rx at hr
      split at hr
      · rename_i cs' u' hd
        have hcs : cs' = cs := by simpa using congrArg (fun r => match r with | Res.ok v _ => v | _ => []) hr
        exact hcs ▸ rxDraw_length (by rw [hd])
      · simp at hr
    cases h2 : rx length.toNat u with
    | raise e w => rw [h2] at h; simp at h
    | ok cs w =>
      rw [h2] at h
      simp only [andThen_ok] at h
      split at h
      · simp at h
      · have := hle cs w h2
        simp only [Res.ok.injEq] at h
        rw [← h.1]; omega

end Sys2Proof.Machine
end

