-- ==== Sys2Proof/Laws/Homing.lean ====
section
/-! SUPPORT. What the bodies of the session verbs and one turn of a controller operation can do, said once. -/

namespace Sys2Proof.Machine

/-- P holds of every frame of a table opcode with seven-bit data in the framing of `a`: of every frame the block's own
operations write (R81, R82). -/
def Admits (P : List Byte → Prop) (a : Option Addr) : Prop :=
  ∀ op data, (arity op).isSome = true → (∀ b ∈ data, highBit b = false) → P (frameOf a op data)

theorem admits_true (a : Option Addr) : Admits (fun _ => True) a := fun _ _ _ _ => trivial

theorem admits_disciplined (a : Option Addr) : Admits (Disciplined a) a := fun op data hop hd =>
  disciplined_frameOf a op data ((by decide : ∀ op : Byte, (arity op).isSome = true → highBit op = true) op hop) hd

section Bodies
variable {P : List Byte → Prop} {s : State} (hP : Admits P s.address)
include hP

theorem exitSafeStartBody_io : IoOnly P s (exitSafeStartBody s).state :=
  send_io (hP 0x83 [] rfl (by simp))

theorem energizeBody_io : IoOnly P s (energizeBody s).state :=
  send_io (hP 0x85 [] rfl (by simp))

theorem setTargetBody_io (v : Int) : IoOnly P s (setTargetBody v s).state :=
  sendInt32_io (hP 0xE0 _ rfl (highBit_pack7 _))

theorem readPosition_io : IoOnly P s (readPosition s).state :=
  andThen_io (memRead_io (hP 0xA1 _ rfl (by decide))) fun _ t _ => IoOnly.refl t

theorem readSwitch_io : IoOnly P s (readSwitch s).state :=
  andThen_io (memRead_io (hP 0xA1 _ rfl (by decide))) fun _ t _ => IoOnly.refl t

end Bodies

/-- What a turn of a controller operation leaves alone: the session's address, its being open and busy, its parameters,
the host's pending requests and last result; the history and the wire only grow. -/
structure TurnFrame (P : List Byte → Prop) (s t : State) : Prop where
  address : t.address = s.address
  isOpen : t.isOpen = s.isOpen
  busy : t.busy = s.busy
  cfg : t.cfg = s.cfg
  requests : t.requests = s.requests
  result : t.result = s.result
  grows : ∃ es w, t.hist = s.hist ++ es ∧ t.wire = s.wire ++ w ∧ MayBeOnWire es w ∧ IoEvents P es

theorem IoOnly.turnFrame {P : List Byte → Prop} {s t : State} (h : IoOnly P s t) : TurnFrame P s t :=
  ⟨h.address, h.isOpen, h.busy, h.cfg, h.requests, h.result, h.grows⟩

theorem TurnFrame.trans {P : List Byte → Prop} {s t u : State} (h : TurnFrame P s t) (k : TurnFrame P t u) :
    TurnFrame P s u := by
  obtain ⟨es, w, he, hw, hm, ht⟩ := h.grows
  obtain ⟨fs, v, ke, kw, km, kt⟩ := k.grows
  exact ⟨k.address.trans h.address, k.isOpen.trans h.isOpen, k.busy.trans h.busy, k.cfg.trans h.cfg,
    k.requests.trans h.requests, k.result.trans h.result, es ++ fs, w ++ v, by rw [ke, he, List.append_assoc],
    by rw [kw, hw, List.append_assoc], mayBeOnWire_append hm km, ioEvents_append ht kt⟩

/-- Changing controller registers alone is within the frame of a turn. -/
theorem turnFrame_registers {P : List Byte → Prop} (s : State) (ph : Phase) (h : I32) (q : Reading) (b : Bool) (p : I32)
    (n : Nat) (r : Option Running) :
    TurnFrame P s
      { s with phase := ph, homeOffset := h, t0 := q, trig := b, pos := p, attempts := n, running := r } :=
  ⟨rfl, rfl, rfl, rfl, rfl, rfl, [], [], by simp, by simp, rfl, ioEvents_nil⟩

/-- What a turn of `go_home`'s loop can end in (R214–R216). -/
def HomeTurnEnd (P : List Byte → Prop) (prev : Phase) (recovering : Bool) (s : State) : Res Progress → Prop
  | .ok .going t =>
    TurnFrame P s t ∧ t.phase = s.phase ∧ t.running = s.running ∧ t.homeOffset = s.homeOffset
      ∧ t.attempts = s.attempts + 1 ∧ t.t0 = s.t0 ∧ t.trig = s.trig ∧ t.pos = s.pos
  | .ok (.done v) t =>
    TurnFrame P s t ∧ t.phase = prev ∧ t.homeOffset = s.homeOffset ∧ t.t0 = s.t0 ∧ t.trig = s.trig ∧ t.pos = s.pos
      ∧ (v = homeValue recovering .reached
        ∨ v = homeValue recovering .homingFailed ∧ s.cfg.goHomeMaxAttempts = some s.attempts)
  | .raise _ t =>
    TurnFrame P s t ∧ t.homeOffset = s.homeOffset ∧ t.t0 = s.t0 ∧ t.trig = s.trig ∧ t.pos = s.pos

theorem homeTurn_ends {P : List Byte → Prop} (prev : Phase) (recovering : Bool) {s : State} (hP : Admits P s.address) :
    HomeTurnEnd P prev recovering s (homeTurn prev recovering s) := by
  unfold homeTurn
  split
  · rename_i hc
    exact ⟨turnFrame_registers s prev s.homeOffset s.t0 s.trig s.pos s.attempts s.running, rfl, rfl, rfl, rfl, rfl,
      .inr ⟨rfl, hc⟩⟩
  · have h1 := setTargetBody_io hP (toS32 s.homeOffset)
    cases e1 : setTargetBody (toS32 s.homeOffset) s with
    | raise e t =>
      rw [e1] at h1
      exact ⟨h1.turnFrame, h1.homeOffset, h1.t0, h1.trig, h1.pos⟩
    | ok v t =>
      rw [e1] at h1
      simp only [Res.state_ok] at h1
      simp only [andThen_ok]
      have h2 := readPosition_io (s := t) (P := P) (by rw [h1.address]; exact hP)
      cases e2 : readPosition t with
      | raise e u =>
        rw [e2] at h2
        have h := h1.trans h2
        exact ⟨h.turnFrame, h.homeOffset, h.t0, h.trig, h.pos⟩
      | ok p u =>
        rw [e2] at h2
        have h := h1.trans h2
        simp only [Res.state_ok] at h
        simp only [andThen_ok]
        split
        · exact ⟨h.turnFrame.trans
              (turnFrame_registers u prev u.homeOffset u.t0 u.trig u.pos (u.attempts + 1) u.running),
            rfl, h.homeOffset, h.t0, h.trig, h.pos, .inl rfl⟩
        · refine ⟨h.turnFrame.trans
              (turnFrame_registers u u.phase u.homeOffset u.t0 u.trig u.pos (u.attempts + 1) u.running),
            h.phase, h.running, h.homeOffset, ?_, h.t0, h.trig, h.pos⟩
          simp only [h.attempts]

/-- What the entry of `go_home` can end in, with the first turn of its loop: as a turn from Homing with no attempt
counted. -/
theorem homeStart_ends {P : List Byte → Prop} (recovering : Bool) {s : State} (hP : Admits P s.address) :
    HomeTurnEnd P s.phase recovering
      { s with phase := .homing, attempts := 0, running := some (.homing s.phase recovering) }
      (homeStart recovering s) :=
  homeTurn_ends (s := { s with phase := .homing, attempts := 0, running := some (.homing s.phase recovering) })
    s.phase recovering hP

/-- What the Found action can end in (R207): the home is written only by the successful return. -/
def FoundEnd (P : List Byte → Prop) (s : State) : Res Progress → Prop
  | .ok .going _ => False
  | .ok (.done v) t =>
    TurnFrame P s t ∧ v = .found ∧ t.phase = .found ∧ t.t0 = s.t0 ∧ t.trig = s.trig ∧ t.pos = s.pos
      ∧ t.attempts = s.attempts ∧ ∃ p, t.homeOffset = toU32 (p + s.cfg.calOffset)
  | .raise _ t =>
    TurnFrame P s t ∧ t.homeOffset = s.homeOffset ∧ t.t0 = s.t0 ∧ t.trig = s.trig ∧ t.pos = s.pos
      ∧ t.attempts = s.attempts

theorem foundAction_ends {P : List Byte → Prop} {s : State} (hP : Admits P s.address) :
    FoundEnd P s (foundAction s) := by
  unfold foundAction
  have h0 : TurnFrame P s { s with phase := .found } :=
    turnFrame_registers s .found s.homeOffset s.t0 s.trig s.pos s.attempts s.running
  have h1 := readPosition_io (s := { s with phase := .found }) (P := P) hP
  cases e1 : readPosition { s with phase := .found } with
  | raise e t =>
    rw [e1] at h1
    exact ⟨h0.trans h1.turnFrame, h1.homeOffset, h1.t0, h1.trig, h1.pos, h1.attempts⟩
  | ok p t =>
    rw [e1] at h1
    simp only [Res.state_ok] at h1
    simp only [andThen_ok]
    have h2 := setTargetBody_io (s := t) (P := P) (by rw [h1.address]; exact hP) (p + t.cfg.calOffset)
    cases e2 : setTargetBody (p + t.cfg.calOffset) t with
    | raise e u =>
      rw [e2] at h2
      have h := h1.trans h2
      exact ⟨h0.trans h.turnFrame, h.homeOffset, h.t0, h.trig, h.pos, h.attempts⟩
    | ok v u =>
      rw [e2] at h2
      have h := h1.trans h2
      simp only [Res.state_ok] at h
      refine ⟨(h0.trans h.turnFrame).trans
          (turnFrame_registers u u.phase (toU32 (p + u.cfg.calOffset)) u.t0 u.trig u.pos u.attempts u.running),
        rfl, h.phase, h.t0, h.trig, h.pos, h.attempts, p, ?_⟩
      simp only [storeHome_homeOffset, h.cfg]

/-- What a poll can end in (R204). -/
def PollEnd (P : List Byte → Prop) (s : State) : Res Progress → Prop
  | .ok .going t =>
    TurnFrame P s t ∧ t.phase = s.phase ∧ t.running = s.running ∧ t.homeOffset = s.homeOffset ∧ t.t0 = s.t0
      ∧ t.attempts = s.attempts
  | .ok (.done _) _ => False
  | .raise _ t => TurnFrame P s t ∧ t.homeOffset = s.homeOffset ∧ t.t0 = s.t0 ∧ t.attempts = s.attempts

theorem poll_ends {P : List Byte → Prop} {s : State} (hP : Admits P s.address) : PollEnd P s (poll s) := by
  unfold poll
  have h1 := readPosition_io (s := s) (P := P) hP
  cases e1 : readPosition s with
  | raise e t =>
    rw [e1] at h1
    exact ⟨h1.turnFrame, h1.homeOffset, h1.t0, h1.attempts⟩
  | ok p t =>
    rw [e1] at h1
    simp only [Res.state_ok] at h1
    simp only [andThen_ok]
    have h2 := setTargetBody_io (s := { t with pos := toU32 p }) (P := P)
      (by show Admits P t.address; rw [h1.address]; exact hP) (p - t.cfg.stepSize)
    have k0 : TurnFrame P t { t with pos := toU32 p } :=
      turnFrame_registers t t.phase t.homeOffset t.t0 t.trig (toU32 p) t.attempts t.running
    have k1 := h1.turnFrame.trans k0
    cases e2 : setTargetBody (p - t.cfg.stepSize) { t with pos := toU32 p } with
    | raise e u =>
      rw [e2] at h2
      exact ⟨k1.trans h2.turnFrame, h2.homeOffset.trans h1.homeOffset, h2.t0.trans h1.t0,
        h2.attempts.trans h1.attempts⟩
    | ok v u =>
      rw [e2] at h2
      simp only [Res.state_ok] at h2
      simp only [andThen_ok]
      have h3 := h2.trans (sleep_io u.cfg.pollSettle u)
      have ha : (sleep u.cfg.pollSettle u).address = s.address := h3.address.trans h1.address
      have h4 := h3.trans (readSwitch_io (s := sleep u.cfg.pollSettle u) (P := P) (by rw [ha]; exact hP))
      cases e3 : readSwitch (sleep u.cfg.pollSettle u) with
      | raise e w =>
        rw [e3] at h4
        exact ⟨k1.trans h4.turnFrame, h4.homeOffset.trans h1.homeOffset, h4.t0.trans h1.t0,
          h4.attempts.trans h1.attempts⟩
      | ok b w =>
        rw [e3] at h4
        simp only [Res.state_ok] at h4
        exact ⟨(k1.trans h4.turnFrame).trans
            (turnFrame_registers w w.phase w.homeOffset w.t0 b w.pos w.attempts w.running),
          h4.phase.trans h1.phase, h4.running.trans h1.running, h4.homeOffset.trans h1.homeOffset,
          h4.t0.trans h1.t0, h4.attempts.trans h1.attempts⟩

/-- What a turn of `calibrate` that is in progress, or its entry, can end in: it goes on probing, in phase `ph`; it goes on with the
recovery of R208; it returns found with a new home, or timed out with the old; or it raises with the old home. -/
def CalibrateTurnEnd (P : List Byte → Prop) (ph : Phase) (s : State) : Res Progress → Prop
  | .ok .going t =>
    TurnFrame P s t ∧ t.homeOffset = s.homeOffset
      ∧ (t.phase = ph ∧ t.running = some .probing
        ∨ t.phase = .homing ∧ t.running = some (.homing .timedOut true))
  | .ok (.done v) t =>
    TurnFrame P s t
      ∧ (v = .found ∧ t.phase = .found
        ∨ (∃ r, v = .timedOut r) ∧ t.phase = .timedOut ∧ t.homeOffset = s.homeOffset)
  | .raise _ t => TurnFrame P s t ∧ t.homeOffset = s.homeOffset

theorem FoundEnd.calibrateTurnEnd {P : List Byte → Prop} {ph : Phase} {s t : State} (h : TurnFrame P s t)
    (hh : t.homeOffset = s.homeOffset) {r : Res Progress} (k : FoundEnd P t r) : CalibrateTurnEnd P ph s r := by
  match r with
  | .ok .going u => exact False.elim k
  | .ok (.done v) u => exact ⟨h.trans k.1, .inl ⟨k.2.1, k.2.2.1⟩⟩
  | .raise e u => exact ⟨h.trans k.1, k.2.1.trans hh⟩

theorem timedOutAction_ends {P : List Byte → Prop} {ph : Phase} {s : State} (hP : Admits P s.address) :
    CalibrateTurnEnd P ph s (timedOutAction s) := by
  unfold timedOutAction
  split
  · have h0 : TurnFrame P s
        { s with phase := .homing, attempts := 0, running := some (.homing .timedOut true) } :=
      turnFrame_registers s .homing s.homeOffset s.t0 s.trig s.pos 0 (some (.homing .timedOut true))
    have k := homeStart_ends (P := P) true (s := { s with phase := .timedOut }) hP
    match hr : homeStart true { s with phase := .timedOut }, k with
    | .ok .going u, k => exact ⟨h0.trans k.1, k.2.2.2.1, .inr ⟨k.2.1, k.2.2.1⟩⟩
    | .ok (.done v) u, k =>
      refine ⟨h0.trans k.1, .inr ⟨?_, k.2.1, k.2.2.1⟩⟩
      rcases k.2.2.2.2.2.2 with hv | ⟨hv, _⟩
      · exact ⟨_, hv⟩
      · exact ⟨_, hv⟩
    | .raise e u, k => exact ⟨h0.trans k.1, k.2.1⟩
  · exact ⟨turnFrame_registers s .timedOut s.homeOffset s.t0 s.trig s.pos s.attempts s.running,
      .inr ⟨⟨none, rfl⟩, rfl, rfl⟩⟩

theorem CalibrateTurnEnd.after {P : List Byte → Prop} {ph : Phase} {s t : State} (h : TurnFrame P s t)
    (hh : t.homeOffset = s.homeOffset) {r : Res Progress} (k : CalibrateTurnEnd P ph t r) : CalibrateTurnEnd P ph s r := by
  match r with
  | .ok .going u => exact ⟨h.trans k.1, k.2.1.trans hh, k.2.2⟩
  | .ok (.done v) u =>
    refine ⟨h.trans k.1, ?_⟩
    rcases k.2 with k | ⟨k1, k2, k3⟩
    · exact .inl k
    · exact .inr ⟨k1, k2, k3.trans hh⟩
  | .raise e u => exact ⟨h.trans k.1, k.2.trans hh⟩

/-- A turn of the probing loop, in a state where that loop runs. -/
theorem probeTurn_ends {P : List Byte → Prop} {s : State} (hP : Admits P s.address)
    (hr : s.running = some .probing) : CalibrateTurnEnd P s.phase s (probeTurn s) := by
  unfold probeTurn
  have h0 := now_io (P := P) s
  split
  rename_i t u hn
  rw [hn] at h0
  simp only at h0
  have hu : Admits P u.address := by rw [h0.address]; exact hP
  split
  · have k := poll_ends hu
    match hp : poll u, k with
    | .ok .going w, k =>
      exact ⟨h0.turnFrame.trans k.1, k.2.2.2.1.trans h0.homeOffset,
        .inl ⟨k.2.1.trans h0.phase, k.2.2.1.trans (h0.running.trans hr)⟩⟩
    | .ok (.done v) w, k => exact False.elim k
    | .raise e w, k => exact ⟨h0.turnFrame.trans k.1, k.2.1.trans h0.homeOffset⟩
  · split
    · exact (foundAction_ends hu).calibrateTurnEnd h0.turnFrame h0.homeOffset
    · exact (timedOutAction_ends hu).after h0.turnFrame h0.homeOffset

/-- The entry of `calibrate`. -/
theorem calibrateStart_ends {P : List Byte → Prop} {s : State} (hP : Admits P s.address) :
    CalibrateTurnEnd P .probing s (calibrateStart s) := by
  unfold calibrateStart
  have h0 := now_io (P := P) s
  split
  rename_i t u hn
  rw [hn] at h0
  simp only at h0
  have hu : Admits P u.address := by rw [h0.address]; exact hP
  have h1 : TurnFrame P u { u with t0 := t, phase := .probing } :=
    turnFrame_registers u .probing u.homeOffset t u.trig u.pos u.attempts u.running
  have h2 := exitSafeStartBody_io (P := P) (s := { u with t0 := t, phase := .probing }) hu
  have k1 := h0.turnFrame.trans h1
  cases e1 : exitSafeStartBody { u with t0 := t, phase := .probing } with
  | raise e w =>
    rw [e1] at h2
    exact ⟨k1.trans h2.turnFrame, h2.homeOffset.trans h0.homeOffset⟩
  | ok v w =>
    rw [e1] at h2
    simp only [Res.state_ok] at h2
    simp only [andThen_ok]
    have hw : Admits P w.address := by rw [h2.address]; exact hu
    have h3 := h2.trans (readSwitch_io hw)
    cases e2 : readSwitch w with
    | raise e x =>
      rw [e2] at h3
      exact ⟨k1.trans h3.turnFrame, h3.homeOffset.trans h0.homeOffset⟩
    | ok b x =>
      rw [e2] at h3
      simp only [Res.state_ok] at h3
      simp only [andThen_ok]
      have hx : Admits P x.address := by rw [h3.address]; exact hu
      have k2 : TurnFrame P s (setTrig b x) :=
        (k1.trans h3.turnFrame).trans
          (turnFrame_registers x x.phase x.homeOffset x.t0 b x.pos x.attempts x.running)
      have hh : (setTrig b x).homeOffset = s.homeOffset := h3.homeOffset.trans h0.homeOffset
      split
      · exact (foundAction_ends (s := setTrig b x) hx).calibrateTurnEnd k2 hh
      · exact ⟨k2.trans
            (turnFrame_registers _ _ _ _ _ _ _ (some Running.probing)), hh, .inl ⟨h3.phase, rfl⟩⟩

/-! ### The bodies on a scripted oracle -/

section Scripted
variable {s : State} {o : Oracle}

theorem setTargetBody_scripted {v : Int} (hv : InInt32 v) (h : s.oracle = { o with tx := .ok :: o.tx }) :
    setTargetBody v s
      = .ok () { s with
          oracle := o, wire := s.wire ++ targetFrame s.address v,
          hist := s.hist ++ [.tx (targetFrame s.address v) .ok] } := by
  unfold setTargetBody
  rw [sendInt32_eq, if_pos hv]
  exact tx_scripted_ok _ h

theorem readPosition_scripted {p : Int} (hp : InInt32 p)
    (h : s.oracle = { o with tx := .ok :: o.tx, rx := .ok (le4 p) :: o.rx }) :
    readPosition s
      = .ok p { s with
          oracle := o, wire := s.wire ++ positionRequest s.address,
          hist := s.hist ++ positionEvents s.address p } := by
  unfold readPosition
  rw [memRead_eq, tx_scripted_ok (o := { o with rx := .ok (le4 p) :: o.rx }) _ (by rw [h])]
  simp only [andThen_ok]
  rw [rx_scripted_ok (o := o) (bs := le4 p) rfl (by simp [varPosition, le4])]
  have hl : ¬ (le4 p).length < varPosition.2.toNat := by simp [le4, varPosition]
  simp only [andThen_ok, if_neg hl, decodeInt32_le4 hp, List.append_assoc]
  rfl

theorem readSwitch_scripted {w : Byte × Byte}
    (h : s.oracle = { o with tx := .ok :: o.tx, rx := .ok [w.1, w.2] :: o.rx }) :
    readSwitch s
      = .ok (decodeLimitSwitch s.cfg [w.1, w.2]) { s with
          oracle := o, wire := s.wire ++ statusRequest s.address,
          hist := s.hist ++ switchEvents s.address w } := by
  unfold readSwitch
  rw [memRead_eq, tx_scripted_ok (o := { o with rx := .ok [w.1, w.2] :: o.rx }) _ (by rw [h])]
  simp only [andThen_ok]
  rw [rx_scripted_ok (o := o) (bs := [w.1, w.2]) rfl (by simp [varStatus])]
  have hl : ¬ [w.1, w.2].length < varStatus.2.toNat := by simp [varStatus]
  simp only [andThen_ok, if_neg hl, List.append_assoc]
  rfl

theorem setTargetBody_outOfRange {v : Int} (hv : ¬ InInt32 v) :
    setTargetBody v s = .raise (.encoding .outOfRange) s := by
  unfold setTargetBody; rw [sendInt32_eq, if_neg hv]

theorem setTargetBody_scripted_err {v : Int} {n : Nat} (hv : InInt32 v) (h : s.oracle = { o with tx := .err n :: o.tx }) :
    setTargetBody v s
      = .raise .transport { s with
          oracle := o, wire := s.wire ++ (targetFrame s.address v).take n,
          hist := s.hist ++ [.tx (targetFrame s.address v) .err] } := by
  unfold setTargetBody
  rw [sendInt32_eq, if_pos hv]
  simp [tx, State.txDraw, h, State.log, targetFrame]

/-- A variable read that fails, in whichever way (R163): what it raises and leaves. -/
theorem memRead_scripted_err {offset length : Byte} {f : ReadFailure} (hf : f.Fits length.toNat)
    (h : s.oracle = { o with tx := f.tx ++ o.tx, rx := f.rx ++ o.rx }) :
    memRead offset length s
      = .raise f.error { s with
          oracle := o, wire := s.wire ++ f.bytes (frameOf s.address 0xA1 [offset, length]),
          hist := s.hist ++ f.events (frameOf s.address 0xA1 [offset, length]) length.toNat } := by
  rw [memRead_eq]
  cases f with
  | request n => simp [tx, State.txDraw, h, State.log, ReadFailure.tx, ReadFailure.rx, ReadFailure.error,
      ReadFailure.bytes, ReadFailure.events]
  | noAnswer => simp [tx, State.txDraw, rx, State.rxDraw, h, State.log, ReadFailure.tx, ReadFailure.rx,
      ReadFailure.error, ReadFailure.bytes, ReadFailure.events, RxAnswer.upTo]
  | short bs =>
    have hl : bs.length < length.toNat := hf
    simp [tx, State.txDraw, rx, State.rxDraw, h, State.log, ReadFailure.tx, ReadFailure.rx, ReadFailure.error,
      ReadFailure.bytes, ReadFailure.events, RxAnswer.upTo, List.take_of_length_le hl.le, hl]

theorem readPosition_scripted_err {f : ReadFailure} (hf : f.Fits 4)
    (h : s.oracle = { o with tx := f.tx ++ o.tx, rx := f.rx ++ o.rx }) :
    readPosition s
      = .raise f.error { s with
          oracle := o, wire := s.wire ++ f.bytes (positionRequest s.address),
          hist := s.hist ++ f.events (positionRequest s.address) 4 } := by
  have k := memRead_scripted_err (offset := 0x22) (length := 4) (f := f) hf h
  exact congrArg (Res.andThen · _) k

theorem readSwitch_scripted_err {f : ReadFailure} (hf : f.Fits 2)
    (h : s.oracle = { o with tx := f.tx ++ o.tx, rx := f.rx ++ o.rx }) :
    readSwitch s
      = .raise f.error { s with
          oracle := o, wire := s.wire ++ f.bytes (statusRequest s.address),
          hist := s.hist ++ f.events (statusRequest s.address) 2 } := by
  have k := memRead_scripted_err (offset := 0x47) (length := 2) (f := f) hf h
  exact congrArg (Res.andThen · _) k

theorem foundAction_scripted {p : Int} (hp : InInt32 p) (hq : InInt32 (p + s.cfg.calOffset))
    (h : s.oracle = { o with tx := .ok :: .ok :: o.tx, rx := .ok (le4 p) :: o.rx }) :
    foundAction s
      = .ok (.done .found) { s with
          phase := .found, homeOffset := toU32 (p + s.cfg.calOffset), oracle := o,
          wire := s.wire ++ sentBytes (foundEvents s.address s.cfg p),
          hist := s.hist ++ foundEvents s.address s.cfg p } := by
  unfold foundAction
  rw [readPosition_scripted (s := { s with phase := .found }) (o := { o with tx := .ok :: o.tx }) hp h]
  simp only [andThen_ok]
  rw [setTargetBody_scripted (o := o) hq rfl]
  simp [storeHome, foundEvents, positionEvents, sentBytes]

end Scripted

end Sys2Proof.Machine
end

