-- ==== Sys2Proof/Laws/Access.lean ====
section
/-! SUPPORT. What each primitive, each transaction and each turn adds to the history keeps to the accesses of R51, R53 and
R55. -/

namespace Sys2Proof.Machine

section Accesses
variable {a : Option Addr} {es fs : List Event}

theorem accesses_nil (a : Option Addr) : Accesses a [] :=
  ⟨everyTx_nil, by simp, fun _ _ _ _ h => by simp at h⟩

theorem accesses_append (h : Accesses a es) (k : Accesses a fs) : Accesses a (es ++ fs) := by
  refine ⟨everyTx_append h.frames k.frames, fun data ans hm => ?_, fun before n ans after he => ?_⟩
  · rcases List.mem_append.1 hm with hm | hm
    · exact h.requests data ans hm
    · exact k.requests data ans hm
  · rcases List.append_eq_append_iff.1 he with ⟨b, rfl, hb⟩ | ⟨b, hb, hc⟩
    · obtain ⟨earlier, hb | hb⟩ := k.reads b n ans after hb
      · exact ⟨es ++ earlier, .inl ⟨by rw [hb.1, List.append_assoc], hb.2⟩⟩
      · exact ⟨es ++ earlier, .inr ⟨by rw [hb.1, List.append_assoc], hb.2⟩⟩
    · cases b with
      | nil => exact absurd (k.reads [] n ans after (by simpa using hc.symm)) (by simp)
      | cons e b =>
        obtain ⟨rfl, rfl⟩ := List.cons.inj hc
        exact h.reads before n ans b hb

/-- Events that are neither writes nor reads add no access. -/
theorem accesses_single {e : Event} (ht : ∀ bs ans, e ≠ .tx bs ans) (hr : ∀ n ans, e ≠ .rx n ans) :
    Accesses a [e] := by
  refine ⟨everyTx_single ht, fun data ans hm => absurd (List.mem_singleton.1 hm).symm (ht _ _), ?_⟩
  intro before n ans after he
  have : Event.rx n ans ∈ [e] := by rw [he]; simp
  exact absurd (List.mem_singleton.1 this).symm (hr n ans)

theorem length_frameOf (a : Option Addr) (op : Byte) (data : List Byte) :
    (frameOf a op data).length = data.length + if a = none then 1 else 3 := by
  cases a <;> simp [frameOf]

/-- A frame of another opcode is no request. -/
theorem frameOf_ne_request {op : Byte} (h : op &&& 0x7F ≠ 0x21) (a : Option Addr) (data ds : List Byte) :
    frameOf a 0xA1 ds ≠ frameOf a op data := by
  cases a with
  | none =>
    intro he
    obtain ⟨rfl, -⟩ := List.cons.inj he
    exact h (by decide)
  | some x =>
    intro he
    simp only [frameOf, List.cons.injEq, true_and] at he
    exact h he.1.symm

/-- One write of a frame with 0 or 5 data bytes that is no request. -/
theorem accesses_tx {op : Byte} {data : List Byte} (h : op &&& 0x7F ≠ 0x21) (hd : data.length = 0 ∨ data.length = 5)
    (ans : TxAnswer) : Accesses a [.tx (frameOf a op data) ans] := by
  refine ⟨fun bs c hm => ?_, fun ds c hm => ?_, fun before n c after he => ?_⟩
  · obtain ⟨rfl, -⟩ := by simpa using hm
    rw [length_frameOf]
    rcases hd with hd | hd <;> rw [hd] <;> cases a <;> simp
  · have he : frameOf a 0xA1 ds = frameOf a op data ∧ c = ans := by simpa using hm
    exact absurd he.1 (frameOf_ne_request h a data ds)
  · have : Event.rx n c ∈ [Event.tx (frameOf a op data) ans] := by rw [he]; simp
    simp at this

/-- The two variables, as offset and length. -/
theorem accesses_request {offset length : Byte} (h : (offset, length) = varPosition ∨ (offset, length) = varStatus)
    (ans : TxAnswer) : Accesses a [.tx (frameOf a 0xA1 [offset, length]) ans] := by
  have hp : [offset, length] = [0x22, 4] ∨ [offset, length] = [0x47, 2] := by
    simpa [varPosition, varStatus, Prod.ext_iff] using h
  refine ⟨fun bs c hm => ?_, fun ds c hm => ?_, fun before n c after he => ?_⟩
  · obtain ⟨rfl, -⟩ := by simpa using hm
    rw [length_frameOf]; cases a <;> simp
  · have he := (by simpa using hm : frameOf a 0xA1 ds = frameOf a 0xA1 [offset, length] ∧ c = ans).1
    have : ds = [offset, length] := by cases a <;> simpa [frameOf] using he
    exact this ▸ hp
  · have : Event.rx n c ∈ [Event.tx (frameOf a 0xA1 [offset, length]) ans] := by rw [he]; simp
    simp at this

/-- A request written and its read. -/
theorem accesses_read {offset length : Byte} (h : (offset, length) = varPosition ∨ (offset, length) = varStatus)
    (ans : RxAnswer) : Accesses a [.tx (frameOf a 0xA1 [offset, length]) .ok, .rx length.toNat ans] := by
  have k := accesses_request (a := a) h .ok
  refine ⟨fun bs c hm => k.frames bs c (by simpa using hm), fun ds c hm => k.requests ds c (by simpa using hm), ?_⟩
  intro before n c after he
  match before, he with
  | [], he => simp at he
  | [e], he =>
    simp only [List.cons_append, List.nil_append, List.cons.injEq, Event.rx.injEq] at he
    obtain ⟨rfl, ⟨rfl, -⟩, -⟩ := he
    refine ⟨[], ?_⟩
    simp only [varPosition, varStatus, Prod.mk.injEq] at h
    rcases h with ⟨rfl, rfl⟩ | ⟨rfl, rfl⟩
    · exact .inl ⟨rfl, rfl⟩
    · exact .inr ⟨rfl, rfl⟩
  | e :: f :: b, he => simp at he

end Accesses

/-- The history grows from s to t by accesses of R51, R53 and R55 alone, at the same address. -/
def Adds (s t : State) : Prop := t.address = s.address ∧ ∃ es, t.hist = s.hist ++ es ∧ Accesses s.address es

section Adds
variable {s t u : State} {α β : Type}

theorem Adds.refl (s : State) : Adds s s := ⟨rfl, [], by simp, accesses_nil _⟩

/-- A state that differs in neither the address nor the history. -/
theorem Adds.of_eq (ha : t.address = s.address) (hh : t.hist = s.hist) : Adds s t :=
  ⟨ha, [], by simp [hh], accesses_nil _⟩

theorem Adds.trans (h : Adds s t) (k : Adds t u) : Adds s u := by
  obtain ⟨ha, es, he, hs⟩ := h
  obtain ⟨ka, fs, ke, ks⟩ := k
  exact ⟨ka.trans ha, es ++ fs, by rw [ke, he, List.append_assoc], accesses_append hs (ha ▸ ks)⟩

theorem Adds.accessInv (h : Adds s t) (hs : AccessInv s) : AccessInv t := by
  obtain ⟨ha, es, he, hes⟩ := h
  unfold AccessInv
  rw [ha, he]
  exact accesses_append hs hes

theorem andThen_adds {r : Res α} {k : α → State → Res β} (h : Adds s r.state) (hk : ∀ v t, Adds t (k v t).state) :
    Adds s (r.andThen k).state := by
  cases r with
  | ok v t => exact h.trans (hk v t)
  | raise e t => exact h

theorem tx_adds {bs : List Byte} (h : ∀ ans, Accesses s.address [.tx bs ans]) : Adds s (tx bs s).state := by
  unfold tx
  split <;> rename_i hd <;> obtain ⟨o, rfl⟩ := txDraw_rest hd
  · exact ⟨rfl, [.tx bs .ok], rfl, h .ok⟩
  · exact ⟨rfl, [.tx bs .err], rfl, h .err⟩

theorem log_adds (s : State) {e : Event} (ht : ∀ bs ans, e ≠ .tx bs ans) (hr : ∀ n ans, e ≠ .rx n ans) :
    Adds s (s.log e) := ⟨rfl, [e], rfl, accesses_single ht hr⟩

theorem now_adds (s : State) : Adds s (now s).2 := by
  unfold now
  split; rename_i h; obtain ⟨o, rfl⟩ := clockDraw_rest h
  exact (Adds.of_eq rfl rfl).trans (log_adds _ (by simp) (by simp))

theorem sleep_adds (d : Seconds) (s : State) : Adds s (sleep d s) := log_adds s (by simp) (by simp)

theorem send_adds {op : Byte} {data : List Byte} (h : op &&& 0x7F ≠ 0x21) (hd : data.length = 0 ∨ data.length = 5)
    (s : State) : Adds s (send op data s).state := by
  rw [send_eq]; exact tx_adds (accesses_tx h hd)

theorem sendInt32_adds {op : Byte} (h : op &&& 0x7F ≠ 0x21) (v : Int) (s : State) :
    Adds s (sendInt32 op v s).state := by
  rw [sendInt32_eq]; split
  · exact tx_adds (accesses_tx h (.inr rfl))
  · exact Adds.refl s

/-- A read of one of the two variables: the request alone, or the request and its one read. -/
theorem memRead_adds {offset length : Byte} (h : (offset, length) = varPosition ∨ (offset, length) = varStatus)
    (s : State) : Adds s (memRead offset length s).state := by
  rw [memRead_eq]
  unfold tx
  split <;> rename_i hd <;> obtain ⟨o, rfl⟩ := txDraw_rest hd
  · simp only [andThen_ok]
    unfold rx
    split <;> rename_i hr <;> obtain ⟨o', rfl⟩ := rxDraw_rest hr
    · simp only [andThen_ok]
      split <;> exact ⟨rfl, _, List.append_assoc .., accesses_read h _⟩
    · exact ⟨rfl, _, List.append_assoc .., accesses_read h .err⟩
  · exact ⟨rfl, _, rfl, accesses_request h .err⟩

theorem readPosition_adds (s : State) : Adds s (readPosition s).state :=
  andThen_adds (memRead_adds (.inl rfl) s) fun _ t => Adds.refl t

theorem readSwitch_adds (s : State) : Adds s (readSwitch s).state :=
  andThen_adds (memRead_adds (.inr rfl) s) fun _ t => Adds.refl t

theorem setTargetBody_adds (v : Int) (s : State) : Adds s (setTargetBody v s).state :=
  sendInt32_adds (by decide) v s

theorem enter_adds (op : Instr) (s : State) : Adds s (enter op s) :=
  (Adds.of_eq (t := { s with busy := true }) rfl rfl).trans (log_adds _ (by simp) (by simp))

theorem settle_adds (op : Instr) {r : Res Progress} (h : Adds s r.state) : Adds s (settle op r) := by
  have hl : ∀ q v, Adds v (leave op q v) := fun q v =>
    (Adds.of_eq (t := { v with busy := false, running := none, result := some q }) rfl rfl).trans
      (log_adds _ (by simp) (by simp))
  match r with
  | .ok .going u => exact h
  | .ok (.done v) u => exact h.trans (hl _ u)
  | .raise e u =>
    refine h.trans ?_
    show Adds u (abort op e u)
    unfold abort
    split
    · exact (Adds.of_eq (t := { u with phase := .idle }) rfl rfl).trans (hl _ _)
    · exact hl _ u

theorem homeTurn_adds (last : Phase) (nested : Bool) (s : State) : Adds s (homeTurn last nested s).state := by
  unfold homeTurn
  split
  · exact Adds.of_eq rfl rfl
  · refine andThen_adds (setTargetBody_adds _ s) fun _ t => andThen_adds (readPosition_adds t) fun p u => ?_
    dsimp only
    split
    · exact Adds.of_eq rfl rfl
    · exact Adds.of_eq rfl rfl

theorem homeStart_adds (b) (s : State) : Adds s (homeStart b s).state := by
  unfold homeStart; exact (Adds.of_eq rfl rfl).trans (homeTurn_adds _ _ _)

theorem foundAction_adds (s : State) : Adds s (foundAction s).state := by
  unfold foundAction
  exact andThen_adds ((Adds.of_eq rfl rfl).trans (readPosition_adds _)) fun p t =>
    andThen_adds (setTargetBody_adds _ t) fun _ u => Adds.of_eq rfl rfl

theorem timedOutAction_adds (s : State) : Adds s (timedOutAction s).state := by
  unfold timedOutAction; split
  · exact (Adds.of_eq rfl rfl).trans (homeStart_adds _ _)
  · exact Adds.of_eq rfl rfl

theorem poll_adds (s : State) : Adds s (poll s).state := by
  unfold poll
  exact andThen_adds (readPosition_adds s) fun p t =>
    andThen_adds ((Adds.of_eq rfl rfl).trans (setTargetBody_adds _ _)) fun _ u =>
      andThen_adds ((sleep_adds _ u).trans (readSwitch_adds _)) fun b v => Adds.of_eq rfl rfl

theorem probeTurn_adds (s : State) : Adds s (probeTurn s).state := by
  unfold probeTurn
  have h := now_adds s
  split; rename_i t u e; rw [e] at h
  refine h.trans ?_
  split
  · exact poll_adds _
  · split
    · exact foundAction_adds _
    · exact timedOutAction_adds _

theorem calibrateStart_adds (s : State) : Adds s (calibrateStart s).state := by
  unfold calibrateStart
  have h := now_adds s
  split; rename_i t u e; rw [e] at h
  have started : Adds u { u with t0 := t, phase := .probing } := Adds.of_eq rfl rfl
  refine h.trans (andThen_adds (started.trans (send_adds (by decide) (.inl rfl) _)) fun _ v =>
    andThen_adds (readSwitch_adds v) fun b w => ?_)
  dsimp only
  split
  · exact (Adds.of_eq rfl rfl).trans (foundAction_adds _)
  · exact Adds.of_eq rfl rfl

/-- A further turn of a controller operation adds only accesses of R51, R53 and R55. -/
theorem resume_adds (r) (s : State) : Adds s (resume r s) := by
  cases r with
  | probing => exact settle_adds _ (probeTurn_adds s)
  | homing p b => exact settle_adds _ (homeTurn_adds p b s)

end Adds

end Sys2Proof.Machine
end

