-- ==== Sys2Proof/Laws/PerInstr.lean ====
section
/-! SUPPORT. One statement for each instruction as syntax: what frame it has in a framing. -/

namespace Sys2Proof.Laws.Framed

/-- A well-formed wire command has a frame in every framing, of at most eight bytes (R75) and keeping the high-bit
discipline (R82); a host operation has none (R84). -/
def Statement (i : Instr) : Prop :=
  Sys2Proof.WellFormed i = true → ∀ a : Option Addr,
    if i.isWire then ∃ bs, encode a i = some bs ∧ bs.length ≤ 8 ∧ Machine.Disciplined a bs else encode a i = none

/-- A command with a given wire form meets the statement. -/
theorem of_wireForm {i : Instr} {op : Byte} {data : List Byte} (hw : i.isWire = true) (hf : wireForm i = some (op, data))
    (hop : highBit op = true) (hd : ∀ b ∈ data, highBit b = false) (hl : data.length ≤ 5) : Statement i := by
  intro _ a
  rw [if_pos hw]
  refine ⟨Machine.frameOf a op data, ?_, ?_, disciplined_frameOf a op data hop hd⟩
  · simp [encode, hf, encodeCommand_session, Except.toOption]
  · cases a <;> simp [Machine.frameOf] <;> omega

/-- An int32 operand has its packed form. -/
theorem packed_form {v : Int} (h : InInt32 v) : (encodeInt32 v).toOption = some (pack7 (toU32 v)) := by
  unfold encodeInt32; rw [if_pos h]; rfl

theorem cmdExitSafeStart : Statement .cmdExitSafeStart := of_wireForm rfl rfl rfl (by simp) (by simp)

theorem cmdEnergize : Statement .cmdEnergize := of_wireForm rfl rfl rfl (by simp) (by simp)

theorem cmdDeenergize : Statement .cmdDeenergize := of_wireForm rfl rfl rfl (by simp) (by simp)

theorem cmdStopMotor : Statement .cmdStopMotor := of_wireForm rfl rfl rfl (by simp) (by simp)

theorem cmdSetTargetPosition (v : Int) : Statement (.cmdSetTargetPosition v) := fun h =>
  of_wireForm (op := 0xE0) (data := pack7 (toU32 v)) rfl
    (by simp only [wireForm, packed_form (of_decide_eq_true h), Option.map]) rfl (highBit_pack7 _) (by simp [pack7]) h

theorem cmdSetMaxSpeed (speed : Int) : Statement (.cmdSetMaxSpeed speed) := fun h =>
  of_wireForm (op := 0xE6) (data := pack7 (toU32 speed)) rfl
    (by simp only [wireForm, packed_form (of_decide_eq_true h), Option.map]) rfl (highBit_pack7 _) (by simp [pack7]) h

theorem cmdGetVariables (offset length : Byte) : Statement (.cmdGetVariables offset length) := by
  intro h
  have h' : offset.toNat < 0x80 ∧ length.toNat < 0x80 := by simpa [Sys2Proof.WellFormed] using h
  have small : ∀ b : Byte, b.toNat < 0x80 → highBit b = false := by decide
  refine of_wireForm (op := 0xA1) (data := [offset, length]) rfl rfl rfl (fun b hb => ?_) (by simp) h
  simp only [List.mem_cons, List.not_mem_nil, or_false] at hb
  rcases hb with rfl | rfl
  · exact small _ h'.1
  · exact small _ h'.2

theorem exitSafeStart : Statement .exitSafeStart := fun _ _ => rfl

theorem energize : Statement .energize := fun _ _ => rfl

theorem stopAndDeenergize : Statement .stopAndDeenergize := fun _ _ => rfl

theorem setTargetPosition (target : Int) : Statement (.setTargetPosition target) := fun _ _ => rfl

theorem setMaxSpeed (speed : Int) : Statement (.setMaxSpeed speed) := fun _ _ => rfl

theorem getCurrentPosition : Statement .getCurrentPosition := fun _ _ => rfl

theorem getLimitSwitchState : Statement .getLimitSwitchState := fun _ _ => rfl

theorem updateHome (newHome : Int) : Statement (.updateHome newHome) := fun _ _ => rfl

theorem displayedPosition : Statement .displayedPosition := fun _ _ => rfl

theorem energizeSequence : Statement .energizeSequence := fun _ _ => rfl

theorem calibrate : Statement .calibrate := fun _ _ => rfl

theorem goHome : Statement .goHome := fun _ _ => rfl

theorem connect (address : Option Int) (config : Config) : Statement (.connect address config) := fun _ _ => rfl

end Sys2Proof.Laws.Framed
end

