-- ==== Sys2Proof/Laws/Step.lean ====
section
/-! SUPPORT. What an instruction's meaning, a further turn of an operation in progress, and a step can do, said once. -/

namespace Sys2Proof.Machine

theorem invoke_next {op : Instr} {body : State → Res Progress} {s t : State} (h : invoke op body s = .next t) :
    s.isOpen = true ∧ s.busy = false ∧ t = settle op (body (enter op s)) := by
  unfold invoke at h
  split at h
  · simp at h
  · split at h
    · simp at h
    · rename_i h1 h2
      exact ⟨by simpa using h1, by simpa using h2, (Host.Outcome.next.inj h).symm⟩

theorem runCommand_next {body : State → Res Value} {s t : State} (h : runCommand body s = .next t) :
    s.isOpen = true ∧ s.busy = false ∧ t = report (body s) := by
  unfold runCommand at h
  split at h
  · simp at h
  · split at h
    · simp at h
    · rename_i h1 h2
      exact ⟨by simpa using h1, by simpa using h2, (Host.Outcome.next.inj h).symm⟩

theorem report_eq (r : Res Value) : ∃ q, report r = { r.state with result := some q } := by
  cases r with
  | ok v s => exact ⟨_, rfl⟩
  | raise e s => exact ⟨_, rfl⟩

theorem noResponse_io {P : List Byte → Prop} {s : State} {r : Res Unit} (h : IoOnly P s r.state) :
    IoOnly P s (r.andThen noResponse).state :=
  andThen_io h fun _ t _ => IoOnly.refl t

theorem returnUnit_io {P : List Byte → Prop} {s : State} {r : Res Unit} (h : IoOnly P s r.state) :
    IoOnly P s (r.andThen returnUnit).state :=
  andThen_io h fun _ t _ => IoOnly.refl t

theorem noData : ∀ b ∈ ([] : List Byte), highBit b = false := by simp

section Exec
variable {P : List Byte → Prop} {s t : State}

/-- A wire command does input and output alone, on an open, idle session, and hands a result to the host (R130). -/
theorem exec_wire {i : Instr} (hi : i.isWire = true) (hP : Admits P s.address)
    (h : exec i s = .next t) :
    s.isOpen = true ∧ s.busy = false ∧ ∃ u r, IoOnly P s u ∧ t = { u with result := some r } := by
  have key : ∀ body : State → Res Value, runCommand body s = .next t → IoOnly P s (body s).state →
      s.isOpen = true ∧ s.busy = false ∧ ∃ u r, IoOnly P s u ∧ t = { u with result := some r } := by
    intro body hb hio
    obtain ⟨h1, h2, h3⟩ := runCommand_next hb
    obtain ⟨q, hq⟩ := report_eq (body s)
    exact ⟨h1, h2, _, q, hio, h3.trans hq⟩
  cases i with
  | cmdExitSafeStart =>
    unfold exec execCmdExitSafeStart at h
    exact key _ h (noResponse_io (send_io (hP 0x83 [] rfl noData)))
  | cmdEnergize =>
    unfold exec execCmdEnergize at h
    exact key _ h (noResponse_io (send_io (hP 0x85 [] rfl noData)))
  | cmdDeenergize =>
    unfold exec execCmdDeenergize at h
    exact key _ h (noResponse_io (send_io (hP 0x86 [] rfl noData)))
  | cmdStopMotor =>
    unfold exec execCmdStopMotor at h
    exact key _ h (noResponse_io (send_io (hP 0x92 [] rfl noData)))
  | cmdSetTargetPosition v =>
    unfold exec execCmdSetTargetPosition at h
    exact key _ h (noResponse_io (sendInt32_io (hP 0xE0 _ rfl (highBit_pack7 _))))
  | cmdSetMaxSpeed v =>
    unfold exec execCmdSetMaxSpeed at h
    exact key _ h (noResponse_io (sendInt32_io (hP 0xE6 _ rfl (highBit_pack7 _))))
  | cmdGetVariables off len =>
    simp only [exec, execCmdGetVariables] at h
    split at h
    · exact key _ h (andThen_io (readPosition_io hP) fun _ t _ => IoOnly.refl t)
    · split at h
      · exact key _ h (andThen_io (readSwitch_io hP) fun _ t _ => IoOnly.refl t)
      · simp at h
  | _ => simp [Instr.isWire] at hi

/-- The body of a session verb with I/O does input and output alone and always comes to an end. -/
theorem exec_ioVerb {i : Instr} (hi : i.isIoVerb = true) (hP : Admits P s.address) (h : exec i s = .next t) :
    s.isOpen = true ∧ s.busy = false ∧ ∃ u r, IoOnly P (enter i s) u ∧ t = leave i r u := by
  have hc : i.isController = false := by cases i <;> first | rfl | simp [Instr.isIoVerb] at hi
  have key : ∀ body : State → Res Progress, invoke i body s = .next t → IoOnly P (enter i s) (body (enter i s)).state →
      (∀ u, body (enter i s) ≠ .ok .going u) →
      s.isOpen = true ∧ s.busy = false ∧ ∃ u r, IoOnly P (enter i s) u ∧ t = leave i r u := by
    intro body hb hio hg
    obtain ⟨h1, h2, h3⟩ := invoke_next hb
    refine ⟨h1, h2, ?_⟩
    match hr : body (enter i s) with
    | .ok .going u => exact absurd hr (hg u)
    | .ok (.done v) u => rw [hr] at hio h3; exact ⟨u, _, hio, h3⟩
    | .raise e u =>
      rw [hr] at hio h3
      refine ⟨u, .error e, hio, ?_⟩
      rw [h3]; simp [settle, abort, hc]
  have ha : Admits P (enter i s).address := hP
  have going : ∀ {α : Type} (r : Res α) (f : α → Value) (u : State),
      (r.andThen fun a s => Res.ok (Progress.done (f a)) s) ≠ Res.ok Progress.going u := by
    intro α r f u; cases r <;> simp [Res.andThen]
  have goingU : ∀ (r : Res Unit) (u : State), r.andThen returnUnit ≠ Res.ok Progress.going u := by
    intro r u; cases r <;> simp [returnUnit, Res.andThen]
  cases i with
  | exitSafeStart =>
    unfold exec execExitSafeStart at h
    exact key _ h (returnUnit_io (exitSafeStartBody_io ha)) (goingU _)
  | energize =>
    unfold exec execEnergize at h
    exact key _ h (returnUnit_io (energizeBody_io ha)) (goingU _)
  | stopAndDeenergize =>
    unfold exec execStopAndDeenergize at h
    refine key _ h (andThen_io (send_io (ha 0x92 [] rfl noData)) fun _ u hu => ?_) fun u => ?_
    · have hs := sleep_io (P := P) u.cfg.stopSettle u
      have hu' : u.address = (enter .stopAndDeenergize s).address := by
        have := send_io (P := P) (op := 0x92) (data := []) (s := enter .stopAndDeenergize s) (ha 0x92 [] rfl noData)
        rw [hu] at this; exact this.address
      refine returnUnit_io (hs.trans (send_io ?_))
      rw [hs.address, hu']; exact ha 0x86 [] rfl noData
    · cases send 0x92 [] (enter .stopAndDeenergize s) with
      | ok v w => simpa using goingU _ u
      | raise e w => simp
  | setTargetPosition v =>
    unfold exec execSetTargetPosition at h
    exact key _ h (returnUnit_io (setTargetBody_io ha v)) (goingU _)
  | setMaxSpeed v =>
    unfold exec execSetMaxSpeed at h
    exact key _ h (returnUnit_io (sendInt32_io (ha 0xE6 _ rfl (highBit_pack7 _)))) (goingU _)
  | getCurrentPosition =>
    unfold exec execGetCurrentPosition at h
    exact key _ h (andThen_io (readPosition_io ha) fun _ u _ => IoOnly.refl u) (going _ Value.position)
  | getLimitSwitchState =>
    unfold exec execGetLimitSwitchState at h
    exact key _ h (andThen_io (readSwitch_io ha) fun _ u _ => IoOnly.refl u) (going _ Value.switch)
  | displayedPosition =>
    unfold exec execDisplayedPosition at h
    refine key _ h (andThen_io (readPosition_io ha) fun _ u _ => IoOnly.refl u) fun u => ?_
    cases readPosition (enter .displayedPosition s) <;> simp
  | energizeSequence =>
    unfold exec execEnergizeSequence at h
    refine key _ h (andThen_io (exitSafeStartBody_io ha) fun _ u hu => ?_) fun u => ?_
    · have hu' : u.address = (enter .energizeSequence s).address := by
        have := exitSafeStartBody_io (P := P) (s := enter .energizeSequence s) ha
        rw [hu] at this; exact this.address
      exact returnUnit_io (energizeBody_io (by rw [hu']; exact ha))
    · cases exitSafeStartBody (enter .energizeSequence s) with
      | ok v w => simpa using goingU _ u
      | raise e w => simp
  | _ => simp [Instr.isIoVerb] at hi

theorem exec_updateHome {v : Int} (h : exec (.updateHome v) s = .next t) :
    s.isOpen = true ∧ s.busy = false ∧ InInt32 v
      ∧ t = leave (.updateHome v) (.ok .unit) (storeHome v (enter (.updateHome v) s)) := by
  simp only [exec, execUpdateHome] at h
  split at h
  · rename_i hv
    obtain ⟨h1, h2, h3⟩ := invoke_next h
    exact ⟨h1, h2, hv, h3⟩
  · simp at h

theorem exec_calibrate (hP : Admits P s.address) (h : exec .calibrate s = .next t) :
    s.isOpen = true ∧ s.busy = false ∧ ∃ r, CalibrateTurnEnd P .probing (enter .calibrate s) r ∧ t = settle .calibrate r := by
  obtain ⟨h1, h2, h3⟩ := invoke_next h
  exact ⟨h1, h2, _, calibrateStart_ends (s := enter .calibrate s) hP, h3⟩

theorem exec_goHome (hP : Admits P s.address) (h : exec .goHome s = .next t) :
    s.isOpen = true ∧ s.busy = false
      ∧ ∃ r, HomeTurnEnd P s.phase false
          { enter .goHome s with phase := .homing, attempts := 0, running := some (.homing s.phase false) } r
        ∧ t = settle .goHome r := by
  obtain ⟨h1, h2, h3⟩ := invoke_next h
  exact ⟨h1, h2, _, homeStart_ends (P := P) false (s := enter .goHome s) hP, h3⟩

/-- A construction either leaves a fresh session, or changes nothing but the oracles and the result it reports. -/
theorem exec_connect {a : Option Int} {c : Config} (h : exec (.connect a c) s = .next t) :
    s.busy = false
      ∧ ((∃ b o, t = freshSession b c { s with oracle := o })
        ∨ ∃ e o, t = { s with oracle := o, result := some (.error e) }) := by
  simp only [exec, execConnect] at h
  split at h
  · simp at h
  · rename_i hb
    refine ⟨by simpa using hb, ?_⟩
    have h := Host.Outcome.next.inj h
    split at h
    · exact .inr ⟨_, s.oracle, h.symm⟩
    · split at h
      · rename_i hd; obtain ⟨o, rfl⟩ := openDraw_rest hd; exact .inl ⟨_, o, h.symm⟩
      · rename_i hd; obtain ⟨o, rfl⟩ := openDraw_rest hd; exact .inr ⟨_, o, h.symm⟩

end Exec

/-- Every instruction is of one of six kinds. -/
theorem instr_kinds (i : Instr) :
    i.isWire = true ∨ i.isIoVerb = true ∨ (∃ v, i = .updateHome v) ∨ i = .calibrate ∨ i = .goHome
      ∨ ∃ a c, i = .connect a c := by
  cases i <;> simp [Instr.isWire, Instr.isIoVerb]

/-! ### What every turn and every operation of a session keeps -/

/-- What no operation of a session changes (R21, R27, R30, R33): its address, its being open, its parameters and the
host's pending requests; the history and the wire grow, by events and bytes that fit each other. -/
structure Kept (P : List Byte → Prop) (s t : State) : Prop where
  address : t.address = s.address
  isOpen : t.isOpen = s.isOpen
  cfg : t.cfg = s.cfg
  requests : t.requests = s.requests
  grows : ∃ es w, t.hist = s.hist ++ es ∧ t.wire = s.wire ++ w ∧ MayBeOnWire es w ∧ EveryTx P es

section Kept
variable {P : List Byte → Prop} {s t u : State}

theorem Kept.trans (h : Kept P s t) (k : Kept P t u) : Kept P s u := by
  obtain ⟨es, w, he, hw, hm, ht⟩ := h.grows
  obtain ⟨fs, v, ke, kw, km, kt⟩ := k.grows
  exact ⟨k.address.trans h.address, k.isOpen.trans h.isOpen, k.cfg.trans h.cfg, k.requests.trans h.requests,
    es ++ fs, w ++ v, by rw [ke, he, List.append_assoc], by rw [kw, hw, List.append_assoc], mayBeOnWire_append hm km,
    everyTx_append ht kt⟩

theorem TurnFrame.kept (h : TurnFrame P s t) : Kept P s t :=
  let ⟨es, w, he, hw, hm, ht, _⟩ := h.grows
  ⟨h.address, h.isOpen, h.cfg, h.requests, es, w, he, hw, hm, ht⟩

theorem IoOnly.kept (h : IoOnly P s t) : Kept P s t := h.turnFrame.kept

theorem enter_kept (op : Instr) (s : State) : Kept P s (enter op s) :=
  ⟨rfl, rfl, rfl, rfl, [.call op], [], rfl, (List.append_nil _).symm, rfl, everyTx_single (by simp)⟩

theorem leave_kept (op : Instr) (r : Result) (s : State) : Kept P s (leave op r s) :=
  ⟨rfl, rfl, rfl, rfl, [.ret op r], [], rfl, (List.append_nil _).symm, rfl, everyTx_single (by simp)⟩

theorem abort_kept (op : Instr) (e : Error) (s : State) : Kept P s (abort op e s) := by
  unfold abort
  split
  · exact (turnFrame_registers s .idle s.homeOffset s.t0 s.trig s.pos s.attempts s.running).kept.trans
      (leave_kept op (.error e) _)
  · exact leave_kept op (.error e) s

theorem settle_kept (op : Instr) {r : Res Progress} (h : Kept P s r.state) : Kept P s (settle op r) := by
  match r with
  | .ok .going u => exact h
  | .ok (.done v) u => exact h.trans (leave_kept op (.ok v) u)
  | .raise e u => exact h.trans (abort_kept op e u)

theorem HomeTurnEnd.frame {prev : Phase} {b : Bool} {r : Res Progress} (h : HomeTurnEnd P prev b s r) :
    TurnFrame P s r.state := by
  match r with
  | .ok .going u => exact h.1
  | .ok (.done v) u => exact h.1
  | .raise e u => exact h.1

theorem CalibrateTurnEnd.frame {ph : Phase} {r : Res Progress} (h : CalibrateTurnEnd P ph s r) :
    TurnFrame P s r.state := by
  match r with
  | .ok .going u => exact h.1
  | .ok (.done v) u => exact h.1
  | .raise e u => exact h.1

/-- A further turn of an operation in progress. -/
theorem resume_kept {r : Running} (hP : Admits P s.address) (hr : s.running = some r) : Kept P s (resume r s) := by
  cases r with
  | probing => exact settle_kept _ (probeTurn_ends hP hr).frame.kept
  | homing prev b => exact settle_kept _ (homeTurn_ends prev b hP).frame.kept

/-- An invocation of any instruction but a construction. -/
theorem exec_kept {i : Instr} (hP : Admits P s.address)
    (hc : ∀ a c, i ≠ .connect a c) (h : exec i s = .next t) : Kept P s t := by
  rcases instr_kinds i with hi | hi | ⟨v, rfl⟩ | rfl | rfl | ⟨a, c, rfl⟩
  · obtain ⟨-, -, u, r, hio, rfl⟩ := exec_wire hi hP h
    obtain ⟨es, w, he, hw, hm, ht, -⟩ := hio.grows
    exact ⟨hio.address, hio.isOpen, hio.cfg, hio.requests, es, w, he, hw, hm, ht⟩
  · obtain ⟨-, -, u, r, hio, rfl⟩ := exec_ioVerb hi hP h
    exact (enter_kept i s).trans (hio.kept.trans (leave_kept i r u))
  · obtain ⟨-, -, -, rfl⟩ := exec_updateHome h
    refine (enter_kept (.updateHome v) s).trans (Kept.trans ?_ (leave_kept _ _ _))
    exact (turnFrame_registers (enter (.updateHome v) s) _ (toU32 v) _ _ _ _ _).kept
  · obtain ⟨-, -, r, hr, rfl⟩ := exec_calibrate hP h
    exact (enter_kept _ s).trans (settle_kept _ hr.frame.kept)
  · obtain ⟨-, -, r, hr, rfl⟩ := exec_goHome hP h
    refine (enter_kept .goHome s).trans (Kept.trans ?_ (settle_kept _ hr.frame.kept))
    exact (turnFrame_registers (enter .goHome s) .homing _ _ _ _ 0 (some (.homing s.phase false))).kept
  · exact absurd rfl (hc a c)

end Kept

/-- What a step can be: a turn of the operation in progress, a wait, the meaning of an instruction asked for, or a
teardown. -/
theorem step_cases {s t : State} (h : step s = .next t) :
    (∃ r, s.running = some r ∧ t = resume r s)
    ∨ (s.running = none ∧ s.requests = [] ∧ t = s)
    ∨ (∃ i q later, s.running = none
        ∧ exec i { s with requests := q } = .next t
        ∧ (s.requests = .call i :: later ∧ q = later
          ∨ ∃ bs d, s.requests = .frames bs :: later ∧ decode bs = .ok d ∧ d.instr = i
              ∧ q = framesLeft d.rest later))
    ∨ ∃ later, s.running = none ∧ s.requests = .teardown :: later ∧ t = teardown { s with requests := later } := by
  simp only [step, stepOnce] at h
  split at h
  · rename_i r hr
    exact .inl ⟨r, hr, (Host.Outcome.next.inj h).symm⟩
  · rename_i hr
    split at h
    · rename_i hq
      exact .inr (.inl ⟨hr, hq, (Host.Outcome.next.inj h).symm⟩)
    · rename_i q later hq
      unfold serve at h
      split at h
      · exact .inr (.inr (.inl ⟨_, later, later, hr, h, .inl ⟨hq, rfl⟩⟩))
      · rename_i bs
        split at h
        · simp at h
        · rename_i d hd
          split at h
          · exact .inr (.inr (.inl ⟨_, _, later, hr, h, .inr ⟨bs, d, hq, hd, rfl, rfl⟩⟩))
          · simp at h
      · exact .inr (.inr (.inr ⟨later, hr, hq, (Host.Outcome.next.inj h).symm⟩))
      · simp at h

/-! ### Several steps -/

theorem runSteps_succ {n : Nat} {s t : State} (h : step s = .next t) : runSteps (n + 1) s = runSteps n t := by
  simp only [runSteps, h]

theorem runSteps_add {m n : Nat} {s t : State} (h : runSteps m s = .next t) : runSteps (m + n) s = runSteps n t := by
  induction m generalizing s with
  | zero =>
    obtain rfl := Host.Outcome.next.inj h
    rw [Nat.zero_add]
  | succ m ih =>
    rw [Nat.succ_add]
    simp only [runSteps] at h ⊢
    split at h
    · exact ih h
    · simp at h
    · simp at h

/-- `runSteps` is the host's run of the machine. -/
theorem runSteps_eq_core (n : Nat) (s : State) : Host.Core.run Sys2Proof.core n s = runSteps n s := by
  induction n generalizing s with
  | zero => rfl
  | succ n ih =>
    simp only [Host.Core.run, runSteps]
    rw [show Sys2Proof.core.step s = step s from rfl]
    cases step s with
    | next t => exact ih t
    | fault f => rfl
    | refused r => rfl

/-- A parsed frame's data bytes are below 0x80, so a decoded command is well-formed. -/
theorem parseFrame_data {bs : List Byte} {f : Frame} (h : parseFrame bs = .ok f) : ∀ b ∈ f.data, highBit b = false := by
  have body : ∀ a op cs, parseBody a op cs = .ok f → ∀ b ∈ f.data, highBit b = false := by
    intro a op cs hb
    unfold parseBody at hb
    split at hb
    · simp at hb
    · split at hb
      · simp at hb
      · split at hb
        · simp at hb
        · rename_i hh
          have := (Except.ok.inj hb).symm
          subst this
          simpa using hh
  unfold parseFrame at h
  split at h
  · simp at h
  · split at h
    · split at h
      · split at h
        · simp at h
        · split at h
          · simp at h
          · exact body _ _ _ h
      · simp at h
    · split at h
      · exact body _ _ _ h
      · simp at h

theorem decode_wellFormed {bs : List Byte} {d : Decoded} (h : decode bs = .ok d) : WellFormed d.instr = true := by
  unfold decode at h
  split at h
  · simp at h
  · rename_i f hf
    have hd := parseFrame_data hf
    split at h
    · rename_i i hi
      have e := (Except.ok.inj h).symm
      subst e
      have low : ∀ k, highBit (f.data.getD k 0) = false := by
        intro k
        by_cases hk : k < f.data.length
        · rw [List.getD_eq_getElem _ _ hk]; exact hd _ (List.getElem_mem hk)
        · rw [List.getD_eq_default _ _ (by omega)]; decide
      have small : ∀ b : Byte, highBit b = false → b.toNat < 0x80 := by
        intro b hb; simpa [highBit] using hb
      unfold commandOf at hi
      repeat' split at hi
      all_goals first
        | (obtain rfl := Option.some.inj hi
           first
             | rfl
             | exact decide_eq_true (inInt32_toS32 _)
             | (simp only [WellFormed, Bool.and_eq_true, decide_eq_true_eq]
                exact ⟨small _ (low 0), small _ (low 1)⟩))
        | exact absurd hi (by simp)
    · simp at h

end Sys2Proof.Machine
end

