-- ==== Sys2Proof/Tests/Slice0.lean ====
section
/-! SUPPORT. The package's own tests: ill-formed terms, decoding of words written out from the encodings, one step of each
operation on the vectors of spec/95_test_vectors.md, and a witness for the hypotheses of each statement. -/

namespace Sys2Proof.Tests

open Sys2Proof.Machine

/-! ### Helpers -/

/-- The parameters of the programs of 95_test_vectors.md §3, with patterns of our own for P1 and P2, CAL_TIME_LIMIT 3/10,
HOME_INIT 50 and a cap of 2. -/
def cfg : Config where
  stepSize := 3
  pollSettle := 3 / 20
  calOffset := 20
  stopSettle := 1
  calTimeLimit := 3 / 10
  homeInit := 50
  maxSpeed := 2000000
  pattern1 := (0x08, 0x01)
  pattern2 := (0x10, 0x02)
  autoRecover := false
  goHomeMaxAttempts := some 2
  readTimeout := 1
  writeTimeout := 1

/-- An oracle with nothing in script. -/
def quiet : Oracle := { tx := [], rx := [], clock := [], opening := [], drawn := 0 }

/-- A session just constructed, at an address, with an oracle. -/
def session (a : Option Addr) (o : Oracle) : State := { State.constructed a cfg with oracle := o }

/-- The same with a request pending. -/
def asked (q : Request) (o : Oracle) : State := { session none o with requests := [q] }

/-- A session whose `calibrate` is in its loop, entered at time 0. -/
def probing (trig : Bool) (o : Oracle) : State :=
  { session none o with busy := true, running := some .probing, phase := .probing, trig := trig }

/-- A session whose `go_home` is in its loop. -/
def homing (n : Nat) (o : Oracle) : State :=
  { session none o with busy := true, running := some (.homing .found false), phase := .homing, attempts := n }

/-- Clock readings, in seconds. -/
def at0 : Reading := .exact 0
def at1_10 : Reading := .exact (1 / 10)
def at3_10 : Reading := .exact (3 / 10)
def at9_20 : Reading := .exact (9 / 20)
def at4_5 : Reading := .exact (4 / 5)

/-- A session whose `calibrate` is in its loop, entered at time 0, and will recover (R208). -/
def timingOut (o : Oracle) : State := { probing false o with cfg := { cfg with autoRecover := true } }

/-- A session whose `calibrate` is in the home-return loop of its recovery. -/
def recovering (n : Nat) (o : Oracle) : State := { homing n o with running := some (.homing .timedOut true) }

/-- The outcome is a next state that passes a check. -/
def passes (p : State → Bool) (o : Host.Outcome State Fault Refusal) : Bool :=
  match o with
  | .next t => p t
  | .fault _ => false
  | .refused _ => false

theorem of_passes {p : State → Bool} {o : Host.Outcome State Fault Refusal} (h : passes p o = true) :
    ∃ t, o = .next t ∧ p t = true := by
  cases o with
  | next t => exact ⟨t, rfl, h⟩
  | fault f => simp [passes] at h
  | refused r => simp [passes] at h

/-- The outcome is a next state with these events in its history and this result handed back. -/
def gives (evs : List Event) (r : Result) (o : Host.Outcome State Fault Refusal) : Bool :=
  passes (fun t => decide (t.hist = evs) && decide (t.result = some r)) o

/-! ### Ill-formed terms are refused: one for each check -/

theorem test_ill_formed_target : WellFormed (.cmdSetTargetPosition 2147483648) = false := by decide
theorem test_ill_formed_speed : WellFormed (.cmdSetMaxSpeed (-2147483649)) = false := by decide
theorem test_ill_formed_offset : WellFormed (.cmdGetVariables 0x80 4) = false := by decide
theorem test_ill_formed_length : WellFormed (.cmdGetVariables 0x22 0x80) = false := by decide
theorem test_ill_formed_verb_target : WellFormed (.setTargetPosition (-2147483649)) = false := by decide
theorem test_ill_formed_home : WellFormed (.updateHome 2147483648) = false := by decide
theorem test_ill_formed_address : WellFormed (.connect (some 128) cfg) = false := by decide
theorem test_ill_formed_config :
    ∀ c ∈ [{ cfg with pollSettle := -1 }, { cfg with stopSettle := -1 }, { cfg with calTimeLimit := -1 },
        { cfg with pattern2 := cfg.pattern1 }, { cfg with goHomeMaxAttempts := some 0 }, { cfg with readTimeout := 0 },
        { cfg with writeTimeout := 0 }], WellFormed (.connect none c) = false := by decide +kernel
theorem test_well_formed_connect : WellFormed (.connect (some 127) cfg) = true := by decide +kernel

/-! ### Decoding words written out from the encodings (30_encoding.md R71, R72, R80; vectors V41–V54, V85, V87) -/

theorem test_decode_exit_safe_start : decode [0x83] = .ok ⟨none, .cmdExitSafeStart, []⟩ := by decide
theorem test_decode_exit_safe_start_at_5 : decode [0xAA, 0x05, 0x03] = .ok ⟨some 5, .cmdExitSafeStart, []⟩ := by decide
theorem test_decode_energize : decode [0x85] = .ok ⟨none, .cmdEnergize, []⟩ := by decide
theorem test_decode_energize_at_5 : decode [0xAA, 0x05, 0x05] = .ok ⟨some 5, .cmdEnergize, []⟩ := by decide
theorem test_decode_deenergize : decode [0x86] = .ok ⟨none, .cmdDeenergize, []⟩ := by decide
theorem test_decode_deenergize_at_5 : decode [0xAA, 0x05, 0x06] = .ok ⟨some 5, .cmdDeenergize, []⟩ := by decide
theorem test_decode_stop_motor : decode [0x92] = .ok ⟨none, .cmdStopMotor, []⟩ := by decide
theorem test_decode_stop_motor_at_0 : decode [0xAA, 0x00, 0x12] = .ok ⟨some 0, .cmdStopMotor, []⟩ := by decide
theorem test_decode_target : decode [0xE0, 0x0E, 0x18, 0x7C, 0x7F, 0x7F] = .ok ⟨none, .cmdSetTargetPosition (-1000), []⟩ := by
  decide
theorem test_decode_target_at_5 :
    decode [0xAA, 0x05, 0x60, 0x0F, 0x7F, 0x7F, 0x7F, 0x7F] = .ok ⟨some 5, .cmdSetTargetPosition (-1), []⟩ := by decide
theorem test_decode_speed : decode [0xE6, 0x03, 0x00, 0x04, 0x1E, 0x00] = .ok ⟨none, .cmdSetMaxSpeed 2000000, []⟩ := by decide
theorem test_decode_speed_at_127 :
    decode [0xAA, 0x7F, 0x66, 0x07, 0x00, 0x00, 0x00, 0x00] = .ok ⟨some 127, .cmdSetMaxSpeed 8421504, []⟩ := by decide
theorem test_decode_variables : decode [0xA1, 0x22, 0x04] = .ok ⟨none, .cmdGetVariables 0x22 4, []⟩ := by decide
theorem test_decode_variables_at_5 :
    decode [0xAA, 0x05, 0x21, 0x47, 0x02] = .ok ⟨some 5, .cmdGetVariables 0x47 2, []⟩ := by decide

/-- V71: the rest of the bytes is returned. -/
theorem test_decode_rest : decode [0x83, 0x85] = .ok ⟨none, .cmdExitSafeStart, [0x85]⟩ := by decide
/-- V25: bits 7..4 of the leading byte and bit 7 of the others do not count. -/
theorem test_unpack_ignores_high_bits : unpack7 [0xFF, 0xFF, 0xFF, 0xFF, 0xFF] = -1 := by decide
/-- V62, V64–V70: what is no frame, by name. -/
theorem test_stop_empty : decode [] = .error .incomplete := by decide
theorem test_stop_header : decode [0xAA, 0x05] = .error .incomplete := by decide
theorem test_stop_address : decode [0xAA, 0x80, 0x03] = .error .badAddress := by decide
theorem test_stop_opcode : decode [0xAA, 0x05, 0x83] = .error .badOpcode := by decide
theorem test_stop_not_start : decode [0x03] = .error .notFrameStart := by decide
theorem test_stop_unknown : decode [0x84] = .error .unknownOpcode := by decide
theorem test_stop_short : decode [0xE0, 0x01, 0x02] = .error .incomplete := by decide
theorem test_stop_data : decode [0xE0, 0x80, 0x00, 0x00, 0x00, 0x00] = .error .badDataByte := by decide

/-- V19, V20: packed values written out. -/
theorem test_pack_high_bits : encodeInt32 (-2139062144) = .ok [0x0F, 0, 0, 0, 0] := by decide
theorem test_pack_mixed : encodeInt32 (-305419896) = .ok [0x0F, 0x08, 0x29, 0x4B, 0x6D] := by decide
/-- V35, V37: response bytes, the first the least significant. -/
theorem test_response_lowest : decodeInt32 [0x00, 0x00, 0x00, 0x80] = -2147483648 := by decide
theorem test_response_order : decodeInt32 [0x12, 0x34, 0x56, 0x78] = 2018915346 := by decide
/-- V78, V79: patterns are compared byte for byte. -/
theorem test_switch_swapped : decodeLimitSwitch cfg [0x01, 0x08] = false := by decide
theorem test_switch_one_bit : decodeLimitSwitch cfg [0x08, 0x03] = false := by decide

/-! ### Wire commands run by themselves (R130) -/

theorem test_run_exit_safe_start :
    gives [.tx [0x83] .ok] (.ok .unit) (exec .cmdExitSafeStart (session none { quiet with tx := [.ok] })) = true := by
  rfl
theorem test_run_energize :
    gives [.tx [0xAA, 0x05, 0x05] .ok] (.ok .unit) (exec .cmdEnergize (session (some 5) { quiet with tx := [.ok] }))
      = true := by rfl
theorem test_run_deenergize :
    gives [.tx [0xAA, 0x05, 0x06] .ok] (.ok .unit) (exec .cmdDeenergize (session (some 5) { quiet with tx := [.ok] }))
      = true := by rfl
theorem test_run_stop_motor_fails :
    gives [.tx [0x92] .err] (.error .transport) (exec .cmdStopMotor (session none { quiet with tx := [.err 0] })) = true := by
  rfl
theorem test_run_target :
    gives [.tx [0xE0, 0x01, 0x68, 0x03, 0x00, 0x00] .ok] (.ok .unit)
      (exec (.cmdSetTargetPosition 1000) (session none { quiet with tx := [.ok] })) = true := by rfl
theorem test_run_speed_not_clamped :
    gives [.tx [0xE6, 0x0F, 0x7F, 0x7F, 0x7F, 0x7F] .ok] (.ok .unit)
      (exec (.cmdSetMaxSpeed (-1)) (session none { quiet with tx := [.ok] })) = true := by rfl
theorem test_run_variables :
    gives [.tx [0xA1, 0x47, 0x02] .ok, .rx 2 (.ok [0x10, 0x02])] (.ok (.switch true))
      (exec (.cmdGetVariables 0x47 2) (session none { quiet with tx := [.ok], rx := [.ok [0x10, 0x02]] })) = true := by
  rfl

/-- R53: part of a variable, and two variables in one request. -/
theorem test_run_other_variable :
    exec (.cmdGetVariables 0x22 2) (session none quiet) = .refused .otherVariable
    ∧ exec (.cmdGetVariables 0x22 0x27) (session none quiet) = .refused .otherVariable := ⟨rfl, rfl⟩

/-! ### Session verbs (vectors V80–V101, V60, V61) -/

/-- V80. -/
theorem test_exit_safe_start :
    gives [.call .exitSafeStart, .tx [0x83] .ok, .ret .exitSafeStart (.ok .unit)] (.ok .unit)
      (exec .exitSafeStart (session none { quiet with tx := [.ok] })) = true := by rfl
/-- V81. -/
theorem test_energize :
    gives [.call .energize, .tx [0xAA, 0x05, 0x05] .ok, .ret .energize (.ok .unit)] (.ok .unit)
      (exec .energize (session (some 5) { quiet with tx := [.ok] })) = true := by rfl
/-- V82. -/
theorem test_stop_and_deenergize :
    gives
      [.call .stopAndDeenergize, .tx [0xAA, 0x05, 0x12] .ok, .sleep 1, .tx [0xAA, 0x05, 0x06] .ok,
        .ret .stopAndDeenergize (.ok .unit)] (.ok .unit)
      (exec .stopAndDeenergize (session (some 5) { quiet with tx := [.ok, .ok] })) = true := by rfl
/-- V83. -/
theorem test_stop_fails :
    gives [.call .stopAndDeenergize, .tx [0x92] .err, .ret .stopAndDeenergize (.error .transport)] (.error .transport)
      (exec .stopAndDeenergize (session none { quiet with tx := [.err 1] })) = true := by rfl
/-- V85. -/
theorem test_set_target :
    gives
      [.call (.setTargetPosition (-1)), .tx [0xE0, 0x0F, 0x7F, 0x7F, 0x7F, 0x7F] .ok,
        .ret (.setTargetPosition (-1)) (.ok .unit)] (.ok .unit)
      (exec (.setTargetPosition (-1)) (session none { quiet with tx := [.ok] })) = true := by rfl
/-- V86. -/
theorem test_set_target_out_of_range :
    gives
      [.call (.setTargetPosition 2147483648), .ret (.setTargetPosition 2147483648) (.error (.encoding .outOfRange))]
      (.error (.encoding .outOfRange)) (exec (.setTargetPosition 2147483648) (session none quiet)) = true := by
  rfl
/-- V87. -/
theorem test_set_max_speed_clamps :
    gives
      [.call (.setMaxSpeed 5000000), .tx [0xE6, 0x03, 0x00, 0x04, 0x1E, 0x00] .ok, .ret (.setMaxSpeed 5000000) (.ok .unit)]
      (.ok .unit) (exec (.setMaxSpeed 5000000) (session none { quiet with tx := [.ok] })) = true := by rfl
/-- V88. -/
theorem test_set_max_speed_negative :
    gives
      [.call (.setMaxSpeed (-7)), .tx [0xE6, 0x00, 0x00, 0x00, 0x00, 0x00] .ok, .ret (.setMaxSpeed (-7)) (.ok .unit)]
      (.ok .unit) (exec (.setMaxSpeed (-7)) (session none { quiet with tx := [.ok] })) = true := by rfl
/-- V90. -/
theorem test_get_position :
    gives
      [.call .getCurrentPosition, .tx [0xAA, 0x05, 0x21, 0x22, 0x04] .ok, .rx 4 (.ok [0x18, 0xFC, 0xFF, 0xFF]),
        .ret .getCurrentPosition (.ok (.position (-1000)))] (.ok (.position (-1000)))
      (exec .getCurrentPosition (session (some 5) { quiet with tx := [.ok], rx := [.ok [0x18, 0xFC, 0xFF, 0xFF]] }))
      = true := by rfl
/-- V91. -/
theorem test_get_position_short :
    gives
      [.call .getCurrentPosition, .tx [0xA1, 0x22, 0x04] .ok, .rx 4 (.ok [0x64, 0x00]),
        .ret .getCurrentPosition (.error (.protocol .shortRead))] (.error (.protocol .shortRead))
      (exec .getCurrentPosition (session none { quiet with tx := [.ok], rx := [.ok [0x64, 0x00]] })) = true := by
  rfl
/-- V94. -/
theorem test_switch_triggered :
    gives
      [.call .getLimitSwitchState, .tx [0xA1, 0x47, 0x02] .ok, .rx 2 (.ok [0x08, 0x01]),
        .ret .getLimitSwitchState (.ok (.switch true))] (.ok (.switch true))
      (exec .getLimitSwitchState (session none { quiet with tx := [.ok], rx := [.ok [0x08, 0x01]] })) = true := by
  rfl
/-- V97. -/
theorem test_update_home :
    passes (fun t => decide (t.homeOffset = 23) && decide (t.wire = [])) (exec (.updateHome 23) (session none quiet)) = true := by
  rfl
/-- V60, with the home at 50: 100 − 50. -/
theorem test_displayed_position :
    passes (fun t => decide (t.result = some (.ok (.position 50))))
      (exec .displayedPosition (session none { quiet with tx := [.ok], rx := [.ok [0x64, 0, 0, 0]] })) = true := by
  rfl
/-- V61: exact, outside int32 (−2^31 − 50). -/
theorem test_displayed_position_exact :
    passes (fun t => decide (t.result = some (.ok (.position (-2147483698)))))
      (exec .displayedPosition (session none { quiet with tx := [.ok], rx := [.ok [0, 0, 0, 0x80]] })) = true := by
  rfl
/-- V98. -/
theorem test_energize_sequence :
    gives
      [.call .energizeSequence, .tx [0x83] .ok, .tx [0x85] .ok, .ret .energizeSequence (.ok .unit)] (.ok .unit)
      (exec .energizeSequence (session none { quiet with tx := [.ok, .ok] })) = true := by rfl
/-- V99. -/
theorem test_energize_sequence_fails :
    gives [.call .energizeSequence, .tx [0x83] .err, .ret .energizeSequence (.error .transport)] (.error .transport)
      (exec .energizeSequence (session none { quiet with tx := [.err 0] })) = true := by rfl
/-- V100. -/
theorem test_closed : exec .energize { session none quiet with isOpen := false } = .refused .sessionClosed := rfl
/-- V101. -/
theorem test_jog : step (asked (.jog 5) quiet) = .refused .jog := rfl

/-! ### Controller (vectors V110–V122, programs P3, P5, P6) and construction (V130, V131) -/

/-- P6: an immediate trigger with −500 read back. -/
theorem test_calibrate_immediate :
    passes
      (fun t => decide (t.homeOffset = toU32 (-480)) && decide (t.phase = .found) && t.trig
        && decide (t.wire = [0x83, 0xA1, 0x47, 0x02, 0xA1, 0x22, 0x04, 0xE0, 0x0E, 0x20, 0x7E, 0x7F, 0x7F]))
      (exec .calibrate
        (session none
          { quiet with
            clock := [at0], tx := [.ok, .ok, .ok, .ok], rx := [.ok [0x10, 0x02], .ok [0x0C, 0xFE, 0xFF, 0xFF]] }))
      = true := by rfl
/-- R10: beyond the script the clock answers a free real number. -/
theorem test_calibrate_free_reading :
    passes (fun t => decide (t.t0 = .free 0) && decide (t.running = some .probing))
      (exec .calibrate (session none { quiet with tx := [.ok, .ok], rx := [.ok [0, 0]] })) = true := by rfl
/-- V111, V115: the test is inclusive; the target is the position less 3. -/
theorem test_probe_poll :
    passes
      (fun t => decide (t.running = some .probing) && decide (t.hist.drop 3
        = [.tx [0xE0, 0x0F, 0x7D, 0x7F, 0x7F, 0x7F] .ok, .sleep (3 / 20), .tx [0xA1, 0x47, 0x02] .ok, .rx 2 (.ok [0, 0])]))
      (step
        (probing false
          { quiet with clock := [at3_10], tx := [.ok, .ok, .ok], rx := [.ok [0, 0, 0, 0], .ok [0, 0]] })) = true := by
  decide +kernel
/-- V112: a target outside int32. -/
theorem test_probe_target_out_of_range :
    passes (fun t => decide (t.result = some (.error (.encoding .outOfRange))) && decide (t.phase = .idle)
        && decide (t.wire = [0xA1, 0x22, 0x04]))
      (step (probing false { quiet with clock := [at0], tx := [.ok], rx := [.ok [0x02, 0, 0, 0x80]] })) = true := by
  decide +kernel
/-- V113: the found position plus the offset is outside int32. -/
theorem test_found_out_of_range :
    passes (fun t => decide (t.result = some (.error (.encoding .outOfRange))) && decide (t.homeOffset = 50)
        && decide (t.phase = .idle))
      (step (probing true { quiet with clock := [at0], tx := [.ok], rx := [.ok [0xEC, 0xFF, 0xFF, 0x7F]] })) = true := by
  decide +kernel
/-- V116: triggered in the last poll, the budget over. -/
theorem test_found_past_budget :
    passes (fun t => decide (t.result = some (.ok .found)) && decide (t.homeOffset = 114))
      (step (probing true { quiet with clock := [.exact 1], tx := [.ok, .ok], rx := [.ok [0x5E, 0, 0, 0]] })) = true := by
  decide +kernel
/-- P3, last test. -/
theorem test_timed_out :
    passes (fun t => decide (t.result = some (.ok (.timedOut none))) && decide (t.phase = .timedOut)
        && decide (t.homeOffset = 50))
      (step (probing false { quiet with clock := [at9_20] })) = true := by decide +kernel
/-- V122. -/
theorem test_go_home_reached :
    passes (fun t => decide (t.result = some (.ok (.home .reached))) && decide (t.attempts = 1)
        && decide (t.wire = [0xE0, 0x00, 0x32, 0x00, 0x00, 0x00, 0xA1, 0x22, 0x04]))
      (exec .goHome (session none { quiet with tx := [.ok, .ok], rx := [.ok [0x32, 0, 0, 0]] })) = true := by
  rfl
/-- P5: the cap test before the third attempt; the phase comes back. -/
theorem test_go_home_cap :
    passes (fun t => decide (t.result = some (.ok (.home .homingFailed))) && decide (t.phase = .found)
        && decide (t.wire = [])) (step (homing 2 quiet)) = true := by rfl
/-- V130. -/
theorem test_connect_bad_address :
    passes (fun t => decide (t.result = some (.error (.encoding .badAddress))))
      (exec (.connect (some 200) cfg) (session none { quiet with opening := [true] })) = true := by rfl
/-- V131. -/
theorem test_connect_fails :
    passes (fun t => decide (t.result = some (.error .transport)))
      (exec (.connect none cfg) (session none { quiet with opening := [false] })) = true := by rfl

/-! ### Witnesses: for each statement with hypotheses, values that meet them, clause by clause -/

/-- A position answer 0 and the status words N (not triggered) and P1. -/
def zero : RxAnswer := .ok [0, 0, 0, 0]
def wordN : Byte × Byte := (0, 0)
def wordP : Byte × Byte := (0x08, 0x01)

theorem test_not_triggered : ¬ Triggered cfg wordN := by unfold Triggered; decide
theorem test_triggered : Triggered cfg wordP := .inl rfl

/-! The cap and the times of the witnesses: readings, and readings within and past the budget of 3/10. -/

theorem test_time_0 : 0 ≤ at0.value := by norm_num [at0]
theorem test_time_1_10 : 0 ≤ at1_10.value := by norm_num [at1_10]
theorem test_time_3_10 : 0 ≤ at3_10.value := by norm_num [at3_10]
theorem test_time_9_20 : 0 ≤ at9_20.value := by norm_num [at9_20]
theorem test_time_4_5 : 0 ≤ at4_5.value := by norm_num [at4_5]
theorem test_cap_0 : cfg.goHomeMaxAttempts ≠ some 0 := by decide
theorem test_cap_1 : cfg.goHomeMaxAttempts ≠ some 1 := by decide
theorem test_settle : 0 < (3 / 20 : Seconds) := by norm_num
theorem test_limit : 0 ≤ (3 / 10 : Seconds) := by norm_num
theorem test_budget_1_10 : at1_10.value - at0.value ≤ (3 / 10 : Seconds) := by norm_num [at1_10, at0]
theorem test_budget_3_10 : at3_10.value - at0.value ≤ (3 / 10 : Seconds) := by norm_num [at3_10, at0]
theorem test_past_9_20 : (3 / 10 : Seconds) < at9_20.value - at0.value := by norm_num [at9_20, at0]

theorem test_witness_EncodedCommandDecodesBack :
    ∀ i ∈ [Instr.cmdExitSafeStart, .cmdEnergize, .cmdDeenergize, .cmdStopMotor, .cmdSetTargetPosition (-2147483648),
        .cmdSetMaxSpeed 2147483647, .cmdGetVariables 0x7F 0x7F], i.isWire = true ∧ WellFormed i = true := by decide

theorem test_witness_RoundTripLaws :
    (InInt32 (-2147483648) ∧ InInt32 2147483647)
    ∧ (arity 0xE0 = some 5 ∧ [0x0F, 0x7F, 0x7F, 0x7F, 0x7F].length = 5
      ∧ ∀ b ∈ ([0x0F, 0x7F, 0x7F, 0x7F, 0x7F] : List Byte), highBit b = false)
    ∧ (InInt32 128 ∧ encodeInt32 128 = .ok [1, 0, 0, 0, 0]
      ∧ ((toU32 128).getLsbD 7 || (toU32 128).getLsbD 15 || (toU32 128).getLsbD 23 || (toU32 128).getLsbD 31) = true)
    ∧ encodeInt32 (-1) = .ok [0x0F, 0x7F, 0x7F, 0x7F, 0x7F] := by decide

theorem test_witness_ParsedFrameIsAnEncodedCommand :
    parseFrame [0xAA, 0x7F, 0x21, 0x22, 0x04, 0x83] = .ok ⟨some 127, 0xA1, [0x22, 0x04], [0x83]⟩ := by decide

theorem test_witness_EncodeCommandFramings :
    (0 ≤ (0 : Int) ∧ (0 : Int) ≤ 127) ∧ (0 ≤ (127 : Int) ∧ (127 : Int) ≤ 127) ∧ ((-1 : Int) < 0 ∨ 127 < (-1 : Int))
      ∧ ((128 : Int) < 0 ∨ 127 < (128 : Int)) := by decide

theorem test_witness_PackedInt32Layout : InInt32 (-2147483648) ∧ InInt32 2147483647 := by decide

theorem test_witness_DecodeInt32 :
    (0xFF : Byte).toNat + 256 * (0xFF : Byte).toNat + 65536 * (0xFF : Byte).toNat + 16777216 * (0x7F : Byte).toNat < 2147483648
    ∧ 2147483648 ≤ (0 : Byte).toNat + 256 * (0 : Byte).toNat + 65536 * (0 : Byte).toNat + 16777216 * (0x80 : Byte).toNat := by
  decide

theorem test_witness_ClampSpeedRange :
    ((-1 : Int) < 0) ∧ ((cfg.maxSpeed.toNat : Int) < 2000001) ∧ (0 ≤ (0 : Int) ∧ (0 : Int) ≤ cfg.maxSpeed.toNat)
      ∧ (0 ≤ (2000000 : Int) ∧ (2000000 : Int) ≤ cfg.maxSpeed.toNat) := by decide

theorem test_witness_StepRuns :
    ((asked (.frames [0x83, 0x85]) quiet).running = none
      ∧ (asked (.frames [0x83, 0x85]) quiet).requests = .frames [0x83, 0x85] :: []
      ∧ decode [0x83, 0x85] = .ok ⟨none, .cmdExitSafeStart, [0x85]⟩
      ∧ none = (asked (.frames [0x83, 0x85]) quiet).address)
    ∧ decodeTable 24 0xAA0512 = some ⟨some 5, .cmdStopMotor, [0, 0, 0, 0, 0]⟩ := by decide

theorem test_witness_StepServes :
    ((session none quiet).running = none ∧ (session none quiet).requests = [])
    ∧ (asked (.call .calibrate) quiet).requests = .call .calibrate :: []
    ∧ (asked .teardown quiet).requests = .teardown :: []
    ∧ (asked (.jog 5) quiet).requests = .jog 5 :: []
    ∧ ((asked (.frames [0x84]) quiet).requests = .frames [0x84] :: [] ∧ decode [0x84] = .error .unknownOpcode)
    ∧ (decode [0xAA, 0x05, 0x03] = .ok ⟨some 5, .cmdExitSafeStart, []⟩
      ∧ some 5 ≠ (asked (.frames [0xAA, 0x05, 0x03]) quiet).address)
    ∧ (probing false quiet).running = some .probing := by decide

theorem test_witness_ClosedOrBusy :
    ({ session none quiet with isOpen := false }.isOpen = false ∧ ∀ a c, Instr.energize ≠ .connect a c)
    ∧ (probing false quiet).busy = true := ⟨⟨rfl, by simp⟩, rfl⟩

/-- A session is ready and its oracle is what the statements about one write, one read or two writes ask for. -/
theorem test_witness_scripts :
    Ready (session none { quiet with tx := [.ok] }) ∧ Ready (session none { quiet with tx := [.err 1] })
    ∧ (session none { quiet with tx := [.ok] }).oracle = { quiet with tx := .ok :: quiet.tx }
    ∧ (session none { quiet with tx := [.err 1] }).oracle = { quiet with tx := .err 1 :: quiet.tx }
    ∧ (session none { quiet with tx := [.ok, .ok] }).oracle = { quiet with tx := .ok :: .ok :: quiet.tx }
    ∧ (session none { quiet with tx := [.ok, .err 1] }).oracle = { quiet with tx := .ok :: .err 1 :: quiet.tx }
    ∧ (session none { quiet with tx := [.ok], rx := [zero] }).oracle
        = { quiet with tx := .ok :: quiet.tx, rx := zero :: quiet.rx }
    ∧ (session none { quiet with tx := [.ok], rx := [.err] }).oracle
        = { quiet with tx := .ok :: quiet.tx, rx := .err :: quiet.rx } :=
  ⟨⟨rfl, rfl⟩, ⟨rfl, rfl⟩, rfl, rfl, rfl, rfl, rfl, rfl⟩

/-- The values that the same statements ask for: int32 or not, and answers of the length asked for or shorter. -/
theorem test_witness_values :
    InInt32 2147483647 ∧ InInt32 (-2147483648) ∧ ¬ InInt32 2147483648 ∧ ¬ InInt32 (-2147483649)
    ∧ [(0 : Byte), 0, 0, 0].length = (4 : Byte).toNat ∧ [(0 : Byte), 0, 0].length < (4 : Byte).toNat
    ∧ [(0 : Byte), 0].length = (2 : Byte).toNat ∧ [(0 : Byte)].length < (2 : Byte).toNat
    ∧ ¬ ((0x22 : Byte) = 0x22 ∧ (2 : Byte) = 4) ∧ ¬ ((0x22 : Byte) = 0x47 ∧ (2 : Byte) = 2) := by decide

theorem test_witness_SetMaxSpeed :
    ((-1 : Int) < 0 ∧ (0 : Int) = 0)
    ∧ (((session none quiet).cfg.maxSpeed.toNat : Int) < 2000001 ∧ (2000000 : Int) = (session none quiet).cfg.maxSpeed.toNat)
    ∧ (0 ≤ (2000000 : Int) ∧ (2000000 : Int) ≤ (session none quiet).cfg.maxSpeed.toNat ∧ (2000000 : Int) = 2000000) := by
  decide

theorem test_witness_WireCommandFrame :
    Instr.isWire .cmdStopMotor = true ∧ ∃ t, exec .cmdStopMotor (session none quiet) = .next t := ⟨rfl, _, rfl⟩

theorem test_witness_SessionVerbFrame :
    Instr.isIoVerb .stopAndDeenergize = true ∧ ∃ t, exec .stopAndDeenergize (session none quiet) = .next t := ⟨rfl, _, rfl⟩

theorem test_witness_CalibrateImmediateTrigger :
    Ready (session none quiet) ∧ 0 ≤ at0.value ∧ Triggered cfg wordP ∧ InInt32 2147483627
    ∧ InInt32 (2147483627 + cfg.calOffset)
    ∧ (session none
        { quiet with
          clock := [at0], tx := [.ok, .ok, .ok, .ok], rx := [.ok [wordP.1, wordP.2], .ok (le4 2147483627)] }).oracle
      = { quiet with
          clock := at0 :: quiet.clock, tx := .ok :: .ok :: .ok :: .ok :: quiet.tx,
          rx := .ok [wordP.1, wordP.2] :: .ok (le4 2147483627) :: quiet.rx } :=
  ⟨⟨rfl, rfl⟩, test_time_0, test_triggered, by decide, by decide, rfl⟩

theorem test_witness_CalibrateEntersProbing :
    Ready (session none quiet) ∧ 0 ≤ at0.value ∧ ¬ Triggered cfg wordN
    ∧ (session none { quiet with clock := [at0], tx := [.ok, .ok], rx := [.ok [wordN.1, wordN.2]] }).oracle
      = { quiet with clock := at0 :: quiet.clock, tx := .ok :: .ok :: quiet.tx, rx := .ok [wordN.1, wordN.2] :: quiet.rx } :=
  ⟨⟨rfl, rfl⟩, test_time_0, test_not_triggered, rfl⟩

/-- The last time within the budget, the lowest position with a target and the next below it (P10's), and a reading that does not
trigger and one that does. -/
theorem test_witness_ProbePollTurn :
    (probing false quiet).running = some .probing ∧ (probing false quiet).trig = false
    ∧ 0 ≤ at3_10.value ∧ at3_10.value - (probing false quiet).t0.value ≤ (probing false quiet).cfg.calTimeLimit
    ∧ InInt32 (-2147483645) ∧ InInt32 (-2147483645 - cfg.stepSize)
    ∧ InInt32 (-2147483646) ∧ ¬ InInt32 (-2147483646 - cfg.stepSize)
    ∧ (false = true ↔ Triggered cfg wordN) ∧ (true = true ↔ Triggered cfg wordP)
    ∧ (probing false
        { quiet with
          clock := [at3_10], tx := [.ok, .ok, .ok],
          rx := [.ok (le4 (-2147483645)), .ok [wordN.1, wordN.2]] }).oracle
      = { quiet with
          clock := at3_10 :: quiet.clock, tx := .ok :: .ok :: .ok :: quiet.tx,
          rx := .ok (le4 (-2147483645)) :: .ok [wordN.1, wordN.2] :: quiet.rx }
    ∧ (probing false { quiet with clock := [at3_10], tx := [.ok], rx := [.ok (le4 (-2147483646))] }).oracle
      = { quiet with clock := at3_10 :: quiet.clock, tx := .ok :: quiet.tx, rx := .ok (le4 (-2147483646)) :: quiet.rx } :=
  ⟨rfl, rfl, test_time_3_10, test_budget_3_10, by decide, by decide, by decide, by decide, by simp [test_not_triggered],
    by simp [test_triggered], rfl, rfl⟩

theorem test_witness_ProbeExitDecision :
    (probing true quiet).running = some .probing ∧ 0 ≤ at9_20.value ∧ (probing true quiet).trig = true
    ∧ InInt32 2147483627 ∧ InInt32 (2147483627 + cfg.calOffset)
    ∧ InInt32 2147483628 ∧ ¬ InInt32 (2147483628 + cfg.calOffset) ∧ (probing false quiet).trig = false
    ∧ (probing false quiet).cfg.calTimeLimit < at9_20.value - (probing false quiet).t0.value
    ∧ (probing false quiet).cfg.autoRecover = false
    ∧ (probing true { quiet with clock := [at9_20], tx := [.ok, .ok], rx := [.ok (le4 2147483627)] }).oracle
      = { quiet with clock := at9_20 :: quiet.clock, tx := .ok :: .ok :: quiet.tx, rx := .ok (le4 2147483627) :: quiet.rx }
    ∧ (probing true { quiet with clock := [at9_20], tx := [.ok], rx := [.ok (le4 2147483628)] }).oracle
      = { quiet with clock := at9_20 :: quiet.clock, tx := .ok :: quiet.tx, rx := .ok (le4 2147483628) :: quiet.rx }
    ∧ (probing false { quiet with clock := [at9_20] }).oracle = { quiet with clock := at9_20 :: quiet.clock } :=
  ⟨rfl, test_time_9_20, rfl, by decide, by decide, by decide, by decide, rfl, test_past_9_20, rfl, rfl, rfl, rfl⟩

/-- P7's timed-out turn, with the home and another position read back, and turns of its home-return loop below and at the
cap of 2. -/
theorem test_witness_TimeoutRecovers :
    (∀ p ∈ [50, 40],
      let s := timingOut { quiet with clock := [at9_20], tx := [.ok, .ok], rx := [.ok (le4 p)] }
      s.running = some .probing ∧ s.trig = false ∧ 0 ≤ at9_20.value ∧ s.cfg.calTimeLimit < at9_20.value - s.t0.value
      ∧ s.cfg.autoRecover = true ∧ s.cfg.goHomeMaxAttempts ≠ some 0 ∧ InInt32 p
      ∧ s.oracle
        = { quiet with clock := at9_20 :: quiet.clock, tx := .ok :: .ok :: quiet.tx, rx := .ok (le4 p) :: quiet.rx })
    ∧ ((recovering 2 quiet).running = some (.homing .timedOut true)
      ∧ (recovering 2 quiet).cfg.goHomeMaxAttempts = some (recovering 2 quiet).attempts)
    ∧ ∀ p ∈ [50, 40],
      let s := recovering 1 { quiet with tx := [.ok, .ok], rx := [.ok (le4 p)] }
      s.running = some (.homing .timedOut true) ∧ s.cfg.goHomeMaxAttempts ≠ some s.attempts ∧ InInt32 p
      ∧ s.oracle = { quiet with tx := .ok :: .ok :: quiet.tx, rx := .ok (le4 p) :: quiet.rx } := by
  refine ⟨fun p hp => ⟨rfl, rfl, test_time_9_20, test_past_9_20, rfl, test_cap_0, ?_, rfl⟩, ⟨rfl, rfl⟩,
    fun p hp => ⟨rfl, test_cap_1, ?_, rfl⟩⟩ <;> revert p <;> decide

/-- The quiet poll of P2, with its triggered one after it. -/
theorem test_witness_CalibrateFindsTheSwitch :
    let q : PollAnswers := ⟨at1_10, 100, wordN⟩
    let l : PollAnswers := ⟨at3_10, 97, wordP⟩
    let s := asked (.call .calibrate)
      { quiet with
        clock := [at0, at1_10, at3_10, at4_5], tx := List.replicate 10 .ok,
        rx := [.ok [0, 0], .ok (le4 100), .ok [0, 0], .ok (le4 97), .ok [0x08, 0x01], .ok (le4 94)] }
    Ready s ∧ s.running = none ∧ s.requests = .call .calibrate :: [] ∧ 0 ≤ at4_5.value
    ∧ (∀ x ∈ [q], QuietPoll s.cfg at0 x) ∧ 0 ≤ l.time.value ∧ l.time.value - at0.value ≤ s.cfg.calTimeLimit ∧ InInt32 l.position
    ∧ InInt32 (l.position - s.cfg.stepSize) ∧ Triggered s.cfg l.word ∧ InInt32 94 ∧ InInt32 (94 + s.cfg.calOffset)
    ∧ s.oracle
      = { quiet with
          clock := at0 :: ([q] ++ [l]).map (·.time) ++ at4_5 :: quiet.clock
          tx := List.replicate (3 * [q].length + 7) .ok ++ quiet.tx
          rx := .ok [wordN.1, wordN.2]
            :: ([q] ++ [l]).flatMap (fun q => [.ok (le4 q.position), .ok [q.word.1, q.word.2]])
            ++ .ok (le4 94) :: quiet.rx } := by
  refine ⟨⟨rfl, rfl⟩, rfl, rfl, test_time_4_5, ?_, test_time_3_10, test_budget_3_10, by decide, by decide, test_triggered,
    by decide, by decide, rfl⟩
  intro x hx
  obtain rfl := List.mem_singleton.1 hx
  exact ⟨test_time_1_10, test_budget_1_10, by decide, by decide, test_not_triggered⟩

/-- P3. -/
theorem test_witness_CalibrateTimesOut :
    let q : PollAnswers := ⟨at3_10, 0, wordN⟩
    let s := asked (.call .calibrate)
      { quiet with
        clock := [at0, at3_10, at9_20], tx := List.replicate 5 .ok, rx := [.ok [0, 0], .ok (le4 0), .ok [0, 0]] }
    Ready s ∧ s.running = none ∧ s.requests = .call .calibrate :: [] ∧ 0 ≤ at9_20.value
    ∧ (∀ x ∈ [q], QuietPoll s.cfg at0 x) ∧ s.cfg.calTimeLimit < at9_20.value - at0.value ∧ s.cfg.autoRecover = false
    ∧ s.oracle
      = { quiet with
          clock := at0 :: [q].map (·.time) ++ at9_20 :: quiet.clock
          tx := List.replicate (3 * [q].length + 2) .ok ++ quiet.tx
          rx := .ok [wordN.1, wordN.2]
            :: [q].flatMap (fun q => [.ok (le4 q.position), .ok [q.word.1, q.word.2]]) ++ quiet.rx } := by
  refine ⟨⟨rfl, rfl⟩, rfl, rfl, test_time_9_20, ?_, test_past_9_20, rfl, rfl⟩
  intro x hx
  obtain rfl := List.mem_singleton.1 hx
  exact ⟨test_time_3_10, test_budget_3_10, by decide, by decide, test_not_triggered⟩

/-- The entry and one poll, the clock having kept its duty. -/
theorem test_witness_ProbingIsBounded :
    let s := asked (.call .calibrate)
      { quiet with
        clock := [at0, at1_10], tx := List.replicate 5 .ok, rx := [.ok [0, 0], .ok (le4 0), .ok [0, 0]] }
    let evs : List Event := .call .calibrate :: entryEvents none at0 wordN ++ pollEvents none cfg ⟨at1_10, 0, wordN⟩
    Ready s ∧ s.running = none ∧ s.requests = [.call .calibrate] ∧ 0 < s.cfg.pollSettle ∧ 0 ≤ s.cfg.calTimeLimit
    ∧ ClockDuty evs ∧ ∃ t, runSteps (1 + 1) s = .next t ∧ t.running = some .probing ∧ t.hist = s.hist ++ evs := by
  refine ⟨⟨rfl, rfl⟩, rfl, rfl, test_settle, test_limit, ?_, ?_⟩
  · simp [entryEvents, switchEvents, pollEvents, positionEvents, clockDuty_cons, ReadingsFrom, at0, at1_10]
  · obtain ⟨t, h, k⟩ := of_passes (p := fun t => decide (t.running = some .probing)
        && decide (t.hist = .call .calibrate :: entryEvents none at0 wordN ++ pollEvents none cfg ⟨at1_10, 0, wordN⟩))
      (o := runSteps (1 + 1)
        (asked (.call .calibrate)
          { quiet with
            clock := [at0, at1_10], tx := List.replicate 5 .ok, rx := [.ok [0, 0], .ok (le4 0), .ok [0, 0]] }))
      (by decide +kernel)
    simp only [Bool.and_eq_true, decide_eq_true_eq] at k
    exact ⟨t, h, k⟩

/-- The loop ends at its first turn, past the budget, and the machine then waits: the clock is read once, at 9/20. -/
theorem test_witness_ProbingEndsIfTheClockGoesOn :
    ∃ run : Nat → State, EndlessRun run ∧ (run 0).running = some .probing ∧ KeepsClockDuty run := by
  obtain ⟨t, h, k⟩ := of_passes (p := fun t => decide (t.running = none) && decide (t.requests = [])
      && decide (t.hist = [.now at9_20, .ret .calibrate (.ok (.timedOut none))]))
    (o := step (probing false { quiet with clock := [at9_20] })) (by decide +kernel)
  simp only [Bool.and_eq_true, decide_eq_true_eq] at k
  obtain ⟨⟨k1, k2⟩, k3⟩ := k
  have wait : step t = .next t := by simp [step, stepOnce, k1, k2]
  refine ⟨fun n => if n = 0 then probing false { quiet with clock := [at9_20] } else t, fun n => ?_, rfl, fun n => ?_, ?_⟩
  · cases n with
    | zero => exact h
    | succ n => exact wait
  · cases n with
    | zero => exact clockDuty_nil
    | succ n => simp [k3, clockDuty_cons, ReadingsFrom]
  · intro again
    obtain ⟨m, r, hm, es, he, hr⟩ := again 1
    obtain rfl : es = [] := by simpa [show m ≠ 0 by omega] using he
    simp at hr

theorem test_witness_GoHomeReachesAtOnce :
    let s := session none { quiet with tx := [.ok, .ok], rx := [.ok (le4 (toS32 50))] }
    Ready s ∧ s.cfg.goHomeMaxAttempts ≠ some 0
    ∧ s.oracle = { quiet with tx := .ok :: .ok :: quiet.tx, rx := .ok (le4 (toS32 s.homeOffset)) :: quiet.rx } :=
  ⟨⟨rfl, rfl⟩, by decide, rfl⟩

/-- P4: k = 2, at the cap of 2. -/
theorem test_witness_GoHomeConverges :
    let s := asked (.call .goHome)
      { quiet with tx := List.replicate 4 .ok, rx := [.ok (le4 40), .ok (le4 (toS32 50))] }
    Ready s ∧ s.running = none ∧ s.requests = .call .goHome :: [] ∧ (∀ p ∈ [40], InInt32 p ∧ p ≠ toS32 s.homeOffset)
    ∧ (∀ n, s.cfg.goHomeMaxAttempts = some n → [40].length + 1 ≤ n)
    ∧ s.oracle
      = { quiet with
          tx := List.replicate (2 * ([(40 : Int)].length + 1)) .ok ++ quiet.tx
          rx := ([40] ++ [toS32 s.homeOffset]).map (fun p => .ok (le4 p)) ++ quiet.rx } := by
  refine ⟨⟨rfl, rfl⟩, rfl, rfl, by decide, ?_, rfl⟩
  intro n h
  obtain rfl := Option.some.inj h
  decide

/-- P5: the cap of 2. -/
theorem test_witness_GoHomeStopsAtTheCap :
    let s := asked (.call .goHome) { quiet with tx := List.replicate 4 .ok, rx := [.ok (le4 40), .ok (le4 45)] }
    Ready s ∧ s.running = none ∧ s.requests = .call .goHome :: [] ∧ [(40 : Int), 45] ≠ []
    ∧ (∀ p ∈ [40, 45], InInt32 p ∧ p ≠ toS32 s.homeOffset) ∧ s.cfg.goHomeMaxAttempts = some [(40 : Int), 45].length
    ∧ s.oracle
      = { quiet with
          tx := List.replicate (2 * [(40 : Int), 45].length) .ok ++ quiet.tx
          rx := [40, 45].map (fun p => .ok (le4 p)) ++ quiet.rx } :=
  ⟨⟨rfl, rfl⟩, rfl, rfl, by decide, by decide, rfl, rfl⟩

/-- V124. -/
theorem test_witness_UncappedGoHomeKeepsTrying :
    let s := { asked (.call .goHome) { quiet with tx := List.replicate 4 .ok, rx := [.ok (le4 40), .ok (le4 45)] } with
      cfg := { cfg with goHomeMaxAttempts := none } }
    Ready s ∧ s.running = none ∧ s.requests = .call .goHome :: [] ∧ [(40 : Int), 45] ≠ []
    ∧ (∀ p ∈ [40, 45], InInt32 p ∧ p ≠ toS32 s.homeOffset) ∧ s.cfg.goHomeMaxAttempts = none
    ∧ s.oracle
      = { quiet with
          tx := List.replicate (2 * [(40 : Int), 45].length) .ok ++ quiet.tx
          rx := [40, 45].map (fun p => .ok (le4 p)) ++ quiet.rx } :=
  ⟨⟨rfl, rfl⟩, rfl, rfl, by decide, by decide, rfl, rfl⟩

/-- P7 with a second attempt, and with both attempts of the cap of 2 failing. -/
theorem test_witness_RecoveryRunsGoHome :
    let s := timingOut { quiet with clock := [at9_20], tx := List.replicate 4 .ok, rx := [.ok (le4 40), .ok (le4 (toS32 50))] }
    let u := timingOut { quiet with clock := [at9_20], tx := List.replicate 4 .ok, rx := [.ok (le4 40), .ok (le4 45)] }
    s.running = some .probing ∧ s.trig = false ∧ 0 ≤ at9_20.value ∧ s.cfg.calTimeLimit < at9_20.value - s.t0.value
    ∧ s.cfg.autoRecover = true ∧ (∀ p ∈ [40, 45], InInt32 p ∧ p ≠ toS32 s.homeOffset)
    ∧ (∀ n, s.cfg.goHomeMaxAttempts = some n → [40].length + 1 ≤ n)
    ∧ s.oracle
      = { quiet with
          clock := at9_20 :: quiet.clock
          tx := List.replicate (2 * ([(40 : Int)].length + 1)) .ok ++ quiet.tx
          rx := ([40] ++ [toS32 s.homeOffset]).map (fun p => .ok (le4 p)) ++ quiet.rx }
    ∧ [(40 : Int), 45] ≠ [] ∧ u.cfg.goHomeMaxAttempts = some [(40 : Int), 45].length
    ∧ u.oracle
      = { quiet with
          clock := at9_20 :: quiet.clock
          tx := List.replicate (2 * [(40 : Int), 45].length) .ok ++ quiet.tx
          rx := [40, 45].map (fun p => .ok (le4 p)) ++ quiet.rx } := by
  refine ⟨rfl, rfl, test_time_9_20, test_past_9_20, rfl, by decide, ?_, rfl, by decide, rfl, rfl⟩
  intro n h
  obtain rfl := Option.some.inj h
  decide

theorem test_witness_UncappedGoHomeEnds :
    let s := { homing 7 quiet with cfg := { cfg with goHomeMaxAttempts := none } }
    s.running = some (.homing .found false) ∧ s.cfg.goHomeMaxAttempts = none ∧ ∃ t, step s = .next t :=
  ⟨rfl, rfl, _, rfl⟩

theorem test_witness_ControllerFrame :
    (∃ t, exec .calibrate (session none quiet) = .next t) ∧ (∃ t, exec .goHome (session none quiet) = .next t)
    ∧ ((probing false quiet).running ≠ none ∧ ∃ t, step (probing false quiet) = .next t)
    ∧ ((homing 1 quiet).running = some (.homing .found false) ∧ ∃ t, step (homing 1 quiet) = .next t) :=
  ⟨⟨_, rfl⟩, ⟨_, rfl⟩, ⟨by decide, _, rfl⟩, rfl, _, rfl⟩

/-- A verb ended by an error, `calibrate` ended by one at its entry, and one that ends a turn of `go_home`. -/
theorem test_witness_ErrorKeepsTheSession :
    (∃ t, exec .energize (session none { quiet with tx := [.err 0] }) = .next t ∧ t.busy = false
      ∧ t.result = some (.error .transport))
    ∧ (∃ t, exec .calibrate (session none { quiet with clock := [at0], tx := [.err 0] }) = .next t ∧ t.busy = false
      ∧ t.result = some (.error .transport))
    ∧ ((homing 1 { quiet with tx := [.err 0] }).running ≠ none
      ∧ ∃ t, step (homing 1 { quiet with tx := [.err 0] }) = .next t ∧ t.running = none
        ∧ t.result = some (.error .transport)) :=
  ⟨⟨_, rfl, rfl, rfl⟩, ⟨_, rfl, rfl, rfl⟩, by decide, _, rfl, rfl, rfl⟩

/-- Every way a read and an attempt can fail, a short answer being one byte short. -/
theorem test_witness_failures :
    ((ReadFailure.request 1).Fits 2 ∧ ReadFailure.noAnswer.Fits 2 ∧ (ReadFailure.short [0]).Fits 2)
    ∧ ((ReadFailure.request 1).Fits 4 ∧ ReadFailure.noAnswer.Fits 4 ∧ (ReadFailure.short [0, 0, 0]).Fits 4)
    ∧ (AttemptFailure.command 1).Fits ∧ (AttemptFailure.readBack (.request 1)).Fits
    ∧ (AttemptFailure.readBack .noAnswer).Fits ∧ (AttemptFailure.readBack (.short [0, 0, 0])).Fits :=
  ⟨⟨trivial, trivial, by simp [ReadFailure.Fits]⟩, ⟨trivial, trivial, by simp [ReadFailure.Fits]⟩, trivial, trivial, trivial,
    by simp [AttemptFailure.Fits, ReadFailure.Fits]⟩

theorem test_witness_CalibrateEntryErrors :
    Ready (session none quiet) ∧ 0 ≤ at0.value
    ∧ (session none { quiet with clock := [at0], tx := [.err 1] }).oracle
      = { quiet with clock := at0 :: quiet.clock, tx := .err 1 :: quiet.tx }
    ∧ ∀ f ∈ [ReadFailure.request 1, .noAnswer, .short [0]],
      (session none { quiet with clock := [at0], tx := .ok :: f.tx, rx := f.rx }).oracle
        = { quiet with clock := at0 :: quiet.clock, tx := .ok :: (f.tx ++ quiet.tx), rx := f.rx ++ quiet.rx } :=
  ⟨⟨rfl, rfl⟩, test_time_0, rfl, by decide⟩

/-- At the last time within the budget; the first clause is P8's short read. -/
theorem test_witness_ProbePollErrors :
    (probing false quiet).running = some .probing ∧ (probing false quiet).trig = false ∧ 0 ≤ at3_10.value
    ∧ at3_10.value - (probing false quiet).t0.value ≤ (probing false quiet).cfg.calTimeLimit
    ∧ InInt32 (-2147483645) ∧ InInt32 (-2147483645 - cfg.stepSize)
    ∧ (probing false { quiet with clock := [at3_10], tx := [.ok], rx := [.ok [0, 0, 0]] }).oracle
      = { quiet with
          clock := at3_10 :: quiet.clock, tx := (ReadFailure.short [0, 0, 0]).tx ++ quiet.tx,
          rx := (ReadFailure.short [0, 0, 0]).rx ++ quiet.rx }
    ∧ (probing false { quiet with clock := [at3_10], tx := [.ok, .err 1], rx := [.ok (le4 (-2147483645))] }).oracle
      = { quiet with
          clock := at3_10 :: quiet.clock, tx := .ok :: .err 1 :: quiet.tx, rx := .ok (le4 (-2147483645)) :: quiet.rx }
    ∧ (probing false
        { quiet with clock := [at3_10], tx := [.ok, .ok, .ok], rx := [.ok (le4 (-2147483645)), .ok [0]] }).oracle
      = { quiet with
          clock := at3_10 :: quiet.clock, tx := .ok :: .ok :: ((ReadFailure.short [0]).tx ++ quiet.tx),
          rx := .ok (le4 (-2147483645)) :: ((ReadFailure.short [0]).rx ++ quiet.rx) } :=
  ⟨rfl, rfl, test_time_3_10, test_budget_3_10, by decide, by decide, rfl, rfl, rfl⟩

/-- At a turn of the loop past the budget, and at the entry; the last clause is P9's failed command. -/
theorem test_witness_FoundActionErrors :
    0 ≤ at9_20.value ∧ InInt32 2147483627 ∧ InInt32 2147483628 ∧ (probing true quiet).running = some .probing
    ∧ (probing true quiet).trig = true
    ∧ (probing true { quiet with clock := [at9_20], tx := [.err 1] }).oracle
      = { quiet with
          clock := at9_20 :: quiet.clock, tx := (ReadFailure.request 1).tx ++ quiet.tx,
          rx := (ReadFailure.request 1).rx ++ quiet.rx }
    ∧ InInt32 (2147483627 + cfg.calOffset)
    ∧ (probing true { quiet with clock := [at9_20], tx := [.ok, .err 1], rx := [.ok (le4 2147483627)] }).oracle
      = { quiet with
          clock := at9_20 :: quiet.clock, tx := .ok :: .err 1 :: quiet.tx, rx := .ok (le4 2147483627) :: quiet.rx }
    ∧ Ready (session none quiet) ∧ Triggered cfg wordP
    ∧ (session none
        { quiet with clock := [at9_20], tx := [.ok, .ok, .ok], rx := [.ok [wordP.1, wordP.2], .ok [0, 0, 0]] }).oracle
      = { quiet with
          clock := at9_20 :: quiet.clock, tx := .ok :: .ok :: ((ReadFailure.short [0, 0, 0]).tx ++ quiet.tx),
          rx := .ok [wordP.1, wordP.2] :: ((ReadFailure.short [0, 0, 0]).rx ++ quiet.rx) }
    ∧ ¬ InInt32 (2147483628 + cfg.calOffset)
    ∧ (session none
        { quiet with clock := [at9_20], tx := [.ok, .ok, .ok], rx := [.ok [wordP.1, wordP.2], .ok (le4 2147483628)] }).oracle
      = { quiet with
          clock := at9_20 :: quiet.clock, tx := .ok :: .ok :: .ok :: quiet.tx,
          rx := .ok [wordP.1, wordP.2] :: .ok (le4 2147483628) :: quiet.rx }
    ∧ (session none
        { quiet with
          clock := [at9_20], tx := [.ok, .ok, .ok, .err 1],
          rx := [.ok [wordP.1, wordP.2], .ok (le4 2147483627)] }).oracle
      = { quiet with
          clock := at9_20 :: quiet.clock, tx := .ok :: .ok :: .ok :: .err 1 :: quiet.tx,
          rx := .ok [wordP.1, wordP.2] :: .ok (le4 2147483627) :: quiet.rx } :=
  ⟨test_time_9_20, by decide, by decide, rfl, rfl, rfl, by decide, rfl, ⟨rfl, rfl⟩, test_triggered, rfl, by decide, rfl,
    rfl⟩

/-- The second clause at attempt 2 with a short read is V123. -/
theorem test_witness_GoHomeAttemptErrors :
    ∀ f ∈ [AttemptFailure.command 1, .readBack (.request 1), .readBack .noAnswer, .readBack (.short [0, 0, 0])],
      (Ready (session none { quiet with tx := f.tx, rx := f.rx })
        ∧ (session none { quiet with tx := f.tx, rx := f.rx }).cfg.goHomeMaxAttempts ≠ some 0
        ∧ (session none { quiet with tx := f.tx, rx := f.rx }).oracle
          = { quiet with tx := f.tx ++ quiet.tx, rx := f.rx ++ quiet.rx })
      ∧ ((homing 1 { quiet with tx := f.tx, rx := f.rx }).running = some (.homing .found false)
        ∧ (recovering 1 { quiet with tx := f.tx, rx := f.rx }).running = some (.homing .timedOut true)
        ∧ (homing 1 quiet).cfg.goHomeMaxAttempts ≠ some (homing 1 quiet).attempts)
      ∧ let s := timingOut { quiet with clock := [at9_20], tx := f.tx, rx := f.rx }
        s.running = some .probing ∧ s.trig = false ∧ 0 ≤ at9_20.value ∧ s.cfg.calTimeLimit < at9_20.value - s.t0.value
        ∧ s.cfg.autoRecover = true ∧ s.cfg.goHomeMaxAttempts ≠ some 0
        ∧ s.oracle = { quiet with clock := at9_20 :: quiet.clock, tx := f.tx ++ quiet.tx, rx := f.rx ++ quiet.rx } := by
  intro f _
  simp only [quiet, List.append_nil]
  exact ⟨⟨⟨rfl, rfl⟩, test_cap_0, rfl⟩, ⟨rfl, rfl, test_cap_1⟩, rfl, rfl, test_time_9_20, test_past_9_20, rfl, test_cap_0, rfl⟩

theorem test_witness_ConnectConstructs :
    (session none quiet).busy = false ∧ addressArg (some (127 : Addr)) = some 127 ∧ addressArg none = none
    ∧ ((-1 : Int) < 0 ∨ 127 < (-1 : Int)) ∧ ((128 : Int) < 0 ∨ 127 < (128 : Int))
    ∧ (session none { quiet with opening := [true] }).oracle = { quiet with opening := true :: quiet.opening }
    ∧ (session none { quiet with opening := [false] }).oracle = { quiet with opening := false :: quiet.opening } :=
  ⟨rfl, rfl, rfl, by decide, by decide, rfl, rfl⟩

/-- The invariants hold, and a step is taken, while `calibrate` probes. -/
theorem test_witness_invariants :
    ControlInv (probing false quiet) ∧ FramingInv (probing false quiet) ∧ WireInv (probing false quiet)
    ∧ ∃ t, step (probing false quiet) = .next t :=
  ⟨⟨rfl, rfl, rfl⟩, ⟨everyTx_nil, fun q hq => absurd hq (by simp [probing, session, State.constructed])⟩, rfl, _, rfl⟩

/-- The accesses hold of an empty history at the state above and of a history with a request and its read, and fail of a
read with no request. -/
theorem test_witness_AccessInv :
    AccessInv (probing false quiet)
    ∧ AccessInv { probing false quiet with hist := [.tx (positionRequest none) .ok, .rx 4 (.ok [0, 0, 0, 0])] }
    ∧ ¬ AccessInv { probing false quiet with hist := [.rx 4 .err] } := by
  refine ⟨accesses_nil _, accesses_read (.inl rfl) _, fun h => ?_⟩
  obtain ⟨e, h | h⟩ := h.reads [] 4 .err [] rfl <;> simp at h

/-- The home is changed by `update_home`, by Found and by a construction. -/
theorem test_witness_OnlyUpdateHomeAndFoundWriteHome :
    (∃ t, step (asked (.call (.updateHome 23)) quiet) = .next t ∧ t.homeOffset ≠ 50)
    ∧ (∃ t, step (probing true { quiet with clock := [.exact 1], tx := [.ok, .ok], rx := [zero] }) = .next t ∧ t.homeOffset ≠ 50)
    ∧ ∃ t, step (asked (.call (.connect none { cfg with homeInit := 7 })) { quiet with opening := [true] }) = .next t
        ∧ t.homeOffset ≠ 50 := by
  refine ⟨?_, ?_, ?_⟩
  · exact (of_passes (p := fun t => decide (t.homeOffset ≠ 50)) (by decide +kernel)).imp fun t h => ⟨h.1, of_decide_eq_true h.2⟩
  · exact (of_passes (p := fun t => decide (t.homeOffset ≠ 50)) (by decide +kernel)).imp fun t h => ⟨h.1, of_decide_eq_true h.2⟩
  · exact (of_passes (p := fun t => decide (t.homeOffset ≠ 50)) (by decide +kernel)).imp fun t h => ⟨h.1, of_decide_eq_true h.2⟩

theorem test_witness_SessionIsImmutable :
    (∃ t, step (asked .teardown quiet) = .next t ∧ ¬ (t.hist = [] ∧ t.result = some (.ok .session)))
    ∧ ∃ t, step (asked (.call .energize) { quiet with tx := [.ok] }) = .next t
        ∧ ¬ (t.hist = [] ∧ t.result = some (.ok .session)) := by
  constructor
  · exact ⟨_, rfl, by simp [teardown, asked, session, State.constructed]⟩
  · exact (of_passes (p := fun t => decide (¬ (t.hist = [] ∧ t.result = some (.ok .session)))) (by decide +kernel)).imp
      fun t h => ⟨h.1, of_decide_eq_true h.2⟩

end Sys2Proof.Tests
end

section
/-! What a step does in each situation, as an equation: an operation in progress comes before the host's requests, and
a request is served by `serve`. -/

namespace Sys2Proof.Machine

variable {s : State} {r : Running} {q : Request} {later : List Request} {bs : List Byte} {d : Decoded} {why : FrameStop}

theorem step_of_running (hr : s.running = some r) : step s = .next (resume r s) := by
  simp only [step, stepOnce, hr]

theorem step_of_idle (hr : s.running = none) (hq : s.requests = []) : step s = .next s := by
  simp only [step, stepOnce, hr, hq]

theorem step_of_request (hr : s.running = none) (hq : s.requests = q :: later) : step s = serve q later s := by
  simp only [step, stepOnce, hr, hq]

theorem serve_frames_of_error (hd : decode bs = .error why) :
    serve (.frames bs) later s = .fault (.badFrame why) := by
  simp only [serve, hd]

theorem serve_frames_of_foreign (hd : decode bs = .ok d) (ha : d.address ≠ s.address) :
    serve (.frames bs) later s = .refused .foreignFraming := by
  simp only [serve, hd, if_neg ha]

end Sys2Proof.Machine

namespace Sys2Proof.Proofs

open Sys2Proof.Machine

/-- Settles O11: one equation of `step` for each situation. An invocation, a teardown and `jog` are served by an arm of
`serve` without a condition; the two clauses about frames follow the outcome of `decode`. -/
theorem stepServesTheHost : Obligations.StepServesTheHost := by
  intro s later
  refine ⟨step_of_idle, ?call, ?teardown, ?jog, ?badFrame, ?foreign, fun _ hr => step_of_running hr⟩
  case call => exact fun _ hr hq => step_of_request hr hq
  case teardown => exact fun hr hq => step_of_request hr hq
  case jog => exact fun _ hr hq => step_of_request hr hq
  case badFrame => exact fun _ _ hr hq hd => (step_of_request hr hq).trans (serve_frames_of_error hd)
  case foreign => exact fun _ _ hr hq hd ha => (step_of_request hr hq).trans (serve_frames_of_foreign hd ha)

end Sys2Proof.Proofs
end

section
/-! What a step makes of the session: it keeps the session with its history and wire grown, or tears it down, or puts a
fresh one in its place. From this, which fields a step may change, and the agreement of the wire with the history. -/

namespace Sys2Proof.Machine

variable {P : List Byte → Prop} {s t u : State} {i : Instr}

theorem Kept.hist_isPrefix (h : Kept P s t) : s.hist <+: t.hist :=
  let ⟨es, _, he, _⟩ := h.grows
  ⟨es, he.symm⟩

theorem Kept.wire_isPrefix (h : Kept P s t) : s.wire <+: t.wire :=
  let ⟨_, w, _, hw, _⟩ := h.grows
  ⟨w, hw.symm⟩

/-- What grows by fitting events and bytes goes on fitting (R27). -/
theorem Kept.wireInv (h : Kept P s t) (hs : WireInv s) : WireInv t := by
  obtain ⟨es, w, he, hw, hm, -⟩ := h.grows
  unfold WireInv
  rw [he, hw]
  exact mayBeOnWire_append hs hm

/-- A construction that fails keeps the session that was there (log entry 12). -/
theorem exec_connect_kept {a : Option Int} {c : Config} (h : exec (.connect a c) s = .next t) :
    Kept P s t ∨ ∃ b v, t = freshSession b c v := by
  obtain ⟨-, ⟨b, o, rfl⟩ | ⟨e, o, rfl⟩⟩ := exec_connect h
  · exact .inr ⟨b, _, rfl⟩
  · exact .inl ⟨rfl, rfl, rfl, rfl, [], [], by simp, by simp, rfl, everyTx_nil⟩

theorem exec_kept_or_fresh (hP : Admits P s.address) (h : exec i s = .next t) :
    Kept P s t ∨ ∃ b c v, t = freshSession b c v := by
  by_cases hc : ∃ a c, i = .connect a c
  · obtain ⟨a, c, rfl⟩ := hc
    exact (exec_connect_kept h).imp_right fun ⟨b, v, ht⟩ => ⟨b, c, v, ht⟩
  · exact .inl (exec_kept hP (fun a c e => hc ⟨a, c, e⟩) h)

/-- A step keeps the session, the host's requests apart; or serves a teardown; or constructs a session. -/
theorem step_kept (hP : Admits P s.address) (h : step s = .next t) :
    (∃ q, Kept P { s with requests := q } t)
    ∨ (∃ later, s.requests = .teardown :: later ∧ t = teardown { s with requests := later })
    ∨ ∃ b c v, t = freshSession b c v := by
  rcases step_cases h with ⟨r, hr, rfl⟩ | ⟨-, -, rfl⟩ | ⟨i, q, later, -, he, -⟩ | ⟨later, -, hq, rfl⟩
  · exact .inl ⟨s.requests, resume_kept hP hr⟩
  · exact .inl ⟨t.requests, (IoOnly.refl t).kept⟩
  · exact (exec_kept_or_fresh (s := { s with requests := q }) hP he).imp (fun hk => ⟨q, hk⟩) .inr
  · exact .inr (.inl ⟨later, hq, rfl⟩)

end Sys2Proof.Machine

namespace Sys2Proof.Proofs

open Sys2Proof.Machine

/-- Settles O46: what a step adds to the history fits what it adds to the wire, and a construction empties both. -/
theorem stepKeepsWireInv : Obligations.StepKeepsWireInv := by
  intro s t hs h
  rcases step_kept (admits_true s.address) h with ⟨q, hk⟩ | ⟨later, -, rfl⟩ | ⟨b, c, v, rfl⟩
  · exact hk.wireInv hs
  · exact hs
  · exact (rfl : MayBeOnWire [] [])

/-- Settles O49: a step that constructs no session keeps it, but for the flag a teardown clears. -/
theorem sessionIsImmutable : Obligations.SessionIsImmutable := by
  intro s t h hfresh
  rcases step_kept (admits_true s.address) h with ⟨q, hk⟩ | ⟨later, hq, rfl⟩ | ⟨b, c, v, rfl⟩
  · exact ⟨hk.address, hk.cfg, hk.hist_isPrefix, hk.wire_isPrefix, .inl hk.isOpen⟩
  · exact ⟨rfl, rfl, ⟨[], List.append_nil _⟩, ⟨[], List.append_nil _⟩, .inr ⟨by rw [hq]; rfl, rfl⟩⟩
  · exact absurd ⟨rfl, rfl⟩ hfresh

end Sys2Proof.Proofs
end

section
/-! The controller's bookkeeping: what `ControlInv` says in each situation, and that each way a turn can end keeps it. -/

namespace Sys2Proof.Machine

variable {P : List Byte → Prop} {s t u : State} {prev : Phase} {recovering : Bool} {i : Instr}

theorem controlInv_of_idle (hr : s.running = none) :
    ControlInv s ↔ s.busy = false ∧ s.phase.atRest = true := by
  simp only [ControlInv, hr]

theorem controlInv_of_probing (hr : s.running = some .probing) :
    ControlInv s ↔ s.busy = true ∧ s.phase = .probing ∧ s.isOpen = true := by
  simp only [ControlInv, hr]

theorem controlInv_of_homing (hr : s.running = some (.homing prev recovering)) :
    ControlInv s ↔ s.busy = true ∧ s.phase = .homing ∧ s.isOpen = true ∧ prev.atRest = true
      ∧ (recovering = true → prev = .timedOut) := by
  simp only [ControlInv, hr]

/-- A session that is not busy has no operation in progress. -/
theorem ControlInv.running_of_not_busy (hs : ControlInv s) (hb : s.busy = false) : s.running = none := by
  cases hr : s.running with
  | none => rfl
  | some r =>
    cases r with
    | probing => simp [((controlInv_of_probing hr).1 hs).1] at hb
    | homing prev recovering => simp [((controlInv_of_homing hr).1 hs).1] at hb

theorem leave_controlInv {op : Instr} {r : Result} (h : s.phase.atRest = true) : ControlInv (leave op r s) :=
  (controlInv_of_idle rfl).2 ⟨rfl, h⟩

/-- An error of a controller operation leaves the phase Idle (R247). -/
theorem abort_controlInv {op : Instr} {e : Error} (hop : op.isController = true) : ControlInv (abort op e s) :=
  (controlInv_of_idle (abort_running ..)).2 ⟨abort_busy .., by rw [abort_phase, if_pos hop]; rfl⟩

/-- A teardown between operations: `ControlInv` asks for an open session only while one is in progress. -/
theorem teardown_controlInv (hr : s.running = none) (hs : ControlInv s) : ControlInv (teardown s) :=
  (controlInv_of_idle (s := teardown s) hr).2 ((controlInv_of_idle hr).1 hs)

/-- However a turn of `calibrate` ends, the bookkeeping holds after it. -/
theorem CalibrateTurnEnd.controlInv {r : Res Progress} (h : CalibrateTurnEnd P .probing s r) (hb : s.busy = true)
    (ho : s.isOpen = true) : ControlInv (settle .calibrate r) := by
  match r, h with
  | .ok .going t, h =>
    obtain ⟨hf, -, ⟨hp, hr⟩ | ⟨hp, hr⟩⟩ := h
    · exact (controlInv_of_probing hr).2 ⟨hf.busy.trans hb, hp, hf.isOpen.trans ho⟩
    · exact (controlInv_of_homing hr).2 ⟨hf.busy.trans hb, hp, hf.isOpen.trans ho, rfl, fun _ => rfl⟩
  | .ok (.done v) t, h =>
    obtain ⟨-, ⟨-, hp⟩ | ⟨-, hp, -⟩⟩ := h <;> exact leave_controlInv (by rw [hp]; rfl)
  | .raise e t, _ => exact abort_controlInv rfl

/-- However a turn of `go_home`'s loop ends, the bookkeeping holds after it. -/
theorem HomeTurnEnd.controlInv {op : Instr} {r : Res Progress} (h : HomeTurnEnd P prev recovering s r)
    (hop : op.isController = true) (hr : s.running = some (.homing prev recovering)) (hs : ControlInv s) :
    ControlInv (settle op r) := by
  obtain ⟨hb, hp, ho, hprev, hrec⟩ := (controlInv_of_homing hr).1 hs
  match r, h with
  | .ok .going t, h =>
    obtain ⟨hf, tp, tr, -⟩ := h
    exact (controlInv_of_homing (tr.trans hr)).2 ⟨hf.busy.trans hb, tp.trans hp, hf.isOpen.trans ho, hprev, hrec⟩
  | .ok (.done v) t, h =>
    obtain ⟨-, tp, -⟩ := h
    exact leave_controlInv (by rw [tp]; exact hprev)
  | .raise e t, _ => exact abort_controlInv hop

/-- A further turn of the operation in progress. -/
theorem resume_controlInv {r : Running} (hr : s.running = some r) (hs : ControlInv s) : ControlInv (resume r s) := by
  have hP := admits_true s.address
  cases r with
  | probing =>
    obtain ⟨hb, hp, ho⟩ := (controlInv_of_probing hr).1 hs
    exact (hp ▸ probeTurn_ends hP hr : CalibrateTurnEnd _ .probing s _).controlInv hb ho
  | homing prev recovering =>
    exact (homeTurn_ends prev recovering hP).controlInv (by cases recovering <;> rfl) hr hs

/-- The meaning of every instruction keeps the bookkeeping. -/
theorem exec_controlInv (hs : ControlInv s) (h : exec i s = .next t) : ControlInv t := by
  have hP := admits_true s.address
  have rest : s.busy = false → s.phase.atRest = true := fun hb =>
    ((controlInv_of_idle (hs.running_of_not_busy hb)).1 hs).2
  rcases instr_kinds i with hi | hi | ⟨v, rfl⟩ | rfl | rfl | ⟨a, c, rfl⟩
  · obtain ⟨-, hb, u, r, hio, rfl⟩ := exec_wire hi hP h
    exact (controlInv_of_idle (hio.running.trans (hs.running_of_not_busy hb))).2
      ⟨hio.busy.trans hb, by rw [hio.phase]; exact rest hb⟩
  · obtain ⟨-, hb, u, r, hio, rfl⟩ := exec_ioVerb hi hP h
    exact leave_controlInv (by rw [hio.phase]; exact rest hb)
  · obtain ⟨-, hb, -, rfl⟩ := exec_updateHome h
    exact leave_controlInv (rest hb)
  · obtain ⟨ho, -, r, hr, rfl⟩ := exec_calibrate hP h
    exact hr.controlInv rfl ho
  · obtain ⟨ho, hb, r, hr, rfl⟩ := exec_goHome hP h
    exact hr.controlInv rfl rfl ((controlInv_of_homing rfl).2 ⟨rfl, rfl, ho, rest hb, nofun⟩)
  · obtain ⟨-, ⟨b, o, rfl⟩ | ⟨e, o, rfl⟩⟩ := exec_connect h
    · exact (controlInv_of_idle rfl).2 ⟨rfl, rfl⟩
    · exact hs

end Sys2Proof.Machine

namespace Sys2Proof.Proofs

open Sys2Proof.Machine

/-- Settles O44: each kind of step keeps the bookkeeping, a teardown because it is served only between operations. -/
theorem stepKeepsControlInv : Obligations.StepKeepsControlInv := by
  intro s t hs h
  rcases step_cases h with ⟨r, hr, rfl⟩ | ⟨-, -, rfl⟩ | ⟨i, q, later, -, he, -⟩ | ⟨later, hr, -, rfl⟩
  · exact resume_controlInv hr hs
  · exact hs
  · exact exec_controlInv (s := { s with requests := q }) hs he
  · exact teardown_controlInv (s := { s with requests := later }) hr hs

end Sys2Proof.Proofs
end

section
/-! Which registers a session verb and a controller operation leave alone, and who writes the home. -/

namespace Sys2Proof.Machine

variable {P : List Byte → Prop} {s t u : State} {prev : Phase} {recovering : Bool} {i op : Instr}

/-- The next state of an operation whose body does input and output alone, as one record. -/
theorem IoOnly.leave_enter_eq_returned {r : Result} (h : IoOnly P (enter op s) u) :
    ∃ evs bytes o, leave op r u = returned op evs bytes r o s ∧ MayBeOnWire evs bytes ∧ IoEvents P evs := by
  obtain ⟨evs, bytes, hh, hw, hm, hio⟩ := h.grows
  refine ⟨evs, bytes, u.oracle, ?_, hm, hio⟩
  rw [h.rest, hh, hw]
  simp [leave, returned, enter, State.log]

/-- The registers that `go_home` does not write are the same in both states. -/
structure SameHomeAndProbe (s t : State) : Prop where
  homeOffset : t.homeOffset = s.homeOffset
  t0 : t.t0 = s.t0
  trig : t.trig = s.trig
  pos : t.pos = s.pos

theorem HomeTurnEnd.sameHomeAndProbe {r : Res Progress} (h : HomeTurnEnd P prev recovering s r) :
    SameHomeAndProbe s (settle op r) := by
  match r, h with
  | .ok .going t, h =>
    obtain ⟨-, -, -, hh, -, ht0, htrig, hpos⟩ := h
    exact ⟨hh, ht0, htrig, hpos⟩
  | .ok (.done v) t, h =>
    obtain ⟨-, -, hh, ht0, htrig, hpos, -⟩ := h
    exact ⟨hh, ht0, htrig, hpos⟩
  | .raise e t, h =>
    obtain ⟨-, hh, ht0, htrig, hpos⟩ := h
    exact ⟨(abort_homeOffset ..).trans hh, (abort_t0 ..).trans ht0, (abort_trig ..).trans htrig,
      (abort_pos ..).trans hpos⟩

theorem resume_homing_sameHomeAndProbe : SameHomeAndProbe s (resume (.homing prev recovering) s) :=
  (homeTurn_ends prev recovering (admits_true s.address)).sameHomeAndProbe

theorem exec_goHome_sameHomeAndProbe (h : exec .goHome s = .next t) : SameHomeAndProbe s t := by
  obtain ⟨-, -, r, hr, rfl⟩ := exec_goHome (admits_true s.address) h
  obtain ⟨hh, ht0, htrig, hpos⟩ := hr.sameHomeAndProbe (op := .goHome)
  exact ⟨hh, ht0, htrig, hpos⟩

/-- The last thing done was one of the three that give HomeOffset a value (R22): the return of `update_home` with the
value given, the return of `calibrate` with Found, or a construction. -/
def WroteHome (t : State) : Prop :=
  (∃ h, t.hist.getLast? = some (.ret (.updateHome h) (.ok .unit)) ∧ toS32 t.homeOffset = h)
  ∨ t.hist.getLast? = some (.ret .calibrate (.ok .found))
  ∨ (t.hist = [] ∧ t.result = some (.ok .session) ∧ t.homeOffset = t.cfg.homeInit)

theorem CalibrateTurnEnd.home {ph : Phase} {r : Res Progress} (h : CalibrateTurnEnd P ph s r) :
    (settle .calibrate r).homeOffset = s.homeOffset ∨ WroteHome (settle .calibrate r) := by
  match r, h with
  | .ok .going t, h => exact .inl h.2.1
  | .ok (.done v) t, h =>
    obtain ⟨-, ⟨rfl, -⟩ | ⟨-, -, hh⟩⟩ := h
    · exact .inr (.inr (.inl List.getLast?_concat))
    · exact .inl hh
  | .raise e t, h => exact .inl ((abort_homeOffset ..).trans h.2)

theorem resume_home {r : Running} (hr : s.running = some r) :
    (resume r s).homeOffset = s.homeOffset ∨ WroteHome (resume r s) := by
  cases r with
  | probing => exact (probeTurn_ends (admits_true s.address) hr).home
  | homing prev recovering => exact .inl resume_homing_sameHomeAndProbe.homeOffset

theorem exec_home (h : exec i s = .next t) : t.homeOffset = s.homeOffset ∨ WroteHome t := by
  have hP := admits_true s.address
  rcases instr_kinds i with hi | hi | ⟨v, rfl⟩ | rfl | rfl | ⟨a, c, rfl⟩
  · obtain ⟨-, -, u, r, hio, rfl⟩ := exec_wire hi hP h
    exact .inl hio.homeOffset
  · obtain ⟨-, -, u, r, hio, rfl⟩ := exec_ioVerb hi hP h
    exact .inl hio.homeOffset
  · obtain ⟨-, -, hv, rfl⟩ := exec_updateHome h
    exact .inr (.inl ⟨v, List.getLast?_concat, toS32_toU32 hv⟩)
  · obtain ⟨-, -, r, hr, rfl⟩ := exec_calibrate hP h
    exact hr.home
  · exact .inl (exec_goHome_sameHomeAndProbe h).homeOffset
  · obtain ⟨-, ⟨b, o, rfl⟩ | ⟨e, o, rfl⟩⟩ := exec_connect h
    · exact .inr (.inr (.inr ⟨rfl, rfl, rfl⟩))
    · exact .inl rfl

end Sys2Proof.Machine

namespace Sys2Proof.Proofs

open Sys2Proof.Machine

/-- Settles O25: the body of such a verb does input and output alone, between the call and the return. -/
theorem sessionVerbFrame : Obligations.SessionVerbFrame := by
  intro i s t hi h
  obtain ⟨-, -, u, r, hio, rfl⟩ := exec_ioVerb hi (admits_disciplined s.address) h
  obtain ⟨evs, bytes, o, he, hm, hev⟩ := hio.leave_enter_eq_returned (r := r)
  exact ⟨evs, bytes, r, o, he, hm, hev⟩

/-- Settles O39: an invocation and a turn keep the session, and `go_home` writes none of the four registers. -/
theorem controllerFrame : Obligations.ControllerFrame := by
  intro s t
  have hP := admits_true s.address
  constructor
  · intro h
    have hk : Kept (fun _ => True) s t := by
      rcases h with h | h | ⟨hr, h⟩
      · exact exec_kept hP (by simp) h
      · exact exec_kept hP (by simp) h
      · obtain ⟨r, hr⟩ := Option.ne_none_iff_exists'.1 hr
        obtain rfl := Host.Outcome.next.inj ((step_of_running hr).symm.trans h)
        exact resume_kept hP hr
    exact ⟨hk.address, hk.isOpen, hk.cfg, hk.requests, hk.hist_isPrefix, hk.wire_isPrefix⟩
  · intro h
    have hsame : SameHomeAndProbe s t := by
      rcases h with h | ⟨prev, hr, h⟩
      · exact exec_goHome_sameHomeAndProbe h
      · obtain rfl := Host.Outcome.next.inj ((step_of_running hr).symm.trans h)
        exact resume_homing_sameHomeAndProbe
    exact ⟨hsame.homeOffset, hsame.t0, hsame.trig, hsame.pos⟩

/-- Settles O48: every kind of step keeps HomeOffset or is one of the three writers. -/
theorem onlyUpdateHomeAndFoundWriteHome : Obligations.OnlyUpdateHomeAndFoundWriteHome := by
  intro s t h hne
  have home : t.homeOffset = s.homeOffset ∨ WroteHome t := by
    rcases step_cases h with ⟨r, hr, rfl⟩ | ⟨-, -, rfl⟩ | ⟨i, q, later, -, he, -⟩ | ⟨later, -, -, rfl⟩
    · exact resume_home hr
    · exact .inl rfl
    · exact exec_home (s := { s with requests := q }) he
    · exact .inl rfl
  exact home.resolve_left hne

end Sys2Proof.Proofs
end

section
/-! The state right after reset (R34): its parameters are legal, and the invariants of a run hold of it. -/

namespace Sys2Proof

theorem Config.asDuration_nonneg (q : Seconds) : 0 ≤ Config.asDuration q := by
  unfold Config.asDuration
  split
  · assumption
  · exact le_rfl

theorem Config.asTimeout_pos (q : Seconds) : 0 < Config.asTimeout q := by
  unfold Config.asTimeout
  split
  · assumption
  · exact one_pos

/-- A byte differs from itself with bit 0 flipped. -/
theorem ne_xor_one : ∀ b : Byte, b ≠ b ^^^ 1 := by decide

theorem Config.ne_otherPattern (p q : Byte × Byte) : p ≠ Config.otherPattern p q := by
  unfold Config.otherPattern
  split
  · exact fun h => ne_xor_one p.1 (congrArg Prod.fst h)
  · next h => exact Ne.symm h

theorem Config.session_goHomeMaxAttempts_ne_zero : Config.session.goHomeMaxAttempts ≠ some 0 := by
  show Config.openCapPred.map (· + 1) ≠ some 0
  cases Config.openCapPred <;> simp

/-- The free parameters of reset are in the ranges of R7, whatever they are. -/
theorem Config.session_legal : Config.session.legal = true := by
  simp only [Config.legal, Bool.and_eq_true, decide_eq_true_eq]
  refine ⟨⟨⟨⟨⟨⟨?_, ?_⟩, asDuration_nonneg _⟩, ne_otherPattern _ _⟩, session_goHomeMaxAttempts_ne_zero⟩,
    asTimeout_pos _⟩, asTimeout_pos _⟩
  · show (0 : Seconds) ≤ 3 / 20
    norm_num
  · exact zero_le_one (α := Seconds)

end Sys2Proof

namespace Sys2Proof.Proofs

open Sys2Proof.Machine

/-- Settles O43: each field is what R34 gives it, and the parameters are legal by `Config.session_legal`. -/
theorem resetState : Obligations.ResetState :=
  ⟨rfl, rfl, rfl, rfl, rfl, Config.session_legal, rfl, rfl, rfl, rfl, rfl, rfl⟩

/-- Settles O47: at reset no operation is in progress, the history and the wire are empty, and nothing is pending. -/
theorem resetMeetsTheInvariants : Obligations.ResetMeetsTheInvariants :=
  ⟨(controlInv_of_idle rfl).2 ⟨rfl, rfl⟩, ⟨everyTx_nil, fun _ hq => absurd hq List.not_mem_nil⟩, rfl,
    accesses_nil _⟩

end Sys2Proof.Proofs
end

section
/-! Which device accesses an instruction adds to the history: a construction apart, only those of R51, R53 and R55. -/

namespace Sys2Proof.Machine

variable {s t : State} {i op : Instr} {α β : Type}

/-- Handing back a value after a body adds nothing to what the body added. -/
theorem andThen_ok_adds {r : Res α} (f : α → State → β) (h : Adds s r.state) :
    Adds s (r.andThen fun v u => .ok (f v u) u).state :=
  andThen_adds h fun _ u => Adds.refl u

theorem invoke_adds {body : State → Res Progress} (h : invoke op body s = .next t)
    (hb : ∀ u, Adds u (body u).state) : Adds s t := by
  obtain ⟨-, -, rfl⟩ := invoke_next h
  exact (enter_adds op s).trans (settle_adds op (hb _))

theorem runCommand_adds {body : State → Res Value} (h : runCommand body s = .next t)
    (hb : ∀ u, Adds u (body u).state) : Adds s t := by
  obtain ⟨-, -, rfl⟩ := runCommand_next h
  obtain ⟨q, hq⟩ := report_eq (body s)
  rw [hq]
  exact (hb s).trans (Adds.of_eq rfl rfl)

/-- A wire command run by itself writes one frame; GET_VARIABLES runs for the two variables alone. -/
theorem exec_wire_adds (hi : i.isWire = true) (h : exec i s = .next t) : Adds s t := by
  unfold exec at h
  cases i with
  | cmdExitSafeStart | cmdEnergize | cmdDeenergize | cmdStopMotor =>
    exact runCommand_adds h fun u => andThen_ok_adds _ (send_adds (by decide) (.inl rfl) u)
  | cmdSetTargetPosition v | cmdSetMaxSpeed v =>
    exact runCommand_adds h fun u => andThen_ok_adds _ (sendInt32_adds (by decide) v u)
  | cmdGetVariables offset length =>
    simp only [execCmdGetVariables] at h
    split at h
    · exact runCommand_adds h fun u => andThen_ok_adds _ (readPosition_adds u)
    · split at h
      · exact runCommand_adds h fun u => andThen_ok_adds _ (readSwitch_adds u)
      · simp at h
  | _ => simp [Instr.isWire] at hi

/-- A session verb writes command frames, or reads one of the two variables. -/
theorem exec_ioVerb_adds (hi : i.isIoVerb = true) (h : exec i s = .next t) : Adds s t := by
  unfold exec at h
  cases i with
  | exitSafeStart | energize =>
    exact invoke_adds h fun u => andThen_ok_adds _ (send_adds (by decide) (.inl rfl) u)
  | stopAndDeenergize =>
    exact invoke_adds h fun u => andThen_adds (send_adds (by decide) (.inl rfl) u) fun _ v =>
      andThen_ok_adds _ ((sleep_adds v.cfg.stopSettle v).trans (send_adds (by decide) (.inl rfl) _))
  | setTargetPosition v =>
    exact invoke_adds h fun u => andThen_ok_adds _ (setTargetBody_adds v u)
  | setMaxSpeed v =>
    exact invoke_adds h fun u => andThen_ok_adds _ (sendInt32_adds (by decide) (clampSpeed u.cfg v) u)
  | getCurrentPosition | displayedPosition =>
    exact invoke_adds h fun u => andThen_ok_adds _ (readPosition_adds u)
  | getLimitSwitchState =>
    exact invoke_adds h fun u => andThen_ok_adds _ (readSwitch_adds u)
  | energizeSequence =>
    exact invoke_adds h fun u => andThen_adds (send_adds (by decide) (.inl rfl) u) fun _ v =>
      andThen_ok_adds _ (send_adds (by decide) (.inl rfl) v)
  | _ => simp [Instr.isIoVerb] at hi

/-- A construction that succeeds starts with an empty history; every other instruction adds accesses to the one there. -/
theorem exec_accessInv (hs : AccessInv s) (h : exec i s = .next t) : AccessInv t := by
  rcases instr_kinds i with hi | hi | ⟨v, rfl⟩ | rfl | rfl | ⟨a, c, rfl⟩
  · exact (exec_wire_adds hi h).accessInv hs
  · exact (exec_ioVerb_adds hi h).accessInv hs
  · obtain ⟨-, -, -, rfl⟩ := exec_updateHome h
    exact ((enter_adds _ s).trans (settle_adds (r := .ok (.done .unit) _) _ (Adds.of_eq rfl rfl))).accessInv hs
  · exact (invoke_adds h calibrateStart_adds).accessInv hs
  · exact (invoke_adds h (homeStart_adds false)).accessInv hs
  · obtain ⟨-, ⟨b, o, rfl⟩ | ⟨e, o, rfl⟩⟩ := exec_connect h
    · exact accesses_nil b
    · exact hs

end Sys2Proof.Machine

namespace Sys2Proof.Proofs

open Sys2Proof.Machine

/-- Settles O56: a turn and an instruction add to the history only accesses of R51, R53 and R55, and a construction
empties it; a wait and a teardown leave it alone. -/
theorem stepKeepsAccessInv : Obligations.StepKeepsAccessInv := by
  intro s t hs h
  rcases step_cases h with ⟨r, -, rfl⟩ | ⟨-, -, rfl⟩ | ⟨i, q, later, -, he, -⟩ | ⟨later, -, -, rfl⟩
  · exact (resume_adds r s).accessInv hs
  · exact hs
  · exact exec_accessInv (s := { s with requests := q }) hs he
  · exact hs

end Sys2Proof.Proofs
end

section
/-! The frame of an opcode and its data parses back (R110), and every well-formed wire command has such a frame. -/

namespace Sys2Proof

open Sys2Proof.Machine (frameOf)

variable {a : Option Addr} {op : Byte} {data rest : List Byte} {i : Instr}

/-- An opcode of the table is not the marker and has bit 7 set, which an addressed frame drops and R110 puts back. -/
theorem opcode_of_arity :
    ∀ op : Byte, (arity op).isSome = true → op ≠ 0xAA ∧ highBit op = true ∧ (op &&& 0x7F) ||| 0x80 = op := by
  decide

theorem highBit_and_0x7F : ∀ b : Byte, highBit (b &&& 0x7F) = false := by decide

theorem highBit_setWidth_addr : ∀ x : Addr, highBit (x.setWidth 8) = false := by decide

theorem parseBody_append (hk : arity op = some data.length) (hd : ∀ b ∈ data, highBit b = false) :
    parseBody a op (data ++ rest) = .ok ⟨a, op, data, rest⟩ := by
  simp only [parseBody, hk, List.take_left, List.drop_left]
  rw [if_neg (by simp), if_neg (by simpa using hd)]

theorem parseFrame_compact (hne : op ≠ 0xAA) (hop : highBit op = true) :
    parseFrame (op :: rest) = parseBody none op rest := by
  simp only [parseFrame, if_neg hne, if_pos hop]

theorem parseFrame_addressed {b1 b2 : Byte} (h1 : highBit b1 = false) (h2 : highBit b2 = false) :
    parseFrame (0xAA :: b1 :: b2 :: rest) = parseBody (some (b1.setWidth 7)) (b2 ||| 0x80) rest := by
  simp only [parseFrame, if_true, h1, h2, Bool.false_eq_true, if_false]

/-- Whatever follows a frame is left over by its parsing. -/
theorem parseFrame_frameOf_append (hk : arity op = some data.length) (hd : ∀ b ∈ data, highBit b = false) :
    parseFrame (frameOf a op data ++ rest) = .ok ⟨a, op, data, rest⟩ := by
  obtain ⟨hne, hhigh, hop⟩ := opcode_of_arity op (by rw [hk]; rfl)
  cases a with
  | none => exact (parseFrame_compact hne hhigh).trans (parseBody_append hk hd)
  | some x =>
    have hx : (x.setWidth 8).setWidth 7 = x := BitVec.setWidth_setWidth_of_le x (by decide)
    have header := parseFrame_addressed (rest := data ++ rest) (highBit_setWidth_addr x) (highBit_and_0x7F op)
    rw [hx, hop, parseBody_append hk hd] at header
    exact header

/-- A command of the table decodes from its frame, in either framing. -/
theorem decode_frameOf_append (hk : arity op = some data.length) (hd : ∀ b ∈ data, highBit b = false)
    (hi : commandOf op data = some i) : decode (frameOf a op data ++ rest) = .ok ⟨a, i, rest⟩ := by
  simp only [decode, parseFrame_frameOf_append hk hd, hi]

theorem encode_of_wireForm (hw : wireForm i = some (op, data)) : encode a i = some (frameOf a op data) := by
  simp only [encode, hw, Option.bind_some, encodeCommand_session, Except.toOption]

theorem encodeInt32_of_inInt32 {v : Int} (hv : InInt32 v) : encodeInt32 v = .ok (pack7 (toU32 v)) := if_pos hv

/-- The opcode and data of a well-formed wire command are a row of the opcode map (R80) with seven-bit data, and they
stand for the command. -/
theorem exists_wireForm (hi : i.isWire = true) (hwf : WellFormed i = true) :
    ∃ op data, wireForm i = some (op, data) ∧ arity op = some data.length ∧ (∀ b ∈ data, highBit b = false)
      ∧ commandOf op data = some i := by
  cases i with
  | cmdExitSafeStart => exact ⟨0x83, [], rfl, rfl, by simp, rfl⟩
  | cmdEnergize => exact ⟨0x85, [], rfl, rfl, by simp, rfl⟩
  | cmdDeenergize => exact ⟨0x86, [], rfl, rfl, by simp, rfl⟩
  | cmdStopMotor => exact ⟨0x92, [], rfl, rfl, by simp, rfl⟩
  | cmdSetTargetPosition v =>
    have hv : InInt32 v := of_decide_eq_true hwf
    refine ⟨0xE0, pack7 (toU32 v), by rw [wireForm, encodeInt32_of_inInt32 hv]; rfl, rfl, highBit_pack7 _, ?_⟩
    exact congrArg (some <| Instr.cmdSetTargetPosition ·) (unpack7_pack7 hv)
  | cmdSetMaxSpeed v =>
    have hv : InInt32 v := of_decide_eq_true hwf
    refine ⟨0xE6, pack7 (toU32 v), by rw [wireForm, encodeInt32_of_inInt32 hv]; rfl, rfl, highBit_pack7 _, ?_⟩
    exact congrArg (some <| Instr.cmdSetMaxSpeed ·) (unpack7_pack7 hv)
  | cmdGetVariables offset length =>
    simp only [WellFormed, Bool.and_eq_true, decide_eq_true_eq] at hwf
    exact ⟨0xA1, [offset, length], rfl, rfl, by simpa [highBit] using hwf, rfl⟩
  | _ => simp [Instr.isWire] at hi

end Sys2Proof

namespace Sys2Proof.Proofs

/-- Settles O1: the frame of the command's opcode and data parses back to them, and they stand for the command. -/
theorem encodedCommandDecodesBack : Obligations.EncodedCommandDecodesBack := by
  intro a i rest hi hwf
  obtain ⟨op, data, hw, hk, hd, hc⟩ := exists_wireForm hi hwf
  exact ⟨_, encode_of_wireForm hw, decode_frameOf_append hk hd hc⟩

end Sys2Proof.Proofs
end

section
/-! Every way a step can go keeps the high-bit discipline of the history (R73, R82) and the requests well-formed. -/

namespace Sys2Proof.Machine

variable {s t : State} {i : Instr}

theorem Kept.framingInv (h : Kept (Disciplined s.address) s t) (hs : FramingInv s) : FramingInv t := by
  obtain ⟨htx, hreq⟩ := hs
  obtain ⟨es, -, he, -, -, hes⟩ := h.grows
  refine ⟨?_, by rwa [h.requests]⟩
  rw [h.address, he]
  exact everyTx_append htx hes

/-- A construction that succeeds starts an empty history at the new address, with the same requests pending. -/
theorem freshSession_framingInv {a : Option Addr} {c : Config} (hs : FramingInv s) : FramingInv (freshSession a c s) :=
  ⟨everyTx_nil, hs.2⟩

theorem exec_framingInv (hs : FramingInv s) (h : exec i s = .next t) : FramingInv t := by
  by_cases hc : ∃ a c, i = .connect a c
  · obtain ⟨a, c, rfl⟩ := hc
    obtain ⟨-, ⟨b, o, rfl⟩ | ⟨e, o, rfl⟩⟩ := exec_connect h
    · exact freshSession_framingInv (s := { s with oracle := o }) hs
    · exact hs
  · exact (exec_kept (admits_disciplined s.address) (fun a c e => hc ⟨a, c, e⟩) h).framingInv hs

/-- Serving a request leaves requests that were pending, and perhaps the rest of its frames. -/
theorem wellFormed_framesLeft {rest : List Byte} {later : List Request} (h : ∀ q ∈ later, q.WellFormed) :
    ∀ q ∈ framesLeft rest later, q.WellFormed := by
  unfold framesLeft
  split
  · exact h
  · exact List.forall_mem_cons.2 ⟨trivial, h⟩

end Sys2Proof.Machine

namespace Sys2Proof.Proofs

open Sys2Proof.Machine

/-- Settles O45: what a turn or an instruction adds to the history is disciplined, and a construction empties it; no
step adds to the host's requests anything but the rest of a request's frames. -/
theorem stepKeepsFramingInv : Obligations.StepKeepsFramingInv := by
  intro s t hs h
  have tail : ∀ {q later}, s.requests = q :: later → ∀ p ∈ later, p.WellFormed := fun hq =>
    (List.forall_mem_cons.1 (hq ▸ hs.2)).2
  rcases step_cases h with ⟨r, hr, rfl⟩ | ⟨-, -, rfl⟩ | ⟨i, q, later, -, he, hq⟩ | ⟨later, -, hq, rfl⟩
  · exact (resume_kept (admits_disciplined s.address) hr).framingInv hs
  · exact hs
  · have left : ∀ p ∈ q, p.WellFormed := by
      rcases hq with ⟨hq, rfl⟩ | ⟨bs, d, hq, -, -, rfl⟩
      · exact tail hq
      · exact wellFormed_framesLeft (tail hq)
    exact exec_framingInv (s := { s with requests := q }) ⟨hs.1, left⟩ he
  · exact ⟨hs.1, tail hq⟩

end Sys2Proof.Proofs
end

section
/-! The layout of a packed int32 (R76, R77): the ranges of its bytes, from the bits that are clear. -/

namespace Sys2Proof

theorem toNat_lt_two_pow_of_getLsbD {b : Byte} {n : Nat} (h : ∀ j ≥ n, b.getLsbD j = false) : b.toNat < 2 ^ n :=
  Nat.lt_pow_two_of_testBit _ h

theorem leadingByte_le (u : I32) : (leadingByte u).toNat ≤ 0x0F := by
  have high : ∀ j ≥ 4, (leadingByte u).getLsbD j = false := fun j hj => by
    rw [getLsbD_leadingByte, decide_eq_false (by omega), Bool.false_and]
  exact Nat.le_of_lt_succ (toNat_lt_two_pow_of_getLsbD high)

theorem lowSeven_le (u : I32) (i : Nat) : (lowSeven u i).toNat ≤ 0x7F := by
  have high : ∀ j ≥ 7, (lowSeven u i).getLsbD j = false := fun j hj => by
    rw [getLsbD_lowSeven, decide_eq_false (by omega), Bool.false_and]
  exact Nat.le_of_lt_succ (toNat_lt_two_pow_of_getLsbD high)

end Sys2Proof

namespace Sys2Proof.Proofs

/-- Settles O5: the five bytes are those of `pack7`, whose bits and ranges the lemmas on its two kinds of byte give. -/
theorem packedInt32Layout : Obligations.PackedInt32Layout := by
  intro v hv
  have low : ∀ i, ∀ j < 7, (lowSeven (toU32 v) i).getLsbD j = (toU32 v).getLsbD (8 * i + j) := fun i j hj => by
    rw [getLsbD_lowSeven, decide_eq_true hj, Bool.true_and]
  refine ⟨_, _, _, _, _, encodeInt32_of_inInt32 hv, fun j hj => ?leading, leadingByte_le _, fun j hj => ?data,
    lowSeven_le _ _, lowSeven_le _ _, lowSeven_le _ _, lowSeven_le _ _⟩
  case leading => rw [getLsbD_leadingByte, decide_eq_true hj, Bool.true_and]
  case data => exact ⟨(low 0 j hj).trans (by rw [Nat.mul_zero, Nat.zero_add]), low 1 j hj, low 2 j hj, low 3 j hj⟩

end Sys2Proof.Proofs
end

section
/-! Words of the opcode table: what a few of them decode to, and that a frame or a word that decodes is run. -/

namespace Sys2Proof.Machine

variable {s : State} {bs : List Byte} {d : Decoded} {later : List Request} {nbits w : Nat}

theorem serve_frames_of_decode (hd : decode bs = .ok d) (ha : d.address = s.address) :
    serve (.frames bs) later s = exec d.instr { s with requests := framesLeft d.rest later } := by
  simp only [serve, hd, if_pos ha]

theorem decode_tableBytes (hd : decodeTable nbits w = some d) : decode (tableBytes nbits w) = .ok d := by
  unfold decodeTable at hd
  cases h : decode (tableBytes nbits w) with
  | error e => rw [h] at hd; exact nomatch hd
  | ok d' => rw [h] at hd; exact congrArg _ (Option.some.inj hd)

theorem withFetchWord_of_decodeTable (hd : decodeTable nbits w = some d) :
    s.withFetchWord nbits w
      = { s with
          isOpen := true, busy := false, running := none, address := d.address,
          requests := .frames (tableBytes nbits w) :: s.requests } := by
  simp only [State.withFetchWord, placeTableWord, hd]

end Sys2Proof.Machine

namespace Sys2Proof.Proofs

open Sys2Proof.Machine

/-- Settles O9: each word is decoded by evaluating the decoder on its bytes. -/
theorem specWordsDecode : Obligations.SpecWordsDecode := by
  unfold Obligations.SpecWordsDecode
  decide

/-- Settles O10: a step serves the frames, and frames that decode in the session's framing run the instruction; the state
a table word is placed in is such a state. -/
theorem stepRunsTheDecodedInstruction : Obligations.StepRunsTheDecodedInstruction := by
  refine ⟨fun s bs later d hr hq hd ha => ?frames, fun s nbits w d hd => ?word⟩
  case frames => exact (step_of_request hr hq).trans (serve_frames_of_decode hd ha)
  case word =>
    rw [withFetchWord_of_decodeTable hd]
    exact (step_of_request rfl rfl).trans (serve_frames_of_decode (decode_tableBytes hd) rfl)

end Sys2Proof.Proofs
end

section
/-! The round-trip laws of R111: what packing, the response form and framing lose, and what they do not. -/

namespace Sys2Proof

theorem getLsbD_littleEndian (b : List Byte) {i j : Nat} (hi : i < 4) (hj : j < 8) :
    (littleEndian b).getLsbD (8 * i + j) = (b.getD i 0).getLsbD j := by
  simp only [littleEndian, BitVec.getLsbD_append]
  interval_cases i
  · rw [if_pos (by omega), Nat.mul_zero, Nat.zero_add]
  · rw [if_neg (by omega), if_pos (by omega), show 8 * 1 + j - 8 = j by omega]
  · rw [if_neg (by omega), if_neg (by omega), if_pos (by omega), show 8 * 2 + j - 8 - 8 = j by omega]
  · rw [if_neg (by omega), if_neg (by omega), if_neg (by omega), show 8 * 3 + j - 8 - 8 - 8 = j by omega]

/-- The mask of R105 leaves a seven-bit byte as it is. -/
theorem and_0x7F_of_highBit : ∀ b : Byte, highBit b = false → b &&& 0x7F = b := by decide

/-- The seven-bit byte and its overflow bit are the response byte (R111). -/
theorem le4_getD_eq (v : Int) {i : Nat} (hi : i < 4) :
    (le4 v).getD i 0
      = (pack7 (toU32 v)).getD (1 + i) 0 ||| ((((pack7 (toU32 v)).getD 0 0 >>> i) &&& 1) <<< 7) := by
  have response : (le4 v).getD i 0 = (toU32 v).extractLsb' (8 * i) 8 := by interval_cases i <;> rfl
  have low : highBit ((pack7 (toU32 v)).getD (1 + i) 0) = false :=
    highBit_pack7 (toU32 v) _ (by interval_cases i <;> simp [pack7])
  rw [response, ← unpackedByte_pack7 (toU32 v) hi]
  exact congrArg (· ||| _) (and_0x7F_of_highBit _ low)

/-- Bytes that are each seven bits wide decode to a pattern whose bits 7, 15, 23 and 31 are clear. -/
theorem getLsbD_littleEndian_of_highBit {b : List Byte} (hb : ∀ x ∈ b, highBit x = false) {i : Nat} (hi : i < 4) :
    (littleEndian b).getLsbD (8 * i + 7) = false := by
  rw [getLsbD_littleEndian b hi (by decide), ← highBit_eq]
  by_cases h : i < b.length
  · rw [List.getD_eq_getElem _ _ h]; exact hb _ (List.getElem_mem h)
  · rw [List.getD_eq_default _ _ (by omega)]; rfl

theorem toU32_decodeInt32 (b : List Byte) : toU32 (decodeInt32 b) = littleEndian b := toU32_toS32 _

/-- No value with an overflow bit is the little-endian reading of seven-bit bytes, so the round trip of the document's §8
loses it (R111). -/
theorem decodeInt32_ne_of_overflow {b : List Byte} (hb : ∀ x ∈ b, highBit x = false) {v : Int}
    (hv : ((toU32 v).getLsbD 7 || (toU32 v).getLsbD 15 || (toU32 v).getLsbD 23 || (toU32 v).getLsbD 31) = true) :
    decodeInt32 b ≠ v := by
  rintro rfl
  have clear : ∀ i < 4, (toU32 (decodeInt32 b)).getLsbD (8 * i + 7) = false := fun i hi => by
    rw [toU32_decodeInt32, getLsbD_littleEndian_of_highBit hb hi]
  rw [clear 0 (by decide), clear 1 (by decide), clear 2 (by decide), clear 3 (by decide)] at hv
  exact absurd hv (by decide)

end Sys2Proof

namespace Sys2Proof.Proofs

/-- Settles O2: the packed bytes of an int32 are those of `pack7`, each seven bits wide; the frame of a command is that
of its opcode and data, with nothing after it. -/
theorem roundTripLaws : Obligations.RoundTripLaws := by
  refine ⟨fun v hv => ?packed, fun v hv => decodeInt32_le4 hv, fun op k data a hk hl hd => ?framed,
    fun v p hv hp => ?overflow, fun p hp => ?minusOne⟩
  case packed => exact ⟨_, encodeInt32_of_inInt32 hv, unpack7_pack7 hv, fun i hi => le4_getD_eq v hi⟩
  case framed =>
    have parsed := parseFrame_frameOf_append (a := a) (rest := []) (hk.trans (congrArg some hl.symm)) hd
    rw [List.append_nil] at parsed
    exact ⟨_, encodeCommand_session op data a, parsed⟩
  case overflow =>
    obtain rfl := Except.ok.inj ((encodeInt32_of_inInt32 hv).symm.trans hp)
    exact decodeInt32_ne_of_overflow fun x hx => highBit_pack7 _ x (List.mem_of_mem_drop (List.mem_of_mem_take hx))
  case minusOne =>
    obtain rfl := Except.ok.inj hp
    decide

end Sys2Proof.Proofs
end

section
/-! Framing (R101) and its inversion (R110): a frame that parses is the one its opcode, data and address encode to. -/

namespace Sys2Proof

open Sys2Proof.Machine (frameOf)

variable {a : Option Addr} {op : Byte} {data bs : List Byte} {f : Frame}

theorem encodeCommand_addressed {x : Int} (h : 0 ≤ x ∧ x ≤ 127) :
    encodeCommand op data (some x) = .ok (0xAA :: BitVec.ofInt 8 x :: (op &&& 0x7F) :: data) := if_pos h

theorem encodeCommand_badAddress {x : Int} (h : ¬ (0 ≤ x ∧ x ≤ 127)) :
    encodeCommand op data (some x) = .error .badAddress := if_neg h

/-- The converse of `parseBody_append`: the bytes are the data the table asks for, then the rest. -/
theorem parseBody_ok (h : parseBody a op bs = .ok f) :
    f.address = a ∧ f.opcode = op ∧ bs = f.data ++ f.rest ∧ arity op = some f.data.length := by
  unfold parseBody at h
  split at h
  · cases h
  · rename_i k hk
    split at h
    · cases h
    · rename_i long
      split at h
      · cases h
      · obtain rfl := Except.ok.inj h
        have length : (bs.take k).length = k := List.length_take_of_le (Nat.le_of_not_lt long)
        exact ⟨rfl, rfl, (List.take_append_drop k bs).symm, by rw [hk, length]⟩

/-- The two headers a frame can have (R71, R72). -/
theorem parseFrame_ok (h : parseFrame bs = .ok f) :
    (∃ op cs, bs = op :: cs ∧ op ≠ 0xAA ∧ highBit op = true ∧ parseBody none op cs = .ok f)
    ∨ ∃ b1 b2 cs, bs = 0xAA :: b1 :: b2 :: cs ∧ highBit b1 = false ∧ highBit b2 = false
        ∧ parseBody (some (b1.setWidth 7)) (b2 ||| 0x80) cs = .ok f := by
  unfold parseFrame at h
  split at h
  · cases h
  · rename_i b0 tl
    split at h
    · rename_i marker
      split at h
      · rename_i b1 b2 cs
        split at h
        · cases h
        · rename_i h1
          split at h
          · cases h
          · rename_i h2
            exact .inr ⟨b1, b2, cs, by rw [marker], by simpa using h1, by simpa using h2, h⟩
      · cases h
    · rename_i compact
      split at h
      · rename_i high
        exact .inl ⟨b0, tl, rfl, compact, high, h⟩
      · cases h

theorem setWidth_setWidth_of_highBit : ∀ b : Byte, highBit b = false → (b.setWidth 7).setWidth 8 = b := by decide

/-- What R110 puts back into the opcode byte of an addressed frame, R72 drops again. -/
theorem or_0x80_and_0x7F_of_highBit : ∀ b : Byte, highBit b = false → (b ||| 0x80) &&& 0x7F = b := by decide

/-- The converse of `parseFrame_frameOf_append`. -/
theorem eq_frameOf_append_of_parseFrame (h : parseFrame bs = .ok f) :
    bs = frameOf f.address f.opcode f.data ++ f.rest ∧ arity f.opcode = some f.data.length := by
  rcases parseFrame_ok h with ⟨op, cs, rfl, -, -, hb⟩ | ⟨b1, b2, cs, rfl, h1, h2, hb⟩
  · obtain ⟨ha, ho, rfl, hk⟩ := parseBody_ok hb
    rw [ha, ho]
    exact ⟨rfl, hk⟩
  · obtain ⟨ha, ho, rfl, hk⟩ := parseBody_ok hb
    rw [ha, ho, frameOf, setWidth_setWidth_of_highBit b1 h1, or_0x80_and_0x7F_of_highBit b2 h2]
    exact ⟨rfl, hk⟩

end Sys2Proof

namespace Sys2Proof.Proofs

/-- Settles O3: the bytes are the frame of what was parsed, which `encode_command` builds, followed by the rest. -/
theorem parsedFrameIsAnEncodedCommand : Obligations.ParsedFrameIsAnEncodedCommand := by
  intro bs f h
  obtain ⟨hbs, hk⟩ := eq_frameOf_append_of_parseFrame h
  exact ⟨_, encodeCommand_session f.opcode f.data f.address, hbs, hk, Machine.parseFrame_data h⟩

/-- Settles O4: each clause is a branch of `encode_command`; 0x83 and 0x03 differ only in the bit an addressed frame
drops. -/
theorem encodeCommandFramings : Obligations.EncodeCommandFramings := by
  refine ⟨fun op data => rfl, fun op data x h0 h1 => encodeCommand_addressed ⟨h0, h1⟩,
    fun op data x hx => encodeCommand_badAddress (by omega), ?sameFrame⟩
  case sameFrame =>
    rw [encodeCommand_addressed (by decide), encodeCommand_addressed (by decide)]
    rfl

end Sys2Proof.Proofs
end

section
/-! Integers, switch readings and speeds: the decoding of a response (R106, R108) and the speed clamp (R109). -/

namespace Sys2Proof

/-- R106 in integers: the first byte received weighs least. -/
theorem toNat_littleEndian (b0 b1 b2 b3 : Byte) :
    (littleEndian [b0, b1, b2, b3]).toNat
      = b0.toNat + 256 * b1.toNat + 65536 * b2.toNat + 16777216 * b3.toNat := by
  have append : ∀ {n : Nat} (x : BitVec n) (y : Byte), (x ++ y).toNat = 256 * x.toNat + y.toNat := fun x y => by
    rw [BitVec.toNat_append, ← Nat.shiftLeft_add_eq_or_of_lt y.isLt, Nat.shiftLeft_eq, Nat.mul_comm]
  simp only [littleEndian, List.getD_cons_zero, List.getD_cons_succ, append]
  omega

end Sys2Proof

namespace Sys2Proof.Machine

variable {cfg : Config} {v : Int}

theorem pair_bytes_eq_iff (w p : Byte × Byte) : [w.1, w.2] = [p.1, p.2] ↔ w = p := by
  simp [Prod.ext_iff]

theorem clampSpeed_of_neg (h : v < 0) : clampSpeed cfg v = 0 := if_pos h

theorem clampSpeed_of_gt (h : (cfg.maxSpeed.toNat : Int) < v) : clampSpeed cfg v = cfg.maxSpeed.toNat := by
  rw [clampSpeed, if_neg (by omega), if_pos h]

theorem clampSpeed_of_le (h0 : 0 ≤ v) (h1 : v ≤ cfg.maxSpeed.toNat) : clampSpeed cfg v = v := by
  rw [clampSpeed, if_neg (by omega), if_neg (by omega)]

theorem clampSpeed_mem_Icc (cfg : Config) (v : Int) : clampSpeed cfg v ∈ Set.Icc 0 (cfg.maxSpeed.toNat : Int) := by
  unfold clampSpeed
  split_ifs <;> constructor <;> omega

/-- MAX_SPEED is at most 2^31 − 1 (R7), so the clamped value is an int32. -/
theorem inInt32_clampSpeed (cfg : Config) (v : Int) : InInt32 (clampSpeed cfg v) := by
  obtain ⟨low, high⟩ := clampSpeed_mem_Icc cfg v
  have bound := cfg.maxSpeed.isLt
  constructor <;> omega

end Sys2Proof.Machine

namespace Sys2Proof.Proofs

open Sys2Proof.Machine

/-- Settles O6: the pattern's unsigned value is the weighted sum of the bytes, and `to_s32` subtracts 2^32 from 2^31 on. -/
theorem decodeInt32IsLittleEndianTwosComplement : Obligations.DecodeInt32IsLittleEndianTwosComplement := by
  intro b0 b1 b2 b3
  simp only [decodeInt32, toS32, toNat_littleEndian]
  constructor
  · intro below
    rw [if_neg (Nat.not_le.2 below)]
    norm_cast
  · intro above
    rw [if_pos above]
    norm_cast

/-- Settles O7: the two bytes equal a pattern's two exactly when the words are equal. -/
theorem limitSwitchMatchesPatterns : Obligations.LimitSwitchMatchesPatterns := by
  intro cfg w
  simp only [decodeLimitSwitch, Bool.or_eq_true, decide_eq_true_eq, pair_bytes_eq_iff, Triggered]

/-- Settles O8: one lemma for each range, and the clamped value is an int32, so it is packed. -/
theorem clampSpeedRange : Obligations.ClampSpeedRange := by
  intro cfg v
  exact ⟨clampSpeed_of_neg, clampSpeed_of_gt, clampSpeed_of_le,
    _, encodeInt32_of_inInt32 (inInt32_clampSpeed cfg v)⟩

end Sys2Proof.Proofs
end

section
/-! A wire command run by itself: it is a transaction on a ready session, and what a scripted oracle makes of it. -/

namespace Sys2Proof.Machine

variable {P : List Byte → Prop} {s u : State} {o : Oracle} {i : Instr}
  {op offset length : Byte} {bs : List Byte} {n : Nat}

/-- The next state of a command whose body does input and output alone, as one record. -/
theorem IoOnly.withResult_eq_commandDone {r : Result} (h : IoOnly P s u) :
    ∃ evs bytes o, { u with result := some r } = commandDone evs bytes r o s ∧ MayBeOnWire evs bytes
      ∧ IoEvents P evs := by
  obtain ⟨evs, bytes, hh, hw, hm, hio⟩ := h.grows
  refine ⟨evs, bytes, u.oracle, ?_, hm, hio⟩
  rw [h.rest, hh, hw]
  rfl

theorem runCommand_of_ready {body : State → Res Value} (hs : Ready s) :
    runCommand body s = .next (report (body s)) := by
  obtain ⟨hopen, hbusy⟩ := hs
  simp [runCommand, hopen, hbusy]

/-! ### Commands that write one frame -/

theorem report_tx_ok (h : s.oracle = { o with tx := .ok :: o.tx }) :
    report ((tx bs s).andThen noResponse) = commandDone [.tx bs .ok] bs (.ok .unit) o s := by
  rw [tx_scripted_ok bs h]
  rfl

theorem report_tx_err (h : s.oracle = { o with tx := .err n :: o.tx }) :
    report ((tx bs s).andThen noResponse) = commandDone [.tx bs .err] (bs.take n) (.error .transport) o s := by
  rw [tx_scripted_err bs h]
  rfl

theorem exec_writeOnly (hs : Ready s)
    (hi : (i, op) ∈ [(Instr.cmdExitSafeStart, (0x83 : Byte)), (.cmdEnergize, 0x85), (.cmdDeenergize, 0x86),
      (.cmdStopMotor, 0x92)]) :
    exec i s = .next (report ((tx (frameOf s.address op []) s).andThen noResponse)) := by
  have body : exec i s = runCommand (fun s => (send op [] s).andThen noResponse) s := by
    simp only [List.mem_cons, Prod.mk.injEq, List.not_mem_nil, or_false] at hi
    rcases hi with ⟨rfl, rfl⟩ | ⟨rfl, rfl⟩ | ⟨rfl, rfl⟩ | ⟨rfl, rfl⟩ <;> rfl
  rw [body, runCommand_of_ready hs, send_eq]

theorem exec_valueCommand {v : Int} (hs : Ready s)
    (hi : (i, op) ∈ [(Instr.cmdSetTargetPosition v, (0xE0 : Byte)), (.cmdSetMaxSpeed v, 0xE6)]) :
    exec i s = .next (report ((sendInt32 op v s).andThen noResponse)) := by
  have body : exec i s = runCommand (fun s => (sendInt32 op v s).andThen noResponse) s := by
    simp only [List.mem_cons, Prod.mk.injEq, List.not_mem_nil, or_false] at hi
    rcases hi with ⟨rfl, rfl⟩ | ⟨rfl, rfl⟩ <;> rfl
  rw [body, runCommand_of_ready hs]

theorem report_raise_eq_commandDone {e : Error} : report (.raise e s) = commandDone [] [] (.error e) s.oracle s := by
  simp [commandDone, report]

/-! ### The command that reads -/

theorem andThen_assoc {α β γ : Type} (r : Res α) (f : α → State → Res β) (g : β → State → Res γ) :
    (r.andThen f).andThen g = r.andThen fun v t => (f v t).andThen g := by
  cases r <;> rfl

/-- A variable read whose full answer is decoded: what GET_VARIABLES does for either variable (R137). -/
def readVariable (offset length : Byte) (value : List Byte → Value) (s : State) : Res Value :=
  (memRead offset length s).andThen fun bs t => .ok (value bs) t

theorem memRead_scripted_ok (hl : bs.length = length.toNat)
    (h : s.oracle = { o with tx := .ok :: o.tx, rx := .ok bs :: o.rx }) :
    memRead offset length s
      = .ok bs { s with
          oracle := o, wire := s.wire ++ frameOf s.address 0xA1 [offset, length],
          hist := s.hist ++ [.tx (frameOf s.address 0xA1 [offset, length]) .ok, .rx length.toNat (.ok bs)] } := by
  rw [memRead_eq, tx_scripted_ok (o := { o with rx := .ok bs :: o.rx }) _ h, andThen_ok,
    rx_scripted_ok (o := o) rfl hl.le, andThen_ok, if_neg hl.ge.not_gt]
  simp only [List.append_assoc, List.cons_append, List.nil_append]

theorem report_readVariable_ok {value : List Byte → Value}
    (h : s.oracle = { o with tx := .ok :: o.tx, rx := .ok bs :: o.rx }) (hl : bs.length = length.toNat) :
    report (readVariable offset length value s)
      = commandDone [.tx (frameOf s.address 0xA1 [offset, length]) .ok, .rx length.toNat (.ok bs)]
          (frameOf s.address 0xA1 [offset, length]) (.ok (value bs)) o s := by
  rw [readVariable, memRead_scripted_ok hl h]
  rfl

theorem report_readVariable_err {value : List Byte → Value} {f : ReadFailure} (hf : f.Fits length.toNat)
    (h : s.oracle = { o with tx := f.tx ++ o.tx, rx := f.rx ++ o.rx }) :
    report (readVariable offset length value s)
      = commandDone (f.events (frameOf s.address 0xA1 [offset, length]) length.toNat)
          (f.bytes (frameOf s.address 0xA1 [offset, length])) (.error f.error) o s := by
  rw [readVariable, memRead_scripted_err hf h]
  rfl

theorem execCmdGetVariables_position :
    execCmdGetVariables 0x22 4 s = runCommand (readVariable 0x22 4 fun bs => .position (decodeInt32 bs)) s := by
  simp only [execCmdGetVariables, varPosition, if_true, readPosition, andThen_assoc, andThen_ok]
  rfl

theorem execCmdGetVariables_switch :
    execCmdGetVariables 0x47 2 s
      = runCommand (fun s => readVariable 0x47 2 (fun bs => .switch (decodeLimitSwitch s.cfg bs)) s) s := by
  have other : ((0x47, 2) : Byte × Byte) ≠ varPosition := by decide
  simp only [execCmdGetVariables, if_neg other, varStatus, if_true, readSwitch, andThen_assoc, andThen_ok]
  rfl

/-- For each of the two pairs, the command is a read of that variable with the variable's own decoding (R138, R139). -/
theorem exec_getVariables {value : Value} (hs : Ready s)
    (hp : (offset, length, value) ∈ [((0x22 : Byte), (4 : Byte), Value.position (decodeInt32 bs)),
      (0x47, 2, .switch (decodeLimitSwitch s.cfg bs))]) :
    ∃ decoded : List Byte → Value, decoded bs = value
      ∧ exec (.cmdGetVariables offset length) s = .next (report (readVariable offset length decoded s)) := by
  simp only [List.mem_cons, Prod.mk.injEq, List.not_mem_nil, or_false] at hp
  rcases hp with ⟨rfl, rfl, rfl⟩ | ⟨rfl, rfl, rfl⟩
  · exact ⟨fun bs => .position (decodeInt32 bs), rfl, execCmdGetVariables_position.trans (runCommand_of_ready hs)⟩
  · exact ⟨fun bs => .switch (decodeLimitSwitch s.cfg bs), rfl,
      execCmdGetVariables_switch.trans (runCommand_of_ready hs)⟩

theorem execCmdGetVariables_of_other (hpos : ¬ (offset = 0x22 ∧ length = 4)) (hsw : ¬ (offset = 0x47 ∧ length = 2)) :
    execCmdGetVariables offset length s = .refused .otherVariable := by
  rw [execCmdGetVariables, if_neg (by simpa [varPosition] using hpos), if_neg (by simpa [varStatus] using hsw)]

end Sys2Proof.Machine

namespace Sys2Proof.Proofs

open Sys2Proof.Machine

/-- Settles O16: a wire command does input and output alone, and every frame of the block is one of the session's. -/
theorem wireCommandFrame : Obligations.WireCommandFrame := by
  intro i s t hi h
  have framed : Admits (fun bs => ∃ op data, bs = frameOf s.address op data) s.address :=
    fun op data _ _ => ⟨op, data, rfl⟩
  obtain ⟨-, -, u, r, hio, rfl⟩ := exec_wire hi framed h
  obtain ⟨evs, bytes, o, he, hm, hev⟩ := hio.withResult_eq_commandDone (r := r)
  exact ⟨evs, bytes, r, o, he, hm, hev⟩

/-- Settles O13: the command is one write of its frame, answered ok or err. -/
theorem writeOnlyCommandsSendTheirFrame : Obligations.WriteOnlyCommandsSendTheirFrame := by
  intro s o n hs p hp
  rw [exec_writeOnly hs hp]
  exact ⟨fun h => congrArg _ (report_tx_ok h), fun h => congrArg _ (report_tx_err h)⟩

/-- Settles O14: the range test of `encode_int32` comes first, and an int32 is one write of the packed frame. -/
theorem valueCommandsPackAndSend : Obligations.ValueCommandsPackAndSend := by
  intro s o v n hs p hp
  rw [exec_valueCommand hs hp, sendInt32_eq]
  refine ⟨fun hv h => ?_, fun hv h => ?_, fun hv => ?_⟩
  · rw [if_pos hv, report_tx_ok h]
  · rw [if_pos hv, report_tx_err h]
  · rw [if_neg hv, andThen_raise, report_raise_eq_commandDone]

/-- Settles O15: a full answer is decoded, and the three errors are the three ways a variable read fails (R163). -/
theorem getVariablesReadsAndDecodes : Obligations.GetVariablesReadsAndDecodes := by
  refine ⟨fun s o bs n hs p hp => ?_, fun s off len => execCmdGetVariables_of_other⟩
  obtain ⟨decoded, hvalue, hexec⟩ := exec_getVariables hs hp
  rw [hexec, ← hvalue]
  exact ⟨fun h hl => congrArg _ (report_readVariable_ok h hl),
    fun h hl => congrArg _ (report_readVariable_err (f := .short bs) hl h),
    fun h => congrArg _ (report_readVariable_err (f := .noAnswer) trivial h),
    fun h => congrArg _ (report_readVariable_err (f := .request n) trivial h)⟩

end Sys2Proof.Proofs
end

section
/-! An operation on a session that is not ready: the tests of R160 come before any body is run. -/

namespace Sys2Proof.Machine

variable {s : State} {i op : Instr}

theorem not_ready_of_closed (h : s.isOpen = false) : ¬ Ready s := fun ⟨hopen, _⟩ => by simp [h] at hopen

theorem not_ready_of_busy (h : s.busy = true) : ¬ Ready s := fun ⟨_, hbusy⟩ => by simp [h] at hbusy

theorem invoke_of_not_ready {body : State → Res Progress} (hs : ¬ Ready s) : ∃ r, invoke op body s = .refused r := by
  unfold invoke
  split_ifs with hopen hbusy
  · exact ⟨_, rfl⟩
  · exact ⟨_, rfl⟩
  · exact absurd ⟨by simpa using hopen, by simpa using hbusy⟩ hs

theorem runCommand_of_not_ready {body : State → Res Value} (hs : ¬ Ready s) :
    ∃ r, runCommand body s = .refused r := by
  unfold runCommand
  split_ifs with hopen hbusy
  · exact ⟨_, rfl⟩
  · exact ⟨_, rfl⟩
  · exact absurd ⟨by simpa using hopen, by simpa using hbusy⟩ hs

/-- Every instruction but a construction is an operation in the frame of R160, or a wire command run by itself; the two
with a test of their operands before that refuse by name. -/
theorem exec_of_not_ready (hs : ¬ Ready s) (hc : ∀ a c, i ≠ .connect a c) : ∃ r, exec i s = .refused r := by
  unfold exec
  cases i with
  | cmdExitSafeStart | cmdEnergize | cmdDeenergize | cmdStopMotor | cmdSetTargetPosition _ | cmdSetMaxSpeed _ =>
    exact runCommand_of_not_ready hs
  | cmdGetVariables offset length =>
    simp only [execCmdGetVariables]
    split_ifs
    · exact runCommand_of_not_ready hs
    · exact runCommand_of_not_ready hs
    · exact ⟨_, rfl⟩
  | exitSafeStart | energize | stopAndDeenergize | setTargetPosition _ | setMaxSpeed _ | getCurrentPosition
  | getLimitSwitchState | displayedPosition | energizeSequence | calibrate | goHome =>
    exact invoke_of_not_ready hs
  | updateHome newHome =>
    simp only [execUpdateHome]
    split_ifs
    · exact invoke_of_not_ready hs
    · exact ⟨_, rfl⟩
  | connect a c => exact absurd rfl (hc a c)

theorem exec_connect_of_busy {a : Option Int} {c : Config} (h : s.busy = true) :
    exec (.connect a c) s = .refused .sessionBusy := if_pos h

end Sys2Proof.Machine

namespace Sys2Proof.Proofs

open Sys2Proof.Machine

/-- Settles O12: a closed session and a busy one are not ready, and a construction makes the busy test by itself. -/
theorem closedOrBusySessionRefuses : Obligations.ClosedOrBusySessionRefuses := by
  refine ⟨fun i s hclosed hc => exec_of_not_ready (not_ready_of_closed hclosed) hc, fun i s hbusy => ?_⟩
  by_cases hc : ∃ a c, i = .connect a c
  · obtain ⟨a, c, rfl⟩ := hc
    exact ⟨_, exec_connect_of_busy hbusy⟩
  · exact exec_of_not_ready (not_ready_of_busy hbusy) fun a c e => hc ⟨a, c, e⟩

end Sys2Proof.Proofs
end

section
/-! A session verb on a ready session: the operation frame of R160 round a body of input and output, and what a scripted
oracle makes of each kind of body: one frame, two frames, a variable read. -/

namespace Sys2Proof.Machine

variable {s : State} {o : Oracle} {i : Instr} {evs fs : List Event} {bytes cs bs : List Byte} {n : Nat}
  {op offset length : Byte}

/-! ### The frame of R160 round input and output -/

/-- All that input and output changes: `evs` recorded, `bytes` put on the wire, the oracles left at `o`. -/
def State.afterIo (evs : List Event) (bytes : List Byte) (o : Oracle) (s : State) : State :=
  { s with oracle := o, wire := s.wire ++ bytes, hist := s.hist ++ evs }

theorem afterIo_nil : s.afterIo [] [] s.oracle = s := by simp [State.afterIo]

theorem afterIo_afterIo {o' : Oracle} :
    (s.afterIo evs bytes o).afterIo fs cs o' = s.afterIo (evs ++ fs) (bytes ++ cs) o' := by
  simp [State.afterIo]

theorem leave_afterIo_enter {r : Result} :
    leave i r ((enter i s).afterIo evs bytes o) = returned i evs bytes r o s := by
  simp [leave, State.afterIo, enter, State.log, returned]

theorem leave_enter {r : Result} : leave i r (enter i s) = returned i [] [] r s.oracle s := by
  rw [← leave_afterIo_enter, ← enter_oracle i s, afterIo_nil]

theorem abort_of_not_isController {e : Error} (hi : i.isController = false) : abort i e s = leave i (.error e) s := by
  simp [abort, hi]

theorem settle_done_afterIo {v : Value} :
    settle i (.ok (.done v) ((enter i s).afterIo evs bytes o)) = returned i evs bytes (.ok v) o s :=
  leave_afterIo_enter

theorem settle_raise_afterIo {e : Error} (hi : i.isController = false) :
    settle i (.raise e ((enter i s).afterIo evs bytes o)) = returned i evs bytes (.error e) o s :=
  (abort_of_not_isController hi).trans leave_afterIo_enter

theorem invoke_of_ready {body : State → Res Progress} (hs : Ready s) :
    invoke i body s = .next (settle i (body (enter i s))) := by
  obtain ⟨hopen, hbusy⟩ := hs
  simp [invoke, hopen, hbusy]

/-! ### A write, or a variable read, and what follows it -/

theorem tx_andThen_of_ok {α : Type} {k : Unit → State → Res α} (h : s.oracle = { o with tx := .ok :: o.tx }) :
    (tx bs s).andThen k = k () (s.afterIo [.tx bs .ok] bs o) := by
  rw [tx_scripted_ok bs h]
  rfl

theorem tx_andThen_of_err {α : Type} {k : Unit → State → Res α} (h : s.oracle = { o with tx := .err n :: o.tx }) :
    (tx bs s).andThen k = .raise .transport (s.afterIo [.tx bs .err] (bs.take n) o) := by
  rw [tx_scripted_err bs h]
  rfl

theorem memRead_andThen_of_ok {α : Type} {k : List Byte → State → Res α} (hl : bs.length = length.toNat)
    (h : s.oracle = { o with tx := .ok :: o.tx, rx := .ok bs :: o.rx }) :
    (memRead offset length s).andThen k
      = k bs (s.afterIo [.tx (frameOf s.address 0xA1 [offset, length]) .ok, .rx length.toNat (.ok bs)]
          (frameOf s.address 0xA1 [offset, length]) o) := by
  rw [memRead_scripted_ok hl h]
  rfl

theorem memRead_andThen_of_err {α : Type} {k : List Byte → State → Res α} {f : ReadFailure}
    (hf : f.Fits length.toNat) (h : s.oracle = { o with tx := f.tx ++ o.tx, rx := f.rx ++ o.rx }) :
    (memRead offset length s).andThen k
      = .raise f.error (s.afterIo (f.events (frameOf s.address 0xA1 [offset, length]) length.toNat)
          (f.bytes (frameOf s.address 0xA1 [offset, length])) o) := by
  rw [memRead_scripted_err hf h]
  rfl

/-! ### Verbs of one frame -/

theorem settle_tx_ok (h : s.oracle = { o with tx := .ok :: o.tx }) :
    settle i ((tx bs (enter i s)).andThen returnUnit) = returned i [.tx bs .ok] bs (.ok .unit) o s := by
  rw [tx_andThen_of_ok (s := enter i s) h]
  exact settle_done_afterIo

theorem settle_tx_err (hi : i.isController = false) (h : s.oracle = { o with tx := .err n :: o.tx }) :
    settle i ((tx bs (enter i s)).andThen returnUnit)
      = returned i [.tx bs .err] (bs.take n) (.error .transport) o s := by
  rw [tx_andThen_of_err (s := enter i s) h, settle_raise_afterIo hi]

theorem exec_sendVerb (hs : Ready s) (hi : (i, op) ∈ [(Instr.exitSafeStart, (0x83 : Byte)), (.energize, 0x85)]) :
    i.isController = false
      ∧ exec i s = .next (settle i ((tx (frameOf s.address op []) (enter i s)).andThen returnUnit)) := by
  have body : i.isController = false ∧ exec i s = invoke i (fun s => (send op [] s).andThen returnUnit) s := by
    simp only [List.mem_cons, Prod.mk.injEq, List.not_mem_nil, or_false] at hi
    rcases hi with ⟨rfl, rfl⟩ | ⟨rfl, rfl⟩ <;> exact ⟨rfl, rfl⟩
  refine body.imp_right fun hx => ?_
  rw [hx, invoke_of_ready hs, send_eq, enter_address]

theorem exec_setTargetPosition {v : Int} (hs : Ready s) :
    exec (.setTargetPosition v) s
      = .next (settle (.setTargetPosition v)
          ((sendInt32 0xE0 v (enter (.setTargetPosition v) s)).andThen returnUnit)) := by
  unfold exec
  exact invoke_of_ready hs

/-- The clamped value is an int32, so it is always packed and written (R168). -/
theorem exec_setMaxSpeed {v : Int} (hs : Ready s) :
    exec (.setMaxSpeed v) s
      = .next (settle (.setMaxSpeed v)
          ((tx (frameOf s.address 0xE6 (pack7 (toU32 (clampSpeed s.cfg v)))) (enter (.setMaxSpeed v) s)).andThen
            returnUnit)) := by
  unfold exec
  refine (invoke_of_ready hs).trans ?_
  rw [enter_cfg, sendInt32_eq, if_pos (inInt32_clampSpeed s.cfg v), enter_address]

/-! ### Verbs of two frames -/

/-- Two frames without data, with something done between them. -/
def twoFrames (first second : Byte) (between : State → State) (s : State) : Res Progress :=
  (send first [] s).andThen fun _ t => (send second [] (between t)).andThen returnUnit

theorem exec_stopAndDeenergize (hs : Ready s) :
    exec .stopAndDeenergize s
      = .next (settle .stopAndDeenergize
          (twoFrames 0x92 0x86 (fun t => sleep t.cfg.stopSettle t) (enter .stopAndDeenergize s))) := by
  unfold exec
  exact invoke_of_ready hs

theorem exec_energizeSequence (hs : Ready s) :
    exec .energizeSequence s
      = .next (settle .energizeSequence (twoFrames 0x83 0x85 id (enter .energizeSequence s))) := by
  unfold exec
  exact invoke_of_ready hs

section TwoFrames
variable {first second : Byte} {between : State → State} {gap : Config → List Event}

theorem twoFrames_of_first_ok (hb : ∀ t, between t = t.afterIo (gap t.cfg) [] t.oracle)
    (h : s.oracle = { o with tx := .ok :: o.tx }) :
    twoFrames first second between s
      = (tx (frameOf s.address second []) (s.afterIo (.tx (frameOf s.address first []) .ok :: gap s.cfg)
          (frameOf s.address first []) o)).andThen returnUnit := by
  rw [twoFrames, send_eq, tx_andThen_of_ok h, hb, afterIo_afterIo, send_eq, List.append_nil]
  rfl

theorem settle_twoFrames_ok (hb : ∀ t, between t = t.afterIo (gap t.cfg) [] t.oracle)
    (h : s.oracle = { o with tx := .ok :: .ok :: o.tx }) :
    settle i (twoFrames first second between (enter i s))
      = returned i (.tx (frameOf s.address first []) .ok :: gap s.cfg ++ [.tx (frameOf s.address second []) .ok])
          (frameOf s.address first [] ++ frameOf s.address second []) (.ok .unit) o s := by
  rw [twoFrames_of_first_ok (s := enter i s) (o := { o with tx := .ok :: o.tx }) hb h,
    tx_andThen_of_ok (o := o) rfl, afterIo_afterIo]
  exact settle_done_afterIo

theorem settle_twoFrames_first_err (hi : i.isController = false) (h : s.oracle = { o with tx := .err n :: o.tx }) :
    settle i (twoFrames first second between (enter i s))
      = returned i [.tx (frameOf s.address first []) .err] ((frameOf s.address first []).take n)
          (.error .transport) o s := by
  rw [twoFrames, send_eq, tx_andThen_of_err (s := enter i s) h, settle_raise_afterIo hi, enter_address]

theorem settle_twoFrames_second_err (hi : i.isController = false)
    (hb : ∀ t, between t = t.afterIo (gap t.cfg) [] t.oracle)
    (h : s.oracle = { o with tx := .ok :: .err n :: o.tx }) :
    settle i (twoFrames first second between (enter i s))
      = returned i (.tx (frameOf s.address first []) .ok :: gap s.cfg ++ [.tx (frameOf s.address second []) .err])
          (frameOf s.address first [] ++ (frameOf s.address second []).take n) (.error .transport) o s := by
  rw [twoFrames_of_first_ok (s := enter i s) (o := { o with tx := .err n :: o.tx }) hb h,
    tx_andThen_of_err (o := o) rfl, afterIo_afterIo]
  exact settle_raise_afterIo hi

end TwoFrames

theorem sleep_eq_afterIo {d : Seconds} : sleep d s = s.afterIo [.sleep d] [] s.oracle := by
  simp [sleep, State.log, State.afterIo]

/-! ### Verbs that read a variable -/

/-- A variable read whose full answer, with the state it leaves, gives the value returned. -/
def readVerb (offset length : Byte) (value : List Byte → State → Value) (s : State) : Res Progress :=
  (memRead offset length s).andThen fun bs t => .ok (.done (value bs t)) t

section ReadVerb
variable {value : List Byte → State → Value} {v : Value}

theorem settle_readVerb_ok (hv : ∀ t, t.homeOffset = s.homeOffset → value bs t = v)
    (h : s.oracle = { o with tx := .ok :: o.tx, rx := .ok bs :: o.rx }) (hl : bs.length = length.toNat) :
    settle i (readVerb offset length value (enter i s))
      = returned i [.tx (frameOf s.address 0xA1 [offset, length]) .ok, .rx length.toNat (.ok bs)]
          (frameOf s.address 0xA1 [offset, length]) (.ok v) o s := by
  rw [readVerb, memRead_andThen_of_ok (s := enter i s) hl h, hv (State.afterIo _ _ _ (enter i s)) rfl]
  exact settle_done_afterIo

theorem settle_readVerb_err {f : ReadFailure} (hi : i.isController = false) (hf : f.Fits length.toNat)
    (h : s.oracle = { o with tx := f.tx ++ o.tx, rx := f.rx ++ o.rx }) :
    settle i (readVerb offset length value (enter i s))
      = returned i (f.events (frameOf s.address 0xA1 [offset, length]) length.toNat)
          (f.bytes (frameOf s.address 0xA1 [offset, length])) (.error f.error) o s := by
  rw [readVerb, memRead_andThen_of_err (s := enter i s) hf h]
  exact settle_raise_afterIo hi

end ReadVerb

/-- Both position verbs read the position; one returns it decoded, the other its difference from home (R169, R172). -/
theorem exec_positionVerb {p : Int} (hs : Ready s)
    (hp : (i, p) ∈ [(Instr.getCurrentPosition, decodeInt32 bs),
      (.displayedPosition, decodeInt32 bs - toS32 s.homeOffset)]) :
    i.isController = false ∧ ∃ value : List Byte → State → Value,
      (∀ t, t.homeOffset = s.homeOffset → value bs t = .position p)
        ∧ exec i s = .next (settle i (readVerb 0x22 4 value (enter i s))) := by
  simp only [List.mem_cons, Prod.mk.injEq, List.not_mem_nil, or_false] at hp
  unfold exec
  rcases hp with ⟨rfl, rfl⟩ | ⟨rfl, rfl⟩
  · refine ⟨rfl, fun bs _ => .position (decodeInt32 bs), fun _ _ => rfl, (invoke_of_ready hs).trans ?_⟩
    rw [readPosition, andThen_assoc]
    rfl
  · refine ⟨rfl, fun bs t => .position (decodeInt32 bs - toS32 t.homeOffset), fun t ht => by simp only [ht],
      (invoke_of_ready hs).trans ?_⟩
    rw [readPosition, andThen_assoc]
    rfl

theorem exec_getLimitSwitchState (hs : Ready s) :
    exec .getLimitSwitchState s
      = .next (settle .getLimitSwitchState
          (readVerb 0x47 2 (fun bs _ => .switch (decodeLimitSwitch s.cfg bs)) (enter .getLimitSwitchState s))) := by
  unfold exec
  refine (invoke_of_ready hs).trans ?_
  rw [readSwitch, andThen_assoc]
  rfl

/-! ### The verb without input and output -/

theorem exec_updateHome_of_ready {v : Int} (hs : Ready s) (hv : InInt32 v) :
    exec (.updateHome v) s = .next (storeHome v (returned (.updateHome v) [] [] (.ok .unit) s.oracle s)) := by
  refine (if_pos hv).trans ((invoke_of_ready hs).trans ?_)
  rw [← leave_enter]
  rfl

end Sys2Proof.Machine

namespace Sys2Proof.Proofs

open Sys2Proof.Machine

/-- Settles O17: the verb is one write of its frame, answered ok or err. -/
theorem sendVerbsComplete : Obligations.SendVerbsComplete := by
  intro s o n hs p hp
  obtain ⟨hi, hexec⟩ := exec_sendVerb hs hp
  rw [hexec]
  exact ⟨fun h => congrArg _ (settle_tx_ok h), fun h => congrArg _ (settle_tx_err hi h)⟩

/-- Settles O18: two frames with the settling sleep between them, of which either can fail. -/
theorem stopAndDeenergizeSequence : Obligations.StopAndDeenergizeSequence := by
  intro s o n hs
  rw [exec_stopAndDeenergize hs]
  have pause (t : State) : sleep t.cfg.stopSettle t = t.afterIo [.sleep t.cfg.stopSettle] [] t.oracle :=
    sleep_eq_afterIo
  exact ⟨fun h => congrArg _ (settle_twoFrames_ok (gap := fun c => [.sleep c.stopSettle]) pause h),
    fun h => congrArg _ (settle_twoFrames_first_err rfl h),
    fun h => congrArg _ (settle_twoFrames_second_err (gap := fun c => [.sleep c.stopSettle]) rfl pause h)⟩

/-- Settles O19: the range test of `encode_int32` comes first, and an int32 is one write of the packed frame. -/
theorem setTargetPositionSends : Obligations.SetTargetPositionSends := by
  intro s o v n hs
  rw [exec_setTargetPosition hs, sendInt32_eq]
  refine ⟨fun hv h => ?_, fun hv h => ?_, fun hv => ?_⟩
  · rw [if_pos hv]
    exact congrArg _ (settle_tx_ok h)
  · rw [if_pos hv]
    exact congrArg _ (settle_tx_err rfl h)
  · rw [if_neg hv]
    exact congrArg _ leave_enter

/-- Settles O20: in each range the value sent is the clamped one, and the verb is one write of its frame. -/
theorem setMaxSpeedClampsAndSends : Obligations.SetMaxSpeedClampsAndSends := by
  intro s o v c n hs hc
  have clamped : clampSpeed s.cfg v = c := by
    rcases hc with ⟨hneg, rfl⟩ | ⟨hgt, rfl⟩ | ⟨h0, hle, rfl⟩
    · exact clampSpeed_of_neg hneg
    · exact clampSpeed_of_gt hgt
    · exact clampSpeed_of_le h0 hle
  rw [exec_setMaxSpeed hs, clamped]
  exact ⟨fun h => congrArg _ (settle_tx_ok h), fun h => congrArg _ (settle_tx_err rfl h)⟩

/-- Settles O21: a full answer gives the verb's value, and the three errors are the three ways a variable read fails
(R163). -/
theorem positionVerbsRead : Obligations.PositionVerbsRead := by
  intro s o bs n hs p hp
  obtain ⟨hi, value, hvalue, hexec⟩ := exec_positionVerb hs hp
  rw [hexec]
  exact ⟨fun h hl => congrArg _ (settle_readVerb_ok hvalue h hl),
    fun h hl => congrArg _ (settle_readVerb_err (f := .short bs) hi hl h),
    fun h => congrArg _ (settle_readVerb_err (f := .noAnswer) hi trivial h),
    fun h => congrArg _ (settle_readVerb_err (f := .request n) hi trivial h)⟩

/-- Settles O22: a full answer is decoded by the two patterns, and the three errors are the three ways a variable read
fails (R163). -/
theorem limitSwitchVerbReads : Obligations.LimitSwitchVerbReads := by
  intro s o bs n hs
  rw [exec_getLimitSwitchState hs]
  exact ⟨fun h hl => congrArg _ (settle_readVerb_ok (fun _ _ => rfl) h hl),
    fun h hl => congrArg _ (settle_readVerb_err (f := .short bs) rfl hl h),
    fun h => congrArg _ (settle_readVerb_err (f := .noAnswer) rfl trivial h),
    fun h => congrArg _ (settle_readVerb_err (f := .request n) rfl trivial h)⟩

/-- Settles O23: the body stores the value between the call and the return, and an int32 is stored without loss. -/
theorem updateHomeStores : Obligations.UpdateHomeStores := by
  intro s h
  exact ⟨fun hs hv => ⟨_, exec_updateHome_of_ready hs hv, toS32_toU32 hv, rfl⟩, fun hv => if_neg hv⟩

/-- Settles O24: two frames with nothing between them, of which either can fail. -/
theorem energizeSequenceSends : Obligations.EnergizeSequenceSends := by
  intro s o n hs
  rw [exec_energizeSequence hs]
  have nothing (t : State) : id t = t.afterIo [] [] t.oracle := afterIo_nil.symm
  exact ⟨fun h => congrArg _ (settle_twoFrames_ok (gap := fun _ => []) nothing h),
    fun h => congrArg _ (settle_twoFrames_first_err rfl h),
    fun h => congrArg _ (settle_twoFrames_second_err (gap := fun _ => []) rfl nothing h)⟩

end Sys2Proof.Proofs
end

section
/-! The bodies that `calibrate` and `go_home` call, on a scripted oracle: each as what it does to the history, the wire
and the oracles, before whatever follows it. -/

namespace Sys2Proof.Machine

variable {s : State} {o o' : Oracle} {α : Type} {op : Instr} {ph : Phase} {r : Result} {e : Error}
  {evs fs : List Event} {bytes cs : List Byte} {n : Nat} {v p : Int} {t : Reading} {w : Byte × Byte} {f : ReadFailure}

@[simp] theorem afterIo_address : (s.afterIo evs bytes o).address = s.address := rfl
@[simp] theorem afterIo_cfg : (s.afterIo evs bytes o).cfg = s.cfg := rfl

@[simp] theorem sentBytes_append (es fs : List Event) : sentBytes (es ++ fs) = sentBytes es ++ sentBytes fs := by
  induction es with
  | nil => rfl
  | cons e es ih => cases e <;> simp [sentBytes, ih]

/-! ### The end of a controller operation -/

/-- What an operation did before the step that ends it, or earlier in that step, belongs to its events. -/
theorem ended_afterIo :
    ended op ph fs cs r o' (s.afterIo evs bytes o) = ended op ph (evs ++ fs) (bytes ++ cs) r o' s := by
  simp [ended, State.afterIo]

theorem ended_enter : ended op ph evs bytes r o (enter op s) = ended op ph (.call op :: evs) bytes r o s := by
  simp [ended, enter, State.log]

/-- An error ends a controller operation in phase Idle (R247). -/
theorem settle_raise_controller (hop : op.isController = true) :
    settle op (.raise e (s.afterIo evs bytes o)) = ended op .idle evs bytes (.error e) o s := by
  simp only [settle, abort, hop, if_true]
  rfl

/-! ### One body and what follows it -/

theorem now_of_script (h : s.oracle = { o with clock := t :: o.clock }) (ht : 0 ≤ t.value) :
    now s = (t, s.afterIo [.now t] [] o) := by
  rw [now_scripted h ht, State.afterIo, List.append_nil]

theorem setTarget_andThen_of_ok {k : Unit → State → Res α} (hv : InInt32 v)
    (h : s.oracle = { o with tx := .ok :: o.tx }) :
    (setTargetBody v s).andThen k
      = k () (s.afterIo [.tx (targetFrame s.address v) .ok] (targetFrame s.address v) o) := by
  rw [setTargetBody_scripted hv h]
  rfl

theorem setTarget_andThen_of_err {k : Unit → State → Res α} (hv : InInt32 v)
    (h : s.oracle = { o with tx := .err n :: o.tx }) :
    (setTargetBody v s).andThen k
      = .raise .transport
          (s.afterIo [.tx (targetFrame s.address v) .err] ((targetFrame s.address v).take n) o) := by
  rw [setTargetBody_scripted_err hv h]
  rfl

theorem setTarget_andThen_of_outOfRange {k : Unit → State → Res α} (hv : ¬ InInt32 v) :
    (setTargetBody v s).andThen k = .raise (.encoding .outOfRange) (s.afterIo [] [] s.oracle) := by
  rw [setTargetBody_outOfRange hv, afterIo_nil]
  rfl

theorem readPosition_andThen_of_ok {k : Int → State → Res α} (hp : InInt32 p)
    (h : s.oracle = { o with tx := .ok :: o.tx, rx := .ok (le4 p) :: o.rx }) :
    (readPosition s).andThen k = k p (s.afterIo (positionEvents s.address p) (positionRequest s.address) o) := by
  rw [readPosition_scripted hp h]
  rfl

theorem readPosition_andThen_of_err {k : Int → State → Res α} (hf : f.Fits 4)
    (h : s.oracle = { o with tx := f.tx ++ o.tx, rx := f.rx ++ o.rx }) :
    (readPosition s).andThen k
      = .raise f.error
          (s.afterIo (f.events (positionRequest s.address) 4) (f.bytes (positionRequest s.address)) o) := by
  rw [readPosition_scripted_err hf h]
  rfl

theorem readSwitch_andThen_of_ok {k : Bool → State → Res α} {b : Bool} (hb : b = true ↔ Triggered s.cfg w)
    (h : s.oracle = { o with tx := .ok :: o.tx, rx := .ok [w.1, w.2] :: o.rx }) :
    (readSwitch s).andThen k = k b (s.afterIo (switchEvents s.address w) (statusRequest s.address) o) := by
  have reading : decodeLimitSwitch s.cfg [w.1, w.2] = b :=
    Bool.eq_iff_iff.2 ((Proofs.limitSwitchMatchesPatterns s.cfg w).trans hb.symm)
  rw [readSwitch_scripted h, reading]
  rfl

theorem readSwitch_andThen_of_err {k : Bool → State → Res α} (hf : f.Fits 2)
    (h : s.oracle = { o with tx := f.tx ++ o.tx, rx := f.rx ++ o.rx }) :
    (readSwitch s).andThen k
      = .raise f.error
          (s.afterIo (f.events (statusRequest s.address) 2) (f.bytes (statusRequest s.address)) o) := by
  rw [readSwitch_scripted_err hf h]
  rfl

end Sys2Proof.Machine
end

section
/-! One attempt of `go_home`'s loop (R214–R216) on a scripted oracle. An entry of the loop is its first
turn from Homing with no attempt counted, so it is the step of a state in the loop. -/

namespace Sys2Proof.Machine

variable {s : State} {o : Oracle} {prev : Phase} {recovering : Bool} {p : Int} {t : Reading}

/-- The operation that the `go_home` body runs in (R208). -/
def homingOperation (recovering : Bool) : Instr := if recovering then .calibrate else .goHome

/-- The state that the entry of the `go_home` body takes its loop's first turn from (R214). -/
def State.startHoming (prev : Phase) (recovering : Bool) (s : State) : State :=
  { s with phase := .homing, attempts := 0, running := some (.homing prev recovering) }

/-- The state after an attempt that reads `p` back. -/
def State.attempted (p : Int) (o : Oracle) (s : State) : State :=
  { s.afterIo (attemptEvents s.address (toS32 s.homeOffset) p)
      (sentBytes (attemptEvents s.address (toS32 s.homeOffset) p)) o with attempts := s.attempts + 1 }

theorem isController_homingOperation : (homingOperation recovering).isController = true := by
  cases recovering <;> rfl

theorem sentBytes_attemptEvents (a : Option Addr) (home p : Int) :
    sentBytes (attemptEvents a home p) = targetFrame a home ++ positionRequest a := by
  simp [attemptEvents, positionEvents, sentBytes]

/-- The read-back decides whether the loop ends (R214). -/
theorem homeTurn_of_answer (hc : s.cfg.goHomeMaxAttempts ≠ some s.attempts) (hp : InInt32 p)
    (h : s.oracle = { o with tx := .ok :: .ok :: o.tx, rx := .ok (le4 p) :: o.rx }) :
    homeTurn prev recovering s
      = if p = toS32 s.homeOffset then endHoming prev recovering .reached (s.attempted p o)
        else .ok .going (s.attempted p o) := by
  rw [homeTurn, if_neg hc,
    setTarget_andThen_of_ok (o := { o with tx := .ok :: o.tx, rx := .ok (le4 p) :: o.rx }) (inInt32_toS32 _) h,
    readPosition_andThen_of_ok (o := o) hp rfl, afterIo_afterIo, State.attempted, sentBytes_attemptEvents]
  rfl

theorem homeTurn_of_failure {f : AttemptFailure} (hf : f.Fits) (hc : s.cfg.goHomeMaxAttempts ≠ some s.attempts)
    (h : s.oracle = { o with tx := f.tx ++ o.tx, rx := f.rx ++ o.rx }) :
    homeTurn prev recovering s
      = .raise f.error
          (s.afterIo (f.events s.address (toS32 s.homeOffset)) (f.bytes s.address (toS32 s.homeOffset)) o) := by
  rw [homeTurn, if_neg hc]
  cases f with
  | command n => exact setTarget_andThen_of_err (inInt32_toS32 _) h
  | readBack f =>
    rw [setTarget_andThen_of_ok (o := { o with tx := f.tx ++ o.tx, rx := f.rx ++ o.rx }) (inInt32_toS32 _) h,
      readPosition_andThen_of_err (o := o) hf rfl, afterIo_afterIo]
    rfl

/-! ### The turn as a step -/

theorem step_homing (hr : s.running = some (.homing prev recovering)) :
    step s = .next (settle (homingOperation recovering) (homeTurn prev recovering s)) := step_of_running hr

/-- At the cap the loop ends with no further frame (R215). -/
theorem step_homing_of_cap (hr : s.running = some (.homing prev recovering))
    (hc : s.cfg.goHomeMaxAttempts = some s.attempts) :
    step s
      = .next
          (ended (homingOperation recovering) prev [] [] (.ok (homeValue recovering .homingFailed)) s.oracle s) := by
  rw [step_homing hr, homeTurn, if_pos hc]
  simp [endHoming, leave, State.log, ended]

/-- An attempt whose read-back is answered: it ends the operation exactly if it gives home (R214). -/
theorem step_homing_of_answer (hr : s.running = some (.homing prev recovering))
    (hc : s.cfg.goHomeMaxAttempts ≠ some s.attempts) (hp : InInt32 p)
    (h : s.oracle = { o with tx := .ok :: .ok :: o.tx, rx := .ok (le4 p) :: o.rx }) :
    step s
      = .next (if p = toS32 s.homeOffset then
          { ended (homingOperation recovering) prev (attemptEvents s.address (toS32 s.homeOffset) p)
              (sentBytes (attemptEvents s.address (toS32 s.homeOffset) p)) (.ok (homeValue recovering .reached)) o s
            with attempts := s.attempts + 1 }
        else s.attempted p o) := by
  rw [step_homing hr, homeTurn_of_answer hc hp h, apply_ite (settle _)]
  rfl

theorem step_homing_of_home (hr : s.running = some (.homing prev recovering))
    (hc : s.cfg.goHomeMaxAttempts ≠ some s.attempts)
    (h : s.oracle = { o with tx := .ok :: .ok :: o.tx, rx := .ok (le4 (toS32 s.homeOffset)) :: o.rx }) :
    step s
      = .next
          { ended (homingOperation recovering) prev
              (attemptEvents s.address (toS32 s.homeOffset) (toS32 s.homeOffset))
              (sentBytes (attemptEvents s.address (toS32 s.homeOffset) (toS32 s.homeOffset)))
              (.ok (homeValue recovering .reached)) o s with attempts := s.attempts + 1 } :=
  (step_homing_of_answer hr hc (inInt32_toS32 _) h).trans (congrArg _ (if_pos rfl))

theorem step_homing_of_failure {f : AttemptFailure} (hf : f.Fits) (hr : s.running = some (.homing prev recovering))
    (hc : s.cfg.goHomeMaxAttempts ≠ some s.attempts)
    (h : s.oracle = { o with tx := f.tx ++ o.tx, rx := f.rx ++ o.rx }) :
    step s
      = .next (ended (homingOperation recovering) .idle (f.events s.address (toS32 s.homeOffset))
          (f.bytes s.address (toS32 s.homeOffset)) (.error f.error) o s) := by
  rw [step_homing hr, homeTurn_of_failure hf hc h, settle_raise_controller isController_homingOperation]

/-! ### The entries of the loop -/

theorem exec_goHome_of_ready (hs : Ready s) :
    exec .goHome s = step ((enter .goHome s).startHoming s.phase false) := by
  rw [step_homing (s := (enter .goHome s).startHoming s.phase false) rfl]
  exact invoke_of_ready hs

/-- With `AUTO_RECOVER` the `go_home` body follows a time-out, to come back to phase TimedOut (R208). -/
theorem timedOutAction_of_recover (hrec : s.cfg.autoRecover = true) :
    timedOutAction s = homeTurn .timedOut true (s.startHoming .timedOut true) := if_pos hrec

end Sys2Proof.Machine
end

section
/-! The entry of `calibrate` and one turn of its probing loop on a scripted oracle: which action a turn takes, and how
each action ends. -/

namespace Sys2Proof.Machine

variable {s : State} {o : Oracle} {p : Int} {t t0 : Reading} {w : Byte × Byte} {b : Bool} {n : Nat} {f : ReadFailure}

/-! ### The Found action (R207) -/

theorem settle_foundAction (hp : InInt32 p) (hq : InInt32 (p + s.cfg.calOffset))
    (h : s.oracle = { o with tx := .ok :: .ok :: o.tx, rx := .ok (le4 p) :: o.rx }) :
    settle .calibrate (foundAction s)
      = { ended .calibrate .found (foundEvents s.address s.cfg p) (sentBytes (foundEvents s.address s.cfg p))
            (.ok .found) o s with homeOffset := toU32 (p + s.cfg.calOffset) } := by
  rw [foundAction_scripted hp hq h]
  rfl

theorem settle_foundAction_of_read_err (hf : f.Fits 4)
    (h : s.oracle = { o with tx := f.tx ++ o.tx, rx := f.rx ++ o.rx }) :
    settle .calibrate (foundAction s)
      = ended .calibrate .idle (f.events (positionRequest s.address) 4) (f.bytes (positionRequest s.address))
          (.error f.error) o s := by
  rw [foundAction, readPosition_andThen_of_err (s := { s with phase := .found }) hf h, settle_raise_controller rfl]
  rfl

theorem settle_foundAction_of_outOfRange (hp : InInt32 p) (hq : ¬ InInt32 (p + s.cfg.calOffset))
    (h : s.oracle = { o with tx := .ok :: o.tx, rx := .ok (le4 p) :: o.rx }) :
    settle .calibrate (foundAction s)
      = ended .calibrate .idle (positionEvents s.address p) (positionRequest s.address)
          (.error (.encoding .outOfRange)) o s := by
  rw [foundAction, readPosition_andThen_of_ok (s := { s with phase := .found }) hp h]
  refine (congrArg _ (setTarget_andThen_of_outOfRange hq)).trans ?_
  rw [settle_raise_controller rfl, ended_afterIo, List.append_nil, List.append_nil]
  rfl

theorem settle_foundAction_of_target_err (hp : InInt32 p) (hq : InInt32 (p + s.cfg.calOffset))
    (h : s.oracle = { o with tx := .ok :: .err n :: o.tx, rx := .ok (le4 p) :: o.rx }) :
    settle .calibrate (foundAction s)
      = ended .calibrate .idle
          (positionEvents s.address p ++ [.tx (targetFrame s.address (p + s.cfg.calOffset)) .err])
          (positionRequest s.address ++ (targetFrame s.address (p + s.cfg.calOffset)).take n)
          (.error .transport) o s := by
  rw [foundAction, readPosition_andThen_of_ok (s := { s with phase := .found })
    (o := { o with tx := .err n :: o.tx }) hp h]
  refine (congrArg _ (setTarget_andThen_of_err (o := o) hq rfl)).trans ?_
  rw [settle_raise_controller rfl, ended_afterIo]
  rfl

/-! ### The poll (R204) -/

/-- The state after a poll that reads the switch as `b`. -/
def State.polled (q : PollAnswers) (b : Bool) (o : Oracle) (s : State) : State :=
  { s.afterIo (pollEvents s.address s.cfg q) (sentBytes (pollEvents s.address s.cfg q)) o with
    pos := toU32 q.position, trig := b }

theorem settle_poll_of_read_err (hf : f.Fits 4)
    (h : s.oracle = { o with tx := f.tx ++ o.tx, rx := f.rx ++ o.rx }) :
    settle .calibrate (poll s)
      = ended .calibrate .idle (f.events (positionRequest s.address) 4) (f.bytes (positionRequest s.address))
          (.error f.error) o s := by
  rw [poll, readPosition_andThen_of_err hf h, settle_raise_controller rfl]

/-- After its position read a poll stores the position and commands it less STEP_SIZE. -/
theorem poll_of_position (hp : InInt32 p) (h : s.oracle = { o with tx := .ok :: o.tx, rx := .ok (le4 p) :: o.rx }) :
    poll s
      = (setTargetBody (p - s.cfg.stepSize)
          ({ s with pos := toU32 p }.afterIo (positionEvents s.address p) (positionRequest s.address) o)).andThen
          fun _ u => (readSwitch (sleep u.cfg.pollSettle u)).andThen fun b u => .ok .going (setTrig b u) := by
  rw [poll, readPosition_andThen_of_ok hp h]
  rfl

theorem settle_poll_of_outOfRange (hp : InInt32 p) (hq : ¬ InInt32 (p - s.cfg.stepSize))
    (h : s.oracle = { o with tx := .ok :: o.tx, rx := .ok (le4 p) :: o.rx }) :
    settle .calibrate (poll s)
      = { ended .calibrate .idle (positionEvents s.address p) (positionRequest s.address)
            (.error (.encoding .outOfRange)) o s with pos := toU32 p } := by
  rw [poll_of_position hp h, setTarget_andThen_of_outOfRange hq, settle_raise_controller rfl, ended_afterIo,
    List.append_nil, List.append_nil]
  rfl

theorem settle_poll_of_target_err (hp : InInt32 p) (hq : InInt32 (p - s.cfg.stepSize))
    (h : s.oracle = { o with tx := .ok :: .err n :: o.tx, rx := .ok (le4 p) :: o.rx }) :
    settle .calibrate (poll s)
      = { ended .calibrate .idle
            (positionEvents s.address p ++ [.tx (targetFrame s.address (p - s.cfg.stepSize)) .err])
            (positionRequest s.address ++ (targetFrame s.address (p - s.cfg.stepSize)).take n)
            (.error .transport) o s with pos := toU32 p } := by
  rw [poll_of_position (o := { o with tx := .err n :: o.tx }) hp h, setTarget_andThen_of_err (o := o) hq rfl,
    settle_raise_controller rfl, ended_afterIo]
  rfl

/-- After the settle only the switch read is left. -/
theorem poll_of_target (hp : InInt32 p) (hq : InInt32 (p - s.cfg.stepSize))
    (h : s.oracle = { o with tx := .ok :: .ok :: o.tx, rx := .ok (le4 p) :: o.rx }) :
    poll s
      = (readSwitch ({ s with pos := toU32 p }.afterIo
          (positionEvents s.address p
            ++ [Event.tx (targetFrame s.address (p - s.cfg.stepSize)) .ok, .sleep s.cfg.pollSettle])
          (positionRequest s.address ++ targetFrame s.address (p - s.cfg.stepSize)) o)).andThen
          fun b u => .ok .going (setTrig b u) := by
  rw [poll_of_position (o := { o with tx := .ok :: o.tx }) hp h, setTarget_andThen_of_ok (o := o) hq rfl,
    sleep_eq_afterIo, afterIo_afterIo, afterIo_afterIo, List.append_nil]
  rfl

theorem settle_poll_of_switch_err (hp : InInt32 p) (hq : InInt32 (p - s.cfg.stepSize)) (hf : f.Fits 2)
    (h : s.oracle = { o with tx := .ok :: .ok :: (f.tx ++ o.tx), rx := .ok (le4 p) :: (f.rx ++ o.rx) }) :
    settle .calibrate (poll s)
      = { ended .calibrate .idle
            (positionEvents s.address p
              ++ [.tx (targetFrame s.address (p - s.cfg.stepSize)) .ok, .sleep s.cfg.pollSettle]
              ++ f.events (statusRequest s.address) 2)
            (positionRequest s.address ++ targetFrame s.address (p - s.cfg.stepSize)
              ++ f.bytes (statusRequest s.address)) (.error f.error) o s with pos := toU32 p } := by
  rw [poll_of_target (o := { o with tx := f.tx ++ o.tx, rx := f.rx ++ o.rx }) hp hq h,
    readSwitch_andThen_of_err (o := o) hf rfl, settle_raise_controller rfl, ended_afterIo]
  rfl

theorem settle_poll (hp : InInt32 p) (hq : InInt32 (p - s.cfg.stepSize)) (hb : b = true ↔ Triggered s.cfg w)
    (h : s.oracle
      = { o with tx := .ok :: .ok :: .ok :: o.tx, rx := .ok (le4 p) :: .ok [w.1, w.2] :: o.rx }) :
    settle .calibrate (poll s)
      = { s.afterIo
            (positionEvents s.address p
              ++ [.tx (targetFrame s.address (p - s.cfg.stepSize)) .ok, .sleep s.cfg.pollSettle]
              ++ switchEvents s.address w)
            (positionRequest s.address ++ targetFrame s.address (p - s.cfg.stepSize) ++ statusRequest s.address) o with
          pos := toU32 p, trig := b } := by
  rw [poll_of_target (o := { o with tx := .ok :: o.tx, rx := .ok [w.1, w.2] :: o.rx }) hp hq h,
    readSwitch_andThen_of_ok (s := State.afterIo _ _ _ { s with pos := _ }) (o := o) hb rfl, afterIo_afterIo]
  rfl

theorem sentBytes_pollEvents (a : Option Addr) (cfg : Config) (q : PollAnswers) :
    sentBytes (pollEvents a cfg q)
      = positionRequest a ++ targetFrame a (q.position - cfg.stepSize) ++ statusRequest a := by
  simp [pollEvents, positionEvents, switchEvents, sentBytes]

/-! ### The turn of the probing loop (R205, R206) -/

theorem step_probing (hr : s.running = some .probing) (ht : 0 ≤ t.value)
    (h : s.oracle = { o with clock := t :: o.clock }) :
    step s
      = .next (settle .calibrate
          (if elapsedWithin t s.t0 s.cfg.calTimeLimit = true ∧ s.trig = false then poll (s.afterIo [.now t] [] o)
            else if s.trig then foundAction (s.afterIo [.now t] [] o)
            else timedOutAction (s.afterIo [.now t] [] o))) := by
  rw [step_of_running hr, resume, probeTurn, now_of_script h ht]
  rfl

theorem step_probing_of_inBudget (hr : s.running = some .probing) (htrig : s.trig = false)
    (hin : t.value - s.t0.value ≤ s.cfg.calTimeLimit) (ht : 0 ≤ t.value)
    (h : s.oracle = { o with clock := t :: o.clock }) :
    step s = .next (settle .calibrate (poll (s.afterIo [.now t] [] o))) := by
  rw [step_probing hr ht h, if_pos ⟨(elapsedWithin_iff ..).2 hin, htrig⟩]

/-- The last reading decides, whatever the clock says (R206). -/
theorem step_probing_of_triggered (hr : s.running = some .probing) (htrig : s.trig = true) (ht : 0 ≤ t.value)
    (h : s.oracle = { o with clock := t :: o.clock }) :
    step s = .next (settle .calibrate (foundAction (s.afterIo [.now t] [] o))) := by
  rw [step_probing hr ht h, if_neg (by simp [htrig]), if_pos htrig]

theorem step_probing_of_late (hr : s.running = some .probing) (htrig : s.trig = false)
    (hlate : s.cfg.calTimeLimit < t.value - s.t0.value) (ht : 0 ≤ t.value)
    (h : s.oracle = { o with clock := t :: o.clock }) :
    step s = .next (settle .calibrate (timedOutAction (s.afterIo [.now t] [] o))) := by
  have late : elapsedWithin t s.t0 s.cfg.calTimeLimit = false := (elapsedWithin_eq_false_iff ..).2 hlate
  rw [step_probing hr ht h, if_neg (by simp [late]), if_neg (by simp [htrig])]

theorem step_probing_of_poll {q : PollAnswers} (hr : s.running = some .probing) (htrig : s.trig = false)
    (hin : q.time.value - s.t0.value ≤ s.cfg.calTimeLimit) (ht : 0 ≤ q.time.value) (hp : InInt32 q.position)
    (hq : InInt32 (q.position - s.cfg.stepSize)) (hb : b = true ↔ Triggered s.cfg q.word)
    (h : s.oracle
      = { o with
          clock := q.time :: o.clock, tx := .ok :: .ok :: .ok :: o.tx,
          rx := .ok (le4 q.position) :: .ok [q.word.1, q.word.2] :: o.rx }) :
    step s = .next (s.polled q b o) := by
  rw [step_probing_of_inBudget hr htrig hin ht
      (o := { o with
                tx := .ok :: .ok :: .ok :: o.tx
                rx := .ok (le4 q.position) :: .ok [q.word.1, q.word.2] :: o.rx }) h,
    settle_poll (s := s.afterIo _ _ _) (o := o) hp hq hb rfl, afterIo_afterIo, State.polled, sentBytes_pollEvents]
  rfl

/-- A turn that finds the switch triggered and whose Found action succeeds. -/
theorem step_probing_of_found (hr : s.running = some .probing) (htrig : s.trig = true) (ht : 0 ≤ t.value)
    (hp : InInt32 p) (hq : InInt32 (p + s.cfg.calOffset))
    (h : s.oracle = { o with clock := t :: o.clock, tx := .ok :: .ok :: o.tx, rx := .ok (le4 p) :: o.rx }) :
    step s
      = .next
          { ended .calibrate .found (.now t :: foundEvents s.address s.cfg p)
              (sentBytes (foundEvents s.address s.cfg p)) (.ok .found) o s with
            homeOffset := toU32 (p + s.cfg.calOffset) } := by
  rw [step_probing_of_triggered (o := { o with tx := .ok :: .ok :: o.tx, rx := .ok (le4 p) :: o.rx }) hr htrig ht h,
    settle_foundAction (s := State.afterIo _ _ _ _) (o := o) hp hq rfl, ended_afterIo]
  rfl

/-- A time-out without a recovery (R208). -/
theorem step_probing_of_timedOut (hr : s.running = some .probing) (htrig : s.trig = false)
    (hlate : s.cfg.calTimeLimit < t.value - s.t0.value) (hrec : s.cfg.autoRecover = false) (ht : 0 ≤ t.value)
    (h : s.oracle = { o with clock := t :: o.clock }) :
    step s = .next (ended .calibrate .timedOut [.now t] [] (.ok (.timedOut none)) o s) := by
  rw [step_probing_of_late hr htrig hlate ht h, timedOutAction, if_neg (by simp [hrec])]
  rfl

/-- A time-out with a recovery goes on as the `go_home` body (R208). -/
theorem step_probing_of_recovery (hr : s.running = some .probing) (htrig : s.trig = false)
    (hlate : s.cfg.calTimeLimit < t.value - s.t0.value) (hrec : s.cfg.autoRecover = true) (ht : 0 ≤ t.value)
    (h : s.oracle = { o with clock := t :: o.clock }) :
    step s = step ((s.afterIo [.now t] [] o).startHoming .timedOut true) := by
  rw [step_probing_of_late hr htrig hlate ht h, timedOutAction_of_recover (s := State.afterIo _ _ _ _) hrec,
    step_homing rfl]
  rfl

/-! ### The entry of `calibrate` (R202, R203) -/

/-- The state in which the entry has its first reading `b` of the switch. -/
def State.entered (t0 : Reading) (w : Byte × Byte) (b : Bool) (o : Oracle) (s : State) : State :=
  { s with busy := true, phase := .probing, t0 := t0, trig := b }.afterIo
    (.call .calibrate :: entryEvents s.address t0 w) (sentBytes (entryEvents s.address t0 w)) o

theorem exec_calibrate_of_time (hs : Ready s) (ht : 0 ≤ t0.value) (h : s.oracle = { o with clock := t0 :: o.clock }) :
    exec .calibrate s
      = .next (settle .calibrate
          ((tx (frameOf s.address 0x83 [])
              ({ s with busy := true, t0 := t0, phase := .probing }.afterIo [.call .calibrate, .now t0] [] o)).andThen
            fun _ u => (readSwitch u).andThen fun b u =>
              if (setTrig b u).trig then foundAction (setTrig b u)
              else .ok .going { setTrig b u with running := some .probing })) := by
  have entry : now (enter .calibrate s)
      = (t0, { s with busy := true }.afterIo [.call .calibrate, .now t0] [] o) := by
    rw [now_of_script (s := enter .calibrate s) h ht]
    simp [State.afterIo, enter, State.log]
  refine (invoke_of_ready hs).trans ?_
  rw [calibrateStart, entry]
  simp only [exitSafeStartBody, send_eq]
  rfl

theorem exec_calibrate_of_exit_err (hs : Ready s) (ht : 0 ≤ t0.value)
    (h : s.oracle = { o with clock := t0 :: o.clock, tx := .err n :: o.tx }) :
    exec .calibrate s
      = .next
          { ended .calibrate .idle [.call .calibrate, .now t0, .tx (frameOf s.address 0x83 []) .err]
              ((frameOf s.address 0x83 []).take n) (.error .transport) o s with t0 := t0 } := by
  rw [exec_calibrate_of_time (o := { o with tx := .err n :: o.tx }) hs ht h, tx_andThen_of_err (o := o) rfl,
    settle_raise_controller rfl, ended_afterIo]
  rfl

/-- With exit_safe_start written, the first switch read is left (R202). -/
theorem exec_calibrate_of_exit (hs : Ready s) (ht : 0 ≤ t0.value)
    (h : s.oracle = { o with clock := t0 :: o.clock, tx := .ok :: o.tx }) :
    exec .calibrate s
      = .next (settle .calibrate
          ((readSwitch ({ s with busy := true, t0 := t0, phase := .probing }.afterIo
              [.call .calibrate, .now t0, .tx (frameOf s.address 0x83 []) .ok] (frameOf s.address 0x83 []) o)).andThen
            fun b u =>
              if (setTrig b u).trig then foundAction (setTrig b u)
              else .ok .going { setTrig b u with running := some .probing })) := by
  rw [exec_calibrate_of_time (o := { o with tx := .ok :: o.tx }) hs ht h, tx_andThen_of_ok (o := o) rfl,
    afterIo_afterIo]
  rfl

theorem exec_calibrate_of_switch_err (hs : Ready s) (ht : 0 ≤ t0.value) (hf : f.Fits 2)
    (h : s.oracle = { o with clock := t0 :: o.clock, tx := .ok :: (f.tx ++ o.tx), rx := f.rx ++ o.rx }) :
    exec .calibrate s
      = .next
          { ended .calibrate .idle
              ([.call .calibrate, .now t0, .tx (frameOf s.address 0x83 []) .ok] ++ f.events (statusRequest s.address) 2)
              (frameOf s.address 0x83 [] ++ f.bytes (statusRequest s.address)) (.error f.error) o s with
            t0 := t0 } := by
  rw [exec_calibrate_of_exit (o := { o with tx := f.tx ++ o.tx, rx := f.rx ++ o.rx }) hs ht h,
    readSwitch_andThen_of_err (o := o) hf rfl, settle_raise_controller rfl, ended_afterIo]
  rfl

/-- The first reading sends `calibrate` to Found or into its loop. -/
theorem exec_calibrate_of_reading (hs : Ready s) (ht : 0 ≤ t0.value) (hb : b = true ↔ Triggered s.cfg w)
    (h : s.oracle = { o with clock := t0 :: o.clock, tx := .ok :: .ok :: o.tx, rx := .ok [w.1, w.2] :: o.rx }) :
    exec .calibrate s
      = .next (settle .calibrate
          (if b then foundAction (s.entered t0 w b o)
            else .ok .going { s.entered t0 w b o with running := some .probing })) := by
  have reading : setTrig b
      (({ s with busy := true, t0 := t0, phase := .probing }.afterIo
          [.call .calibrate, .now t0, .tx (frameOf s.address 0x83 []) .ok] (frameOf s.address 0x83 [])
          { o with tx := .ok :: o.tx, rx := .ok [w.1, w.2] :: o.rx }).afterIo
        (switchEvents s.address w) (statusRequest s.address) o) = s.entered t0 w b o := by
    simp [setTrig, State.afterIo, State.entered, entryEvents, switchEvents, sentBytes]
  rw [exec_calibrate_of_exit (o := { o with tx := .ok :: o.tx, rx := .ok [w.1, w.2] :: o.rx }) hs ht h,
    readSwitch_andThen_of_ok (s := State.afterIo _ _ _ { s with busy := true, t0 := t0, phase := .probing }) (o := o)
      hb rfl]
  exact congrArg (fun u => Host.Outcome.next (settle .calibrate
    (if u.trig then foundAction u else .ok .going { u with running := some .probing }))) reading

theorem exec_calibrate_of_triggered (hs : Ready s) (ht : 0 ≤ t0.value) (hw : Triggered s.cfg w)
    (h : s.oracle = { o with clock := t0 :: o.clock, tx := .ok :: .ok :: o.tx, rx := .ok [w.1, w.2] :: o.rx }) :
    exec .calibrate s = .next (settle .calibrate (foundAction (s.entered t0 w true o))) :=
  exec_calibrate_of_reading hs ht (iff_of_true rfl hw) h

theorem exec_calibrate_of_quiet (hs : Ready s) (ht : 0 ≤ t0.value) (hw : ¬ Triggered s.cfg w)
    (h : s.oracle = { o with clock := t0 :: o.clock, tx := .ok :: .ok :: o.tx, rx := .ok [w.1, w.2] :: o.rx }) :
    exec .calibrate s = .next { s.entered t0 w false o with running := some .probing } :=
  exec_calibrate_of_reading hs ht (iff_of_false Bool.false_ne_true hw) h

end Sys2Proof.Machine
end

section
/-! Runs of `go_home`'s loop: attempts that read a wrong position, and what ends the loop after them. -/

namespace Sys2Proof.Machine

variable {s s' t : State} {o : Oracle} {prev ph : Phase} {recovering : Bool} {r : Result} {wrong : List Int} {n : Nat}
  {later : List Request} {op : Instr} {evs : List Event} {bytes : List Byte}

/-- What the oracles answer to attempts that read these positions back. -/
def attemptAnswers (positions : List Int) (o : Oracle) : Oracle :=
  { o with
    tx := List.replicate (2 * positions.length) .ok ++ o.tx
    rx := positions.map (fun p => .ok (le4 p)) ++ o.rx }

/-- The state after attempts that read these positions back. -/
def State.attemptedAll (positions : List Int) (o : Oracle) (s : State) : State :=
  { s.afterIo (positions.flatMap (attemptEvents s.address (toS32 s.homeOffset)))
      (sentBytes (positions.flatMap (attemptEvents s.address (toS32 s.homeOffset)))) o with
    attempts := s.attempts + positions.length }

theorem attemptAnswers_cons (p : Int) (ps : List Int) :
    attemptAnswers (p :: ps) o
      = { attemptAnswers ps o with
          tx := .ok :: .ok :: (attemptAnswers ps o).tx, rx := .ok (le4 p) :: (attemptAnswers ps o).rx } := rfl

theorem attemptAnswers_append (ps qs : List Int) :
    attemptAnswers (ps ++ qs) o = attemptAnswers ps (attemptAnswers qs o) := by
  induction ps with
  | nil => rfl
  | cons p ps ih => simp only [List.cons_append, attemptAnswers_cons, ih]

theorem attemptAnswers_concat (ps : List Int) (p : Int) :
    attemptAnswers (ps ++ [p]) o
      = { o with
          tx := List.replicate (2 * (ps.length + 1)) .ok ++ o.tx
          rx := (ps ++ [p]).map (fun p => .ok (le4 p)) ++ o.rx } := by
  simp [attemptAnswers]

theorem attemptedAll_nil : s.attemptedAll [] s.oracle = s := by simp [State.attemptedAll, State.afterIo, sentBytes]

theorem attempted_attemptedAll (p : Int) (ps : List Int) (o' : Oracle) :
    (s.attempted p o').attemptedAll ps o = s.attemptedAll (p :: ps) o := by
  simp [State.attemptedAll, State.attempted, State.afterIo, Nat.add_assoc, Nat.add_comm 1]

/-- Below the cap, wrong reads keep the loop going. -/
theorem runSteps_homing_of_wrong (hr : s.running = some (.homing prev recovering))
    (hw : ∀ p ∈ wrong, InInt32 p ∧ p ≠ toS32 s.homeOffset)
    (hcap : ∀ n, s.cfg.goHomeMaxAttempts = some n → s.attempts + wrong.length ≤ n)
    (h : s.oracle = attemptAnswers wrong o) : runSteps wrong.length s = .next (s.attemptedAll wrong o) := by
  induction wrong generalizing s with
  | nil =>
    obtain rfl : s.oracle = o := h
    exact congrArg _ attemptedAll_nil.symm
  | cons p ps ih =>
    obtain ⟨⟨hp, hne⟩, hps⟩ := List.forall_mem_cons.1 hw
    have below : s.cfg.goHomeMaxAttempts ≠ some s.attempts := fun hc => absurd (hcap _ hc) (by simp)
    rw [List.length_cons,
      runSteps_succ ((step_homing_of_answer (o := attemptAnswers ps o) hr below hp h).trans
        (congrArg _ (if_neg hne))),
      ih (s := s.attempted p (attemptAnswers ps o)) hr hps (fun n hn => ?cap) rfl, attempted_attemptedAll]
    case cap =>
      show s.attempts + 1 + ps.length ≤ n
      have := hcap n hn
      rw [List.length_cons] at this
      omega

/-- After wrong reads below the cap, a read that gives home ends the loop with Reached (R218). -/
theorem runSteps_startHoming_of_home (hw : ∀ p ∈ wrong, InInt32 p ∧ p ≠ toS32 s.homeOffset)
    (hcap : ∀ n, s.cfg.goHomeMaxAttempts = some n → wrong.length + 1 ≤ n)
    (h : s.oracle = attemptAnswers (wrong ++ [toS32 s.homeOffset]) o) :
    runSteps (wrong.length + 1) (s.startHoming prev recovering)
      = .next
          { ended (homingOperation recovering) prev
              ((wrong ++ [toS32 s.homeOffset]).flatMap (attemptEvents s.address (toS32 s.homeOffset)))
              (sentBytes ((wrong ++ [toS32 s.homeOffset]).flatMap (attemptEvents s.address (toS32 s.homeOffset))))
              (.ok (homeValue recovering .reached)) o s with attempts := wrong.length + 1 } := by
  have tries := runSteps_homing_of_wrong (s := s.startHoming prev recovering) rfl hw
    (fun n hn => (Nat.zero_add _).symm ▸ Nat.le_of_succ_le (hcap n hn)) (h.trans (attemptAnswers_append ..))
  have below : s.cfg.goHomeMaxAttempts ≠ some (0 + wrong.length) := fun hc => absurd (hcap _ hc) (by omega)
  rw [runSteps_add tries,
    runSteps_succ (step_homing_of_home (s := State.attemptedAll wrong _ (s.startHoming prev recovering)) (o := o)
      rfl below rfl)]
  simp [runSteps, ended, State.attemptedAll, State.afterIo, State.startHoming]

/-- At the cap, wrong reads end the loop with HomingFailed (R215). -/
theorem runSteps_startHoming_of_cap (hw : ∀ p ∈ wrong, InInt32 p ∧ p ≠ toS32 s.homeOffset)
    (hcap : s.cfg.goHomeMaxAttempts = some wrong.length) (h : s.oracle = attemptAnswers wrong o) :
    runSteps (wrong.length + 1) (s.startHoming prev recovering)
      = .next
          { ended (homingOperation recovering) prev
              (wrong.flatMap (attemptEvents s.address (toS32 s.homeOffset)))
              (sentBytes (wrong.flatMap (attemptEvents s.address (toS32 s.homeOffset))))
              (.ok (homeValue recovering .homingFailed)) o s with attempts := wrong.length } := by
  have tries := runSteps_homing_of_wrong (s := s.startHoming prev recovering) rfl hw
    (fun n hn => (Nat.zero_add _).symm ▸ (Option.some.inj (hcap.symm.trans hn)).le) h
  have spent : s.cfg.goHomeMaxAttempts = some (0 + wrong.length) := (Nat.zero_add _).symm ▸ hcap
  rw [runSteps_add tries,
    runSteps_succ (step_homing_of_cap (s := State.attemptedAll wrong _ (s.startHoming prev recovering)) rfl spent)]
  simp [runSteps, ended, State.attemptedAll, State.afterIo, State.startHoming]

/-- Runs that begin with the same step are the same. -/
theorem runSteps_of_step_eq (h : step s = step s') : runSteps (n + 1) s = runSteps (n + 1) s' := by
  simp only [runSteps, h]

/-- The invocation of `go_home` by the host is its loop's first turn. -/
theorem step_goHome_request (hs : Ready s) (hr : s.running = none) (hq : s.requests = .call .goHome :: later) :
    step s = step ((enter .goHome { s with requests := later }).startHoming s.phase false) :=
  (step_of_request hr hq).trans (exec_goHome_of_ready (s := { s with requests := later }) hs)

/-- The end of `go_home` as the return of an operation: it comes back to the phase it started from. -/
theorem ended_enter_eq_returned :
    ended op s.phase evs bytes r o (enter op s) = returned op evs bytes r o s := ended_enter

end Sys2Proof.Machine

namespace Sys2Proof.Proofs

open Sys2Proof.Machine

/-- Settles O35: the run is that of the loop from the invocation's state, and the last read ends it. -/
theorem goHomeConverges : Obligations.GoHomeConverges := by
  intro s o later wrong hs hr hq hw hcap h
  refine ⟨_, rfl, ?_⟩
  rw [runSteps_of_step_eq (step_goHome_request hs hr hq),
    runSteps_startHoming_of_home (s := enter .goHome { s with requests := later }) hw hcap
      (h.trans (attemptAnswers_concat ..).symm)]
  exact congrArg (fun u : State => Host.Outcome.next { u with attempts := wrong.length + 1 }) ended_enter_eq_returned

/-- Settles O36: the run is that of the loop from the invocation's state, and its cap test ends it. -/
theorem goHomeStopsAtTheCap : Obligations.GoHomeStopsAtTheCap := by
  intro s o later wrong hs hr hq _ hw hcap h
  refine ⟨_, rfl, ?_⟩
  rw [runSteps_of_step_eq (step_goHome_request hs hr hq),
    runSteps_startHoming_of_cap (s := enter .goHome { s with requests := later }) hw hcap h]
  exact congrArg (fun u : State => Host.Outcome.next { u with attempts := wrong.length }) ended_enter_eq_returned

/-- Settles O37: with no cap the wrong reads keep the loop going; the first of them is the invocation's step. -/
theorem uncappedGoHomeKeepsTrying : Obligations.UncappedGoHomeKeepsTrying := by
  intro s o later wrong hs hr hq hne hw hcap h
  refine ⟨_, rfl, ?_⟩
  have tries := runSteps_homing_of_wrong
    (s := (enter .goHome { s with requests := later }).startHoming s.phase false) rfl hw
    (fun n hn => nomatch hcap.symm.trans hn) h
  obtain ⟨p, ps, rfl⟩ := List.exists_cons_of_ne_nil hne
  rw [List.length_cons, runSteps_of_step_eq (step_goHome_request hs hr hq), ← List.length_cons, tries]
  simp [State.attemptedAll, State.afterIo, State.startHoming, enter, State.log]

/-- Settles O38: by the ways a turn of the loop can end; HomingFailed needs a cap. -/
theorem uncappedGoHomeEndsOnlyByReachedOrError : Obligations.UncappedGoHomeEndsOnlyByReachedOrError := by
  intro s t prev recovering hr hcap h
  obtain rfl := Host.Outcome.next.inj ((step_homing hr).symm.trans h)
  match homeTurn prev recovering s, homeTurn_ends prev recovering (admits_true s.address) with
  | .ok .going u, ends =>
    obtain ⟨-, -, hrun, -, hatt, -⟩ := ends
    exact .inl ⟨hrun, hatt⟩
  | .ok (.done v) u, ends =>
    obtain ⟨-, -, -, -, -, -, rfl | ⟨-, hc⟩⟩ := ends
    · exact .inr (.inl rfl)
    · exact nomatch hcap.symm.trans hc
  | .raise e u, _ => exact .inr (.inr ⟨e, abort_result ..⟩)

/-- Settles O54: the timed-out turn is the first turn of the loop, whose run ends by a read or by the cap. -/
theorem recoveryRunsGoHome : Obligations.RecoveryRunsGoHome := by
  intro s o t wrong hr htrig ht hlate hrec hw
  refine ⟨fun hcap h => ⟨_, rfl, ?_⟩, fun _ hcap h => ⟨_, rfl, ?_⟩⟩
  · rw [runSteps_of_step_eq (step_probing_of_recovery (o := attemptAnswers (wrong ++ [toS32 s.homeOffset]) o) hr htrig
        hlate hrec ht (by rw [attemptAnswers_concat]; exact h)),
      runSteps_startHoming_of_home (s := s.afterIo _ _ _) hw hcap rfl, ended_afterIo]
    rfl
  · rw [runSteps_of_step_eq (step_probing_of_recovery (o := attemptAnswers wrong o) hr htrig hlate hrec ht h),
      runSteps_startHoming_of_cap (s := s.afterIo _ _ (attemptAnswers wrong o)) hw hcap rfl, ended_afterIo]
    rfl

/-- Settles O34: the first turn of the loop reads home back. -/
theorem goHomeReachesAtOnce : Obligations.GoHomeReachesAtOnce := by
  intro s o hs hcap h
  rw [exec_goHome_of_ready hs,
    step_homing_of_home (s := (enter .goHome s).startHoming s.phase false) (o := o) rfl hcap h,
    ← sentBytes_attemptEvents]
  exact congrArg (fun u : State => Host.Outcome.next { u with attempts := 1 }) ended_enter_eq_returned

/-- Settles O30: the timed-out turn is the first turn of the loop, and its read-back decides as that of a later turn. -/
theorem timeoutRecovers : Obligations.TimeoutRecovers := by
  refine fun s o => ⟨fun t p hr htrig ht hlate hrec hcap hp h => ?first, fun hr hcap => step_homing_of_cap hr hcap,
    fun p hr hcap hp h => step_homing_of_answer hr hcap hp h⟩
  case first =>
    rw [step_probing_of_recovery (o := { o with tx := .ok :: .ok :: o.tx, rx := .ok (le4 p) :: o.rx }) hr htrig hlate
        hrec ht h,
      step_homing_of_answer (s := State.startHoming .timedOut true (s.afterIo _ _ _)) (o := o) rfl hcap hp rfl]
    refine congrArg Host.Outcome.next (if_congr Iff.rfl ?_ ?_)
    · simp [ended, State.startHoming, State.afterIo, homingOperation, homeValue]
    · simp [State.attempted, State.startHoming, State.afterIo]

/-- Settles O53: an attempt that fails ends the operation it runs in; the entries are the loop's first turn. -/
theorem goHomeAttemptErrors : Obligations.GoHomeAttemptErrors := by
  refine fun s o f hf => ⟨fun hs hcap h => ?_, fun prev recovering hr hcap h => step_homing_of_failure hf hr hcap h,
    fun t hr htrig ht hlate hrec hcap h => ?_⟩
  · rw [exec_goHome_of_ready hs,
      step_homing_of_failure (s := (enter .goHome s).startHoming s.phase false) (o := o) hf rfl hcap h]
    exact congrArg (fun u : State => Host.Outcome.next { u with attempts := 0 }) ended_enter
  · rw [step_probing_of_recovery (o := { o with tx := f.tx ++ o.tx, rx := f.rx ++ o.rx }) hr htrig hlate hrec ht h,
      step_homing_of_failure (s := State.startHoming .timedOut true (s.afterIo _ _ _)) (o := o) hf rfl hcap rfl]
    exact congrArg (fun u : State => Host.Outcome.next { u with attempts := 0 }) ended_afterIo

end Sys2Proof.Proofs
end

section
/-! Runs of `calibrate`: its entry, the polls that find the switch quiet, and the turn that ends it. -/

namespace Sys2Proof.Machine

variable {s : State} {o : Oracle} {t0 : Reading} {w : Byte × Byte} {b : Bool} {polls : List PollAnswers}
  {later : List Request} {ph : Phase} {evs : List Event} {bytes : List Byte} {r : Result}

/-- What the oracles answer to these polls. -/
def pollAnswers (polls : List PollAnswers) (o : Oracle) : Oracle :=
  { o with
    clock := polls.map (·.time) ++ o.clock
    tx := List.replicate (3 * polls.length) .ok ++ o.tx
    rx := polls.flatMap (fun q => [.ok (le4 q.position), .ok [q.word.1, q.word.2]]) ++ o.rx }

theorem pollAnswers_concat (qs : List PollAnswers) (q : PollAnswers) :
    pollAnswers (qs ++ [q]) o
      = pollAnswers qs
          { o with
            clock := q.time :: o.clock, tx := .ok :: .ok :: .ok :: o.tx,
            rx := .ok (le4 q.position) :: .ok [q.word.1, q.word.2] :: o.rx } := by
  simp [pollAnswers, Nat.mul_add, List.replicate_add]

/-- The state in the probing loop after the invocation of `calibrate` and these polls, the last reading being `b`. -/
def State.probed (t0 : Reading) (w : Byte × Byte) (polls : List PollAnswers) (b : Bool) (o : Oracle) (s : State) :
    State :=
  State.afterIo (.call .calibrate :: entryEvents s.address t0 w ++ polls.flatMap (pollEvents s.address s.cfg))
    (sentBytes (entryEvents s.address t0 w ++ polls.flatMap (pollEvents s.address s.cfg))) o
    { s with
      busy := true, running := some .probing, phase := .probing, t0 := t0, trig := b,
      pos := (polls.getLast?.map fun q => toU32 q.position).getD s.pos }

@[simp] theorem probed_address : (s.probed t0 w polls b o).address = s.address := rfl
@[simp] theorem probed_cfg : (s.probed t0 w polls b o).cfg = s.cfg := rfl

theorem entered_eq_probed :
    { s.entered t0 w b o with running := some .probing } = s.probed t0 w [] b o := by
  simp [State.entered, State.probed, State.afterIo]

theorem probed_polled {o' : Oracle} {b' : Bool} (q : PollAnswers) :
    (s.probed t0 w polls b' o').polled q b o = s.probed t0 w (polls ++ [q]) b o := by
  simp [State.polled, State.probed, State.afterIo]

/-- The host's invocation of `calibrate`, and then quiet polls within the budget, end in the probing loop (R202,
R205). -/
theorem runSteps_calibrate_of_quiet (hs : Ready s) (hr : s.running = none)
    (hreq : s.requests = .call .calibrate :: later) (ht : 0 ≤ t0.value) (hw : ¬ Triggered s.cfg w)
    (hq : ∀ q ∈ polls, QuietPoll s.cfg t0 q)
    (h : s.oracle
      = { pollAnswers polls o with
          clock := t0 :: (pollAnswers polls o).clock
          tx := .ok :: .ok :: (pollAnswers polls o).tx
          rx := .ok [w.1, w.2] :: (pollAnswers polls o).rx }) :
    runSteps (polls.length + 1) s = .next ({ s with requests := later }.probed t0 w polls false o) := by
  induction polls using List.reverseRecOn generalizing o with
  | nil =>
    refine runSteps_succ ((step_of_request hr hreq).trans ?_)
    rw [← entered_eq_probed]
    exact exec_calibrate_of_quiet (s := { s with requests := later }) hs ht hw h
  | append_singleton qs q ih =>
    obtain ⟨hqs, hlast⟩ := List.forall_mem_append.1 hq
    obtain ⟨hread, hin, hpos, htarget, hword⟩ := hlast q (List.mem_singleton_self q)
    rw [pollAnswers_concat] at h
    rw [List.length_append, Nat.add_right_comm, runSteps_add (ih hqs h), ← probed_polled]
    exact runSteps_succ (step_probing_of_poll (s := State.probed t0 w qs false _ _) (o := o) rfl rfl hin hread hpos
      htarget (iff_of_false Bool.false_ne_true hword) rfl)

/-- The end of `calibrate` in a turn of its own as the return of an operation. -/
theorem ended_probed {o' : Oracle} :
    ended .calibrate ph evs bytes r o (s.probed t0 w polls b o')
      = { returned .calibrate
            (entryEvents s.address t0 w ++ polls.flatMap (pollEvents s.address s.cfg) ++ evs)
            (sentBytes (entryEvents s.address t0 w ++ polls.flatMap (pollEvents s.address s.cfg)) ++ bytes) r o s with
          phase := ph, t0 := t0, trig := b, pos := (polls.getLast?.map fun q => toU32 q.position).getD s.pos } := by
  simp [ended, returned, State.probed, State.afterIo]

end Sys2Proof.Machine

namespace Sys2Proof.Proofs

open Sys2Proof.Machine

/-- Settles O32: the quiet polls, then the turn past the budget. -/
theorem calibrateTimesOut : Obligations.CalibrateTimesOut := by
  intro s o later t0 tEnd w0 polls hs hr hreq ht0 htEnd hw0 hq hlate hrec h
  refine ⟨_, rfl, ?_⟩
  have quiet := runSteps_calibrate_of_quiet (o := { o with clock := tEnd :: o.clock }) hs hr hreq ht0 hw0 hq
    (h.trans (by simp [pollAnswers, List.replicate_succ]))
  rw [runSteps_add (n := 1) quiet, runSteps_succ (step_probing_of_timedOut
    (s := State.probed t0 w0 polls false _ { s with requests := later }) (o := o) rfl rfl hlate hrec htEnd rfl),
    ended_probed]
  simp [runSteps, sentBytes, returned]

/-- Settles O31: the quiet polls, then the one that finds the switch, then the Found action. -/
theorem calibrateFindsTheSwitch : Obligations.CalibrateFindsTheSwitch := by
  intro s o later t0 tEnd w0 quiet last p hs hr hreq ht0 htEnd hw0 hq hread hin hpos htarget hword hp hcal h
  refine ⟨_, rfl, ?_⟩
  have polled := runSteps_calibrate_of_quiet
    (o := { o with
            clock := last.time :: tEnd :: o.clock
            tx := .ok :: .ok :: .ok :: .ok :: .ok :: o.tx
            rx := .ok (le4 last.position) :: .ok [last.word.1, last.word.2] :: .ok (le4 p) :: o.rx })
    hs hr hreq ht0 hw0 hq (h.trans (by
      simp [pollAnswers, show 3 * quiet.length + 7 = 2 + (3 * quiet.length + 5) by omega, List.replicate_add]))
  have found := step_probing_of_poll (b := true)
    (s := State.probed t0 w0 quiet false _ { s with requests := later })
    (o := { o with clock := tEnd :: o.clock, tx := .ok :: .ok :: o.tx, rx := .ok (le4 p) :: o.rx })
    rfl rfl hin hread hpos htarget (iff_of_true rfl hword) rfl
  rw [runSteps_add (n := 2) polled, runSteps_succ found, probed_polled, runSteps_succ (step_probing_of_found
    (s := State.probed t0 w0 (quiet ++ [last]) true _ { s with requests := later }) (o := o) rfl rfl htEnd hp hcal rfl),
    ended_probed]
  simp [runSteps, sentBytes, returned]

/-- Settles O26: the entry's reading leads to the Found action. -/
theorem calibrateImmediateTrigger : Obligations.CalibrateImmediateTrigger := by
  intro s o t0 w p hs ht hw hp hcal h
  rw [exec_calibrate_of_triggered (o := { o with tx := .ok :: .ok :: o.tx, rx := .ok (le4 p) :: o.rx }) hs ht hw h,
    settle_foundAction (s := State.entered t0 w true _ s) (o := o) hp hcal rfl]
  simp [ended, returned, State.entered, State.afterIo]

/-- Settles O27: the entry's reading leads into the loop. -/
theorem calibrateEntersProbing : Obligations.CalibrateEntersProbing :=
  fun _ _ _ _ hs ht hw h => exec_calibrate_of_quiet hs ht hw h

/-- Settles O28: the test is inclusive, so the turn polls; the target's range test decides whether it is written. -/
theorem probePollTurn : Obligations.ProbePollTurn := by
  refine fun s o q b hr htrig ht hin hp => ⟨fun hq hb h => step_probing_of_poll hr htrig hin ht hp hq hb h,
    fun hq h => ?outOfRange⟩
  case outOfRange =>
    rw [step_probing_of_inBudget (o := { o with tx := .ok :: o.tx, rx := .ok (le4 q.position) :: o.rx }) hr htrig hin
        ht h, settle_poll_of_outOfRange (s := s.afterIo _ _ _) (o := o) hp hq rfl, ended_afterIo]
    rfl

/-- Settles O29: a triggered reading leads to the Found action without a look at the clock, a late quiet one to the
time-out. -/
theorem probeExitDecision : Obligations.ProbeExitDecision := by
  refine fun s o t hr ht => ⟨fun p htrig hp hq h => step_probing_of_found hr htrig ht hp hq h,
    fun p htrig hp hq h => ?outOfRange, fun htrig hlate hrec h => step_probing_of_timedOut hr htrig hlate hrec ht h⟩
  case outOfRange =>
    rw [step_probing_of_triggered (o := { o with tx := .ok :: o.tx, rx := .ok (le4 p) :: o.rx }) hr htrig ht h,
      settle_foundAction_of_outOfRange (s := s.afterIo _ _ _) (o := o) hp hq rfl, ended_afterIo]
    rfl

/-- Settles O50: the two things the entry does after the clock is read, each failing. -/
theorem calibrateEntryErrors : Obligations.CalibrateEntryErrors :=
  fun _ _ _ hs ht => ⟨fun _ h => exec_calibrate_of_exit_err hs ht h,
    fun _ hf h => exec_calibrate_of_switch_err hs ht hf h⟩

/-- Settles O51: the turn polls, and each of the poll's three transactions can fail. -/
theorem probePollErrors : Obligations.ProbePollErrors := by
  refine fun s o t p hr htrig ht hin hp hq => ⟨fun f hf h => ?position, fun n h => ?target, fun f hf h => ?switch⟩
  case position =>
    rw [step_probing_of_inBudget (o := { o with tx := f.tx ++ o.tx, rx := f.rx ++ o.rx }) hr htrig hin ht h,
      settle_poll_of_read_err (s := s.afterIo _ _ _) (o := o) hf rfl, ended_afterIo]
    rfl
  case target =>
    rw [step_probing_of_inBudget (o := { o with tx := .ok :: .err n :: o.tx, rx := .ok (le4 p) :: o.rx }) hr htrig hin
        ht h, settle_poll_of_target_err (s := s.afterIo _ _ _) (o := o) hp hq rfl, ended_afterIo]
    rfl
  case switch =>
    rw [step_probing_of_inBudget
        (o := { o with tx := .ok :: .ok :: (f.tx ++ o.tx), rx := .ok (le4 p) :: (f.rx ++ o.rx) }) hr htrig hin ht h,
      settle_poll_of_switch_err (s := s.afterIo _ _ _) (o := o) hp hq hf rfl, ended_afterIo]
    rfl

/-- Settles O52: the Found action fails in the same ways at a turn and at the entry. -/
theorem foundActionErrors : Obligations.FoundActionErrors := by
  refine fun s o t p ht hp => ⟨fun hr htrig => ⟨fun f hf h => ?turnPosition, fun n hq h => ?turnTarget⟩,
    fun w hs hw => ⟨fun f hf h => ?entryPosition, fun hq h => ?entryRange, fun n hq h => ?entryTarget⟩⟩
  case turnPosition =>
    rw [step_probing_of_triggered (o := { o with tx := f.tx ++ o.tx, rx := f.rx ++ o.rx }) hr htrig ht h,
      settle_foundAction_of_read_err (s := s.afterIo _ _ _) (o := o) hf rfl, ended_afterIo]
    rfl
  case turnTarget =>
    rw [step_probing_of_triggered (o := { o with tx := .ok :: .err n :: o.tx, rx := .ok (le4 p) :: o.rx }) hr htrig
        ht h,
      settle_foundAction_of_target_err (s := s.afterIo _ _ _) (o := o) hp hq rfl, ended_afterIo]
    rfl
  case entryPosition =>
    rw [exec_calibrate_of_triggered (o := { o with tx := f.tx ++ o.tx, rx := f.rx ++ o.rx }) hs ht hw h,
      settle_foundAction_of_read_err (s := State.entered t w true _ s) (o := o) hf rfl, State.entered, ended_afterIo]
    rfl
  case entryRange =>
    rw [exec_calibrate_of_triggered (o := { o with tx := .ok :: o.tx, rx := .ok (le4 p) :: o.rx }) hs ht hw h,
      settle_foundAction_of_outOfRange (s := State.entered t w true _ s) (o := o) hp hq rfl, State.entered,
      ended_afterIo]
    rfl
  case entryTarget =>
    rw [exec_calibrate_of_triggered (o := { o with tx := .ok :: .err n :: o.tx, rx := .ok (le4 p) :: o.rx }) hs ht hw h,
      settle_foundAction_of_target_err (s := State.entered t w true _ s) (o := o) hp hq rfl, State.entered,
      ended_afterIo]
    simp [ended]

end Sys2Proof.Proofs
end

section
/-! The probing loop whatever the oracles answer: what the entry of `calibrate` and a turn record when probing goes on,
and what the clock duty of R284 makes of the readings. -/

namespace Sys2Proof.Machine

variable {s t : State} {es fs : List Event} {n : Nat} {op : Instr} {prev : Phase} {recovering : Bool} {α β : Type}
  {P : List Byte → Prop}

/-! ### When an operation goes on -/

/-- An operation that is still in progress has not returned and has not raised. -/
theorem going_of_settle_running {r : Res Progress} {x : Running} (h : (settle op r).running = some x) :
    r = .ok .going (settle op r) := by
  match r, h with
  | .ok .going u, _ => rfl
  | .ok (.done v) u, h => simp at h
  | .raise e u, h => simp at h

/-- A sequence that ends with a value has taken both its parts. -/
theorem exists_of_andThen_eq_ok {r : Res α} {k : α → State → Res β} {v : β} (h : r.andThen k = .ok v t) :
    ∃ a u, r = .ok a u ∧ k a u = .ok v t := by
  cases r with
  | ok a u => exact ⟨a, u, rfl, h⟩
  | raise e u => cases h

theorem IoOnly.of_ok {r : Res α} {v : α} (h : IoOnly P s r.state) (hr : r = .ok v t) : IoOnly P s t := by
  rwa [hr] at h

theorem now_hist : (now s).2.hist = s.hist ++ [.now (now s).1] := by
  unfold now
  split
  rename_i h
  obtain ⟨o, rfl⟩ := clockDraw_rest h
  rfl

theorem homeTurn_going (h : homeTurn prev recovering s = .ok .going t) : t.running = s.running := by
  have ends := homeTurn_ends prev recovering (admits_true s.address)
  rw [h] at ends
  obtain ⟨-, -, hrun, -⟩ := ends
  exact hrun

theorem foundAction_ne_going : foundAction s ≠ .ok .going t := fun h => by
  have ends := foundAction_ends (admits_true s.address)
  rw [h] at ends
  exact ends

/-- A poll that goes on has slept the settle (R204). -/
theorem poll_going (h : poll s = .ok .going t) : ∃ es, t.hist = s.hist ++ es ∧ .sleep s.cfg.pollSettle ∈ es := by
  obtain ⟨p, u, hu, h⟩ := exists_of_andThen_eq_ok h
  obtain ⟨_, v, hv, h⟩ := exists_of_andThen_eq_ok h
  obtain ⟨b, w, hw, h⟩ := exists_of_andThen_eq_ok h
  obtain ⟨-, rfl⟩ := Res.ok.inj h
  have position := (readPosition_io (admits_true _)).of_ok hu
  have target := (setTargetBody_io (admits_true _) _).of_ok hv
  have switch := (readSwitch_io (admits_true _)).of_ok hw
  obtain ⟨es₁, h₁⟩ := position.kept.hist_isPrefix
  obtain ⟨es₂, h₂⟩ := target.kept.hist_isPrefix
  obtain ⟨es₃, h₃⟩ := switch.kept.hist_isPrefix
  refine ⟨es₁ ++ es₂ ++ .sleep v.cfg.pollSettle :: es₃, ?_, ?_⟩
  · rw [setTrig_hist, ← h₃, sleep_hist, ← h₂, ← h₁]
    simp
  · rw [target.cfg, position.cfg]
    simp

/-- The entry of `calibrate` goes on only into the probing loop, with the time base it has read (R202). -/
theorem calibrateStart_going (h : calibrateStart s = .ok .going t) :
    ∃ es, t.hist = s.hist ++ es ∧ .now t.t0 ∈ es := by
  obtain ⟨_, u, hu, h⟩ := exists_of_andThen_eq_ok h
  obtain ⟨b, v, hv, h⟩ := exists_of_andThen_eq_ok h
  have io := ((send_io (P := fun _ => True) trivial).of_ok hu).trans ((readSwitch_io (admits_true _)).of_ok hv)
  obtain ⟨es, he⟩ := io.kept.hist_isPrefix
  dsimp only at h
  split at h
  · exact absurd h foundAction_ne_going
  · obtain ⟨-, rfl⟩ := Res.ok.inj h
    refine ⟨.now (now s).1 :: es, ?_, ?_⟩
    · show v.hist = _
      rw [← he]
      show (now s).2.hist ++ es = _
      rw [now_hist, List.append_assoc]
      rfl
    · show Event.now v.t0 ∈ _
      rw [io.t0]
      exact List.mem_cons_self

/-! ### Steps that go on probing -/

/-- What a step from the probing loop into it records: the reading of its loop test, within the budget (R205), and then
among others the sleep of its poll. -/
structure ProbesOn (s t : State) : Prop where
  t0 : t.t0 = s.t0
  cfg : t.cfg = s.cfg
  reads : ∃ (v : Reading) (es : List Event), t.hist = s.hist ++ .now v :: es
    ∧ v.value - s.t0.value ≤ s.cfg.calTimeLimit ∧ .sleep s.cfg.pollSettle ∈ es

/-- The Found action does not go on, and the time-out goes on in the other loop. -/
theorem probesOn_of_probeTurn (h : probeTurn s = .ok .going t) (ht : t.running = some .probing) : ProbesOn s t := by
  have io := now_io (P := fun _ => True) s
  have hist := now_hist (s := s)
  unfold probeTurn at h
  generalize now s = x at h io hist
  obtain ⟨v, u⟩ := x
  dsimp only at h io hist
  split at h
  · rename_i inBudget
    have ends := poll_ends (admits_true u.address)
    rw [h] at ends
    obtain ⟨frame, -, -, -, ht0, -⟩ := ends
    obtain ⟨es, he, hsleep⟩ := poll_going h
    refine ⟨ht0.trans io.t0, frame.cfg.trans io.cfg, v, es, ?_, ?_, ?_⟩
    · rw [he, hist, List.append_assoc]
      rfl
    · rw [← io.t0, ← io.cfg]
      exact (elapsedWithin_iff ..).1 inBudget.1
    · rwa [← io.cfg]
  · split at h
    · exact absurd h foundAction_ne_going
    · unfold timedOutAction at h
      split at h
      · exact nomatch ht.symm.trans (homeTurn_going h)
      · exact nomatch h

theorem probesOn_of_step (hs : s.running = some .probing) (h : step s = .next t) (ht : t.running = some .probing) :
    ProbesOn s t := by
  obtain rfl := Host.Outcome.next.inj ((step_of_running hs).symm.trans h)
  exact probesOn_of_probeTurn (going_of_settle_running ht) ht

/-- The host asks for nothing new by itself. -/
theorem requests_of_step (hq : s.requests = []) (h : step s = .next t) : t.requests = [] := by
  rcases step_cases h with ⟨r, hr, rfl⟩ | ⟨-, -, rfl⟩ | ⟨_, _, _, -, -, ⟨hreq, -⟩ | ⟨_, _, hreq, -⟩⟩ |
    ⟨_, -, hreq, -⟩
  · exact (resume_kept (admits_true _) hr).requests.trans hq
  · exact hq
  · exact nomatch hq.symm.trans hreq
  · exact nomatch hq.symm.trans hreq
  · exact nomatch hq.symm.trans hreq

/-- With nothing asked by the host, no step enters the probing loop. -/
theorem running_of_step_probing (hq : s.requests = []) (h : step s = .next t) (ht : t.running = some .probing) :
    s.running = some .probing := by
  match hr : s.running with
  | none =>
    obtain rfl := Host.Outcome.next.inj ((step_of_idle hr hq).symm.trans h)
    exact nomatch hr.symm.trans ht
  | some .probing => rfl
  | some (.homing prev recovering) =>
    obtain rfl := Host.Outcome.next.inj ((step_of_running hr).symm.trans h)
    exact nomatch (hr.symm.trans (homeTurn_going (going_of_settle_running ht)).symm).trans ht

/-! ### The readings of probing steps -/

/-- As far as the clock duty of R284 goes, the next reading after these events is at least `bound`. -/
def NextReadingFrom (bound : ℝ) (es : List Event) : Prop := ∀ u : Reading, ClockDuty (es ++ [.now u]) → bound ≤ u.value

/-- The clock does not go back. -/
theorem nextReadingFrom_of_mem {v : Reading} (h : .now v ∈ es) : NextReadingFrom v.value es := by
  obtain ⟨before, between, rfl⟩ := List.append_of_mem h
  intro u hu
  exact (hu before v between u [] (by simp)).1

theorem ClockDuty.of_append (h : ClockDuty (es ++ fs)) : ClockDuty es := fun before t between u after he =>
  h before t between u (after ++ fs) (by simp [he])

/-- A reading and a sleep after it put the next reading that much later. -/
theorem NextReadingFrom.after_sleep {bound : ℝ} {v : Reading} {d : Seconds} (h : NextReadingFrom bound es)
    (hd : .sleep d ∈ fs) : NextReadingFrom (bound + d) (es ++ .now v :: fs) := by
  intro u hu
  have first : bound ≤ v.value := h v (ClockDuty.of_append (fs := fs ++ [.now u]) (by simpa using hu))
  have second : v.value + d ≤ u.value := (hu es v fs u [] (by simp)).2 d hd
  linarith

/-! ### Runs that go on probing -/

theorem exists_of_runSteps_succ (h : runSteps (n + 1) s = .next t) :
    ∃ u, step s = .next u ∧ runSteps n u = .next t := by
  simp only [runSteps] at h
  split at h
  · exact ⟨_, by assumption, h⟩
  · cases h
  · cases h

/-- A run that ends in the probing loop, with nothing asked by the host, was in it all along. -/
theorem running_of_runSteps_probing (hq : s.requests = []) (h : runSteps n s = .next t)
    (ht : t.running = some .probing) : s.running = some .probing := by
  induction n generalizing s with
  | zero =>
    obtain rfl := Host.Outcome.next.inj h
    exact ht
  | succ n ih =>
    obtain ⟨u, hu, h⟩ := exists_of_runSteps_succ h
    exact running_of_step_probing hq hu (ih (requests_of_step hq hu) h)

/-- Each poll of such a run puts the next reading a settle later, and the last one is still within the budget. -/
theorem settles_le_of_runSteps_probing {bound : ℝ} {before : List Event} (hq : s.requests = [])
    (h : runSteps (n + 1) s = .next t) (ht : t.running = some .probing) (hs : s.hist = before ++ es)
    (hes : NextReadingFrom bound es) (hfs : t.hist = before ++ fs) (duty : ClockDuty fs) :
    bound + n * s.cfg.pollSettle ≤ s.t0.value + s.cfg.calTimeLimit := by
  induction n generalizing s es bound with
  | zero =>
    obtain ⟨u, hu, h⟩ := exists_of_runSteps_succ h
    obtain rfl := Host.Outcome.next.inj h
    obtain ⟨-, -, v, gs, hg, hin, -⟩ := probesOn_of_step (running_of_step_probing hq hu ht) hu ht
    obtain rfl : fs = es ++ .now v :: gs :=
      List.append_cancel_left (hfs.symm.trans (by rw [hg, hs, List.append_assoc]))
    have low : bound ≤ v.value := hes v (ClockDuty.of_append (fs := gs) (by simpa using duty))
    push_cast
    linarith
  | succ n ih =>
    obtain ⟨u, hu, h⟩ := exists_of_runSteps_succ h
    have hqu := requests_of_step hq hu
    have hru := running_of_runSteps_probing hqu h ht
    obtain ⟨ht0, hcfg, v, gs, hg, -, hsleep⟩ := probesOn_of_step (running_of_step_probing hq hu hru) hu hru
    have rest := ih hqu h (hg.trans (by rw [hs, List.append_assoc])) (hes.after_sleep hsleep)
    rw [ht0, hcfg] at rest
    push_cast
    linarith

/-- The invocation of `calibrate` that leads into the loop has read its time base (R202). -/
theorem exec_calibrate_probing (h : exec .calibrate s = .next t) (ht : t.running = some .probing) :
    ∃ es, t.hist = s.hist ++ es ∧ .now t.t0 ∈ es := by
  obtain ⟨-, -, rfl⟩ := invoke_next h
  obtain ⟨es, he, hread⟩ := calibrateStart_going (going_of_settle_running ht)
  exact ⟨.call .calibrate :: es, by rw [he, enter_hist, List.append_assoc]; rfl, List.mem_cons_of_mem _ hread⟩

end Sys2Proof.Machine

namespace Sys2Proof.Proofs

open Sys2Proof.Machine

/-- Settles O55: otherwise every step reads the clock within the budget, and then no reading exceeds it: one that comes
in a step after its loop test is followed by the next step's. -/
theorem probingEndsIfTheClockGoesOn : Obligations.ProbingEndsIfTheClockGoesOn := by
  intro run endless h0 ⟨duty, exceeds⟩
  by_contra! probing
  have on (n : Nat) : ProbesOn (run n) (run (n + 1)) := probesOn_of_step (probing n) (endless n) (probing (n + 1))
  have same (n : Nat) : (run n).t0 = (run 0).t0 ∧ (run n).cfg = (run 0).cfg := by
    induction n with
    | zero => exact ⟨rfl, rfl⟩
    | succ n ih => exact ⟨(on n).t0.trans ih.1, (on n).cfg.trans ih.2⟩
  have goesOn (n : Nat) : ∃ m r, n ≤ m ∧ ReadsClock (run m) (run (m + 1)) r := by
    obtain ⟨v, es, he, -⟩ := (on n).reads
    exact ⟨n, v, le_rfl, _, he, List.mem_cons_self⟩
  obtain ⟨m, r, ⟨es, he, hr⟩, hlate⟩ := exceeds goesOn ((run 0).t0.value + (run 0).cfg.calTimeLimit)
  obtain ⟨v, fs, hf, hin, -⟩ := (on (m + 1)).reads
  have recorded : .now r ∈ (run (m + 1)).hist := he ▸ List.mem_append_right _ hr
  have later : r.value ≤ v.value :=
    nextReadingFrom_of_mem recorded v (ClockDuty.of_append (fs := fs) (by simpa [hf] using duty (m + 2)))
  rw [(same (m + 1)).1, (same (m + 1)).2] at hin
  linarith

/-- Settles O33: after n polls the last reading is at least n − 1 settles past the time base, and within the budget. -/
theorem probingIsBounded : Obligations.ProbingIsBounded := by
  intro s t n evs hs hr hq hsettle hlimit h ht hevs duty
  have quotient : 0 ≤ s.cfg.calTimeLimit / s.cfg.pollSettle := div_nonneg hlimit hsettle.le
  cases n with
  | zero => exact add_nonneg (Int.floor_nonneg.2 quotient) zero_le_one
  | succ m =>
    obtain ⟨u, hu, h⟩ := exists_of_runSteps_succ h
    replace hu : exec .calibrate { s with requests := [] } = .next u := (step_of_request hr hq).symm.trans hu
    have kept := exec_kept (admits_true _) (by simp) hu
    obtain ⟨es, he, hread⟩ := exec_calibrate_probing hu (running_of_runSteps_probing kept.requests h ht)
    have within := settles_le_of_runSteps_probing kept.requests h ht he (nextReadingFrom_of_mem hread) hevs duty
    have settles : (m : Seconds) * s.cfg.pollSettle ≤ s.cfg.calTimeLimit := by
      rw [kept.cfg] at within
      exact_mod_cast le_of_add_le_add_left within
    have polls : (m : Int) ≤ ⌊s.cfg.calTimeLimit / s.cfg.pollSettle⌋ :=
      Int.le_floor.2 (by exact_mod_cast (le_div_iff₀ hsettle).2 settles)
    push_cast
    linarith

end Sys2Proof.Proofs
end

section
/-! Error delivery (R240, R245, R247): what an operation that an error ended leaves of the session, and the numbers of
errors and outcomes. -/

namespace Sys2Proof.Machine

variable {P : List Byte → Prop} {s t : State} {prev ph : Phase} {recovering : Bool} {i op : Instr} {e : Error}
  {r : Res Progress}

theorem isController_of_isWire (hi : i.isWire = true) : i.isController = false := by
  cases i <;> simp_all [Instr.isWire, Instr.isController]

theorem isController_of_isIoVerb (hi : i.isIoVerb = true) : i.isController = false := by
  cases i <;> simp_all [Instr.isIoVerb, Instr.isController]

/-- A turn that ends its operation with an error has raised it. -/
theorem raise_of_settle_error (hg : ∀ u, r ≠ .ok .going u) (he : (settle op r).result = some (.error e)) :
    ∃ u, r = .raise e u := by
  match r with
  | .ok .going u => exact absurd rfl (hg u)
  | .ok (.done v) u => simp at he
  | .raise e' u => exact ⟨u, by simpa using he⟩

/-- A body keeps busy set, so an operation that is not busy is over. -/
theorem ne_going_of_not_busy (hr : r.state.busy = true) (hb : (settle op r).busy = false) : ∀ u, r ≠ .ok .going u := by
  rintro u rfl
  exact Bool.false_ne_true (hb.symm.trans hr)

theorem CalibrateTurnEnd.ne_going (h : CalibrateTurnEnd P ph s r) (hn : (settle op r).running = none) :
    ∀ u, r ≠ .ok .going u := by
  rintro u rfl
  obtain ⟨-, -, ⟨-, hr⟩ | ⟨-, hr⟩⟩ := h <;> exact Option.some_ne_none _ (hr.symm.trans hn)

theorem HomeTurnEnd.ne_going (h : HomeTurnEnd P prev recovering s r) (hs : s.running ≠ none)
    (hn : (settle op r).running = none) : ∀ u, r ≠ .ok .going u := by
  rintro u rfl
  obtain ⟨-, -, hr, -⟩ := h
  exact hs (hr.symm.trans hn)

/-- A controller operation that an error ended: HomeOffset is kept, the phase is Idle, and it is not busy (R247). -/
theorem settle_raise_controller_keeps {u : State} (hop : op.isController = true) (hh : u.homeOffset = s.homeOffset) :
    (settle op (.raise e u)).homeOffset = s.homeOffset ∧ (settle op (.raise e u)).phase = .idle
      ∧ (settle op (.raise e u)).busy = false :=
  ⟨(abort_homeOffset ..).trans hh, (abort_phase ..).trans (if_pos hop), abort_busy ..⟩

theorem CalibrateTurnEnd.error_keeps (h : CalibrateTurnEnd P ph s r) (hg : ∀ u, r ≠ .ok .going u)
    (he : (settle .calibrate r).result = some (.error e)) :
    (settle .calibrate r).homeOffset = s.homeOffset ∧ (settle .calibrate r).phase = .idle
      ∧ (settle .calibrate r).busy = false := by
  obtain ⟨u, rfl⟩ := raise_of_settle_error hg he
  obtain ⟨-, hh⟩ := h
  exact settle_raise_controller_keeps rfl hh

theorem HomeTurnEnd.error_keeps (h : HomeTurnEnd P prev recovering s r) (hop : op.isController = true)
    (hg : ∀ u, r ≠ .ok .going u) (he : (settle op r).result = some (.error e)) :
    (settle op r).homeOffset = s.homeOffset ∧ (settle op r).phase = .idle ∧ (settle op r).busy = false := by
  obtain ⟨u, rfl⟩ := raise_of_settle_error hg he
  obtain ⟨-, hh, -⟩ := h
  exact settle_raise_controller_keeps hop hh

/-- An invocation that an error ended at once. A verb and a wire command write neither register; `update_home` and a
construction that succeeds end without an error. -/
theorem exec_error_keeps (h : exec i s = .next t) (hb : t.busy = false) (he : t.result = some (.error e)) :
    t.homeOffset = s.homeOffset ∧ t.phase = if i.isController then .idle else s.phase := by
  have hP := admits_true s.address
  rcases instr_kinds i with hi | hi | ⟨v, rfl⟩ | rfl | rfl | ⟨a, c, rfl⟩
  · obtain ⟨-, -, u, r, hio, rfl⟩ := exec_wire hi hP h
    exact ⟨hio.homeOffset, by simp [isController_of_isWire hi, hio.phase]⟩
  · obtain ⟨-, -, u, r, hio, rfl⟩ := exec_ioVerb hi hP h
    exact ⟨hio.homeOffset, by simp [isController_of_isIoVerb hi, hio.phase]⟩
  · obtain ⟨-, -, -, rfl⟩ := exec_updateHome h
    simp at he
  · obtain ⟨-, -, r, hr, rfl⟩ := exec_calibrate hP h
    obtain ⟨hh, hp, -⟩ := hr.error_keeps (ne_going_of_not_busy hr.frame.busy hb) he
    exact ⟨hh, hp⟩
  · obtain ⟨-, -, r, hr, rfl⟩ := exec_goHome hP h
    obtain ⟨hh, hp, -⟩ := hr.error_keeps rfl (ne_going_of_not_busy hr.frame.busy hb) he
    exact ⟨hh, hp⟩
  · obtain ⟨-, ⟨b, o, rfl⟩ | ⟨e', o, rfl⟩⟩ := exec_connect h
    · simp [freshSession] at he
    · exact ⟨rfl, rfl⟩

/-- A further turn of an operation in progress that an error ended. -/
theorem resume_error_keeps {x : Running} (hx : s.running = some x) (hn : (resume x s).running = none)
    (he : (resume x s).result = some (.error e)) :
    (resume x s).homeOffset = s.homeOffset ∧ (resume x s).phase = .idle ∧ (resume x s).busy = false := by
  have hP := admits_true s.address
  cases x with
  | probing =>
    have hr := probeTurn_ends hP hx
    exact hr.error_keeps (hr.ne_going hn) he
  | homing prev recovering =>
    have hr := homeTurn_ends prev recovering hP
    exact hr.error_keeps isController_homingOperation (hr.ne_going (by simp [hx]) hn) he

end Sys2Proof.Machine

namespace Sys2Proof.Proofs

open Sys2Proof.Machine

/-- Settles O40: an operation of a session keeps the session with its history grown, and one that raises has written no
HomeOffset before; a construction ends in an error only where it leaves the session that was there. -/
theorem errorKeepsTheSession : Obligations.ErrorKeepsTheSession := by
  constructor
  · intro i s t e h hb he
    obtain ⟨hh, hp⟩ := exec_error_keeps h hb he
    rcases exec_kept_or_fresh (admits_true s.address) h with hk | ⟨b, c, v, rfl⟩
    · exact ⟨hk.address, hk.isOpen, hh, hk.hist_isPrefix, hp⟩
    · simp [freshSession] at he
  · intro s t e hr h hn he
    obtain ⟨x, hx⟩ := Option.ne_none_iff_exists'.1 hr
    obtain rfl := Host.Outcome.next.inj ((step_of_running hx).symm.trans h)
    obtain ⟨hh, hp, hb⟩ := resume_error_keeps hx hn he
    have hk := resume_kept (admits_true s.address) hx
    exact ⟨hk.address, hk.isOpen, hh, hk.hist_isPrefix, hp, hb⟩

/-- Settles O41: each clause is an entry of the table of R245 (a timeout is 16 whatever its recovery: log entry 26). -/
theorem resultCodes : Obligations.ResultCodes :=
  ⟨fun _ => rfl, rfl, fun _ => rfl, fun _ => rfl, rfl, rfl, rfl, rfl, fun _ => rfl, fun _ => rfl, rfl⟩

end Sys2Proof.Proofs
end

section
/-! Construction (R270): the address is checked first, then the transport opens or not, and each of the three outcomes
is an equation of `connect`. -/

namespace Sys2Proof.Machine

variable {s s' : State} {a : Option Addr} {arg : Option Int} {c : Config} {o : Oracle} {e : EncodingCause}

theorem checkAddress_addressArg (a : Option Addr) : checkAddress (addressArg a) = .ok a := by
  cases a with
  | none => rfl
  | some x =>
    have hx : (x.toNat : Int) ≤ 127 := by have := x.isLt; omega
    simp [addressArg, checkAddress, hx]

theorem checkAddress_badAddress {x : Int} (h : ¬ (0 ≤ x ∧ x ≤ 127)) : checkAddress (some x) = .error .badAddress :=
  if_neg h

theorem openDraw_of_scripted {b : Bool} (h : s.oracle = { o with opening := b :: o.opening }) :
    s.openDraw = (b, { s with oracle := o }) := by
  simp only [State.openDraw, h]

/-- Nothing is opened: the oracles are left where they were. -/
theorem exec_connect_of_address_error (hb : s.busy = false) (he : checkAddress arg = .error e) :
    exec (.connect arg c) s = .next { s with result := some (.error (.encoding e)) } := by
  simp [exec, execConnect, hb, he]

theorem exec_connect_of_opens (hb : s.busy = false) (ha : checkAddress arg = .ok a) (ho : s.openDraw = (true, s')) :
    exec (.connect arg c) s = .next (freshSession a c s') := by
  simp [exec, execConnect, hb, ha, ho]

theorem exec_connect_of_transport (hb : s.busy = false) (ha : checkAddress arg = .ok a)
    (ho : s.openDraw = (false, s')) :
    exec (.connect arg c) s = .next { s' with result := some (.error .transport) } := by
  simp [exec, execConnect, hb, ha, ho]

end Sys2Proof.Machine

namespace Sys2Proof.Proofs

open Sys2Proof.Machine

/-- Settles O42: a session's address passes the check, so `connect` does what the transport's scripted answer says; an
address outside 0..127 stops it before that answer is drawn. -/
theorem connectConstructs : Obligations.ConnectConstructs := by
  intro s c o hb
  refine ⟨?opens, ?badAddress, ?transport⟩
  case opens =>
    rintro _ a rfl ho
    exact ⟨_, exec_connect_of_opens hb (checkAddress_addressArg a) (openDraw_of_scripted ho),
      rfl, rfl, rfl, rfl, rfl, rfl, rfl, rfl, rfl, rfl, rfl, rfl⟩
  case badAddress =>
    exact fun x hx => exec_connect_of_address_error hb (checkAddress_badAddress (by omega))
  case transport =>
    exact fun a ho => exec_connect_of_transport hb (checkAddress_addressArg a) (openDraw_of_scripted ho)

end Sys2Proof.Proofs
end
